-- ==== Sys2Proof/Config.lean ====
section
/-! DEFINITION. The implementation parameters of 00_scope.md R7. Every value is fixed by the spec; there is no free
value (93_implementation_defined.md: "No entry below is `any value`"). -/

namespace Sys2Proof.Config

/-- BIT_PERIOD, 200 ms (R7). -/
abbrev bitPeriod : Nat := 200
/-- START_DURATION, 800 ms (R7). -/
abbrev startDuration : Nat := 800
/-- STOP_DURATION, 900 ms (R7). -/
abbrev stopDuration : Nat := 900
/-- START_TRIGGER, 480 ms (R7). -/
abbrev startTrigger : Nat := 480
/-- STOP_TRIGGER, 650 ms (R7). -/
abbrev stopTrigger : Nat := 650
/-- MIN_RUN, 80 ms (R7). -/
abbrev minRun : Nat := 80
/-- CAL_OFFSET, 30 brightness units (R7). -/
abbrev calOffset : Nat := 30
/-- SWING_FLOOR, 12 brightness units (R7). -/
abbrev swingFloor : Nat := 12
/-- WINDOW_CAP, 150 samples (R7). -/
abbrev windowCap : Nat := 150
/-- WIN_MIN, 12 samples (R7). -/
abbrev winMin : Nat := 12
/-- CAL_MIN, 10 samples (R7). -/
abbrev calMin : Nat := 10
/-- DEFAULT_THRESHOLD, 128 brightness units (R7). -/
abbrev defaultThreshold : Nat := 128
/-- TIMEOUT, 60000 ms (R7). -/
abbrev timeout : Nat := 60000
/-- SYMBOL_BITS, 5 bits (R7). -/
abbrev symbolBits : Nat := 5
/-- GROUP_BITS, 10 bits (R7). -/
abbrev groupBits : Nat := 10
/-- SAMPLE_W, 8 bits of a brightness sample (R7). -/
abbrev sampleW : Nat := 8
/-- TS_W, 32 bits of a timestamp (R7). -/
abbrev tsW : Nat := 32
/-- EDGE_CAP, 1024 edges (R7). -/
abbrev edgeCap : Nat := 1024
/-- BIT_CAP, 4096 bits of the recovered vector (R7). -/
abbrev bitCap : Nat := 4096
/-- TX_CAP, 4096 bits of the transmit buffer (R7). -/
abbrev txCap : Nat := 4096
/-- CMD_W, 64 bits of a command or response word (R7). -/
abbrev cmdW : Nat := 64

end Sys2Proof.Config
end

