-- ==== Sys2Proof/Word.lean ====
section
/-! DEFINITION. The widths of the block's values (00_scope.md R7 to R13), the two ports and the status names. -/

namespace Sys2Proof

/-- A command or response word, CMD_W = 64 bits (R7, R80, R90). -/
abbrev Word := BitVec Config.cmdW

/-- The data field of a response, `DATA[47:0]` (R90). -/
abbrev Data := BitVec 48

/-- A byte or a brightness sample, SAMPLE_W = 8 bits (R7). -/
abbrev Byte := BitVec Config.sampleW

/-- A timestamp in milliseconds, TS_W = 32 bits (R7, R10); also the pattern of an `s32`. -/
abbrev Time := BitVec Config.tsW

/-- A 10-bit group, GROUP_BITS = 10 (R7, R62). -/
abbrev Group := BitVec Config.groupBits

/-- A 5-bit symbol code, SYMBOL_BITS = 5 (R7, R110). -/
abbrev Symbol := BitVec Config.symbolBits

/-- A bit vector: element 0 is the first bit sent on the light (R11); `true` is 1, HIGH, light ON (R13). -/
abbrev Bits := List Bool

/-- The two command ports (00_scope.md R3, 30_encoding.md R82). -/
inductive Port where
  | rx
  | tx
  deriving DecidableEq, Repr

/-- The status names of 60_exceptions.md R340; their codes are `Machine.statusCode`. -/
inductive Status where
  | ok
  | illegalOpcode
  | reservedField
  | badIndex
  | txBusy
  | txFull
  deriving DecidableEq, Repr

end Sys2Proof
end

