-- ==== Sys2Proof/Machine/State.lean ====
section
/-! DEFINITION. The state of the block as plain data (10_state.md R20 to R51), its reset values (R49) and the outcomes
that stop a step. -/

namespace Sys2Proof.Machine

/-- `STATE`, the receiver state machine's state (R20); the codes are `phaseCode`. -/
inductive RxPhase where
  | idle
  | waitForLow
  | receiving
  | done
  deriving DecidableEq, Repr

/-- An entry of the edge list (R32): the time relative to `ORIGIN`, an `s32` held as its pattern, and the new level. -/
structure Edge where
  t : Time
  lvl : Bool
  deriving DecidableEq, Repr

/-- Why a session reached DONE (R34): code 0 is STOP, code 1 is TIMEOUT. -/
inductive Cause where
  | stop
  | timeout
  deriving DecidableEq, Repr

/-- The result record (R34). -/
structure ResultRecord where
  /-- RES_VALID -/
  valid : Bool
  /-- RES_CAUSE -/
  cause : Cause
  /-- RES_BIT_OVF -/
  bitOvf : Bool
  /-- RES_EDGE_OVF -/
  edgeOvf : Bool
  /-- RES_STOP, an `s32` held as its pattern -/
  stop : Time
  /-- RES_BITS -/
  bits : Bits
  deriving DecidableEq, Repr

/-- The receiver session: exactly the state of R20 to R34 (R35). -/
structure RxSession where
  /-- STATE (R20) -/
  phase : RxPhase
  /-- READY (R21) -/
  ready : Bool
  /-- WIN, oldest first (R22) -/
  win : List Byte
  /-- THR2, twice the effective threshold (R23) -/
  thr2 : BitVec 10
  /-- SWING (R24) -/
  swing : Byte
  /-- P10 (R25) -/
  p10 : Byte
  /-- P90 (R25) -/
  p90 : Byte
  /-- CAL (R26) -/
  cal : Bool
  /-- BASELINE (R27) -/
  baseline : Byte
  /-- RUN_OPEN (R28) -/
  runOpen : Bool
  /-- RUN_LVL (R29) -/
  runLvl : Bool
  /-- RUN_START (R30) -/
  runStart : Time
  /-- ORIGIN (R31) -/
  origin : Time
  /-- EDGES (R32) -/
  edges : List Edge
  /-- EDGE_OVF (R32) -/
  edgeOvf : Bool
  /-- SAMPLE_CNT (R33) -/
  sampleCnt : BitVec 32
  /-- FIRST_TS (R33) -/
  firstTs : Time
  /-- LAST_TS (R33) -/
  lastTs : Time
  /-- The result record (R34) -/
  res : ResultRecord
  deriving DecidableEq, Repr

/-- `TX_OUTCOME` (R42): codes 0, 1, 2; code 3 is never written. -/
inductive TxOutcome where
  | none
  | ok
  | failed
  deriving DecidableEq, Repr

/-- The TX state: exactly the state of R40 to R45 (R46). -/
structure TxUnit where
  /-- TXBUF, element 0 sent first (R40) -/
  buf : Bits
  /-- TX_BUSY (R41) -/
  busy : Bool
  /-- TX_OUTCOME (R42) -/
  outcome : TxOutcome
  /-- TX_T0 (R43) -/
  t0 : Time
  /-- TX_K (R44) -/
  k : BitVec 13
  /-- TX_ACT (R45) -/
  act : Bool
  deriving DecidableEq, Repr

/-- What an actuator event reports (42_transmit.md R150): the performance of a schedule entry with its target, or the
forced OFF of R165. -/
inductive ActKind where
  | event (k : Nat) (target : Time)
  | forcedOff
  deriving DecidableEq, Repr

/-- One actuator event `ACT(level, kind)` (R150). -/
structure ActEvent where
  level : Bool
  kind : ActKind
  deriving DecidableEq, Repr

/-- What the block gives for one command: the response word (30_encoding.md R90) and the actuator events the command
emitted, in order (42_transmit.md R150). -/
structure Reply where
  word : Word
  events : List ActEvent
  deriving DecidableEq, Repr

/-- An input of the block: a command word on a port (30_encoding.md R82), or the reset input (70_reset_and_hazards.md
R370). -/
inductive Input where
  | command (p : Port) (w : Word)
  | hardReset
  deriving DecidableEq, Repr

/-- The whole machine: the two units, and the model's own account of what has arrived and what has been answered
(logs 2, 3, 4). -/
structure State where
  /-- The RX unit. -/
  rx : RxSession
  /-- The TX unit. -/
  tx : TxUnit
  /-- MODEL: the port whose command is being performed (log 4). -/
  port : Port
  /-- MODEL: the inputs not yet performed, oldest first (log 2). -/
  pending : List Input
  /-- MODEL: the replies given on the RX port, oldest first (log 3). -/
  rxReplies : List Reply
  /-- MODEL: the replies given on the TX port, oldest first (log 3). -/
  txReplies : List Reply
  deriving DecidableEq, Repr

/-- The reasons the machine stops with a fault. There is none: an error status is a response and a next state
(60_exceptions.md R341), and the block has no traps (R347). -/
inductive Fault where
  deriving DecidableEq, Repr

/-- The reasons a step has no meaning. -/
inductive Refusal where
  /-- Raised by an arm of `exec` that has no meaning yet; no arm raises it now. Safe: it stops the run. -/
  | notModelled (mnemonic : String)
  deriving DecidableEq, Repr

/-- The result record after reset (R34, R49). -/
def ResultRecord.reset : ResultRecord where
  valid := false
  cause := .stop
  bitOvf := false
  edgeOvf := false
  stop := 0#32
  bits := []

/-- The RX rows of R49. -/
def RxSession.reset : RxSession where
  phase := .idle
  ready := false
  win := []
  thr2 := 256#10
  swing := 0#8
  p10 := 0#8
  p90 := 0#8
  cal := false
  baseline := 0#8
  runOpen := false
  runLvl := false
  runStart := 0#32
  origin := 0#32
  edges := []
  edgeOvf := false
  sampleCnt := 0#32
  firstTs := 0#32
  lastTs := 0#32
  res := ResultRecord.reset

/-- The TX rows of R49. -/
def TxUnit.reset : TxUnit where
  buf := []
  busy := false
  outcome := .none
  t0 := 0#32
  k := 0#13
  act := false

/-- The machine right after hardware reset (R49, R370); nothing has arrived and nothing has been answered. -/
def State.reset : State where
  rx := RxSession.reset
  tx := TxUnit.reset
  port := .rx
  pending := []
  rxReplies := []
  txReplies := []

end Sys2Proof.Machine
end

