-- ==== Sys2Proof/Machine/Operands.lean ====
section
/-! DEFINITION. How operands and stored values are turned into the values the rules compute with: time arithmetic
(00_scope.md R10), element access (20_memory.md R64), the bit order of groups (20_memory.md R62), and the sorted copy
of the window (00_scope.md R11). The operand fields of a command word (30_encoding.md R81) are read in Decode.lean. -/

namespace Sys2Proof.Machine

/-- `add32(a, d) = (a + d) mod 2^32` (R10). -/
def add32 (a : Time) (d : Nat) : Time :=
  a + BitVec.ofNat 32 d

/-- `sdiff(a, b)`, the signed elapsed time from `b` to `a` (R10). -/
def sdiff (a b : Time) : Int :=
  (a - b).toInt

/-- The 32-bit pattern of `sdiff(a, b)`, as an `s32` element stores it. -/
def sdiffPattern (a b : Time) : Time :=
  a - b

/-- `sort(s)`: the ascending sort of a copy, duplicates kept (R11). -/
def sortSamples (l : List Byte) : List Byte :=
  l.insertionSort (· ≤ ·)

/-- The element of a sorted window at an index; the rules only use indices in range (log 9). -/
def sampleAt (l : List Byte) (i : Nat) : Byte :=
  l.getD i 0#8

/-- The value of a group of bits, element 0 the most significant (20_memory.md R62). -/
def groupOfBits (bs : Bits) : Group :=
  bs.foldl (fun g b => (g <<< 1) ||| (BitVec.ofBool b).setWidth 10) 0#10

/-- The bits of a group in the order they go on the light, `g[9]` first (20_memory.md R62). -/
def bitsOfGroup (g : Group) : Bits :=
  (List.range 10).map fun i => g.getLsbD (9 - i)

/-- One bit as response data. -/
def bitData (b : Bool) : Data :=
  (BitVec.ofBool b).setWidth 48

/-- A count as response data in a field of `n` bits (20_memory.md R65). -/
def countData (n : Nat) (v : Nat) : Data :=
  (BitVec.ofNat n v).setWidth 48

end Sys2Proof.Machine
end

