-- ==== Sys2Proof/Syntax.lean ====
section
/-! DEFINITION. The commands: one constructor per row of spec/opcode_table.json (30_encoding.md R83), each operand at
the width R81 gives it. -/

namespace Sys2Proof

/-- A command of the block with its operands (30_encoding.md R81, R83). -/
inductive Instr where
  /-- `RX_PUSH b, t` (R220). -/
  | rxPush (b : Byte) (t : Time)
  /-- `RX_RESET` (R240). -/
  | rxReset
  /-- `RX_CALIBRATE` (R198). -/
  | rxCalibrate
  /-- `RX_MARK_READY` (R241). -/
  | rxMarkReady
  /-- `RX_MARK_NOT_READY` (R242). -/
  | rxMarkNotReady
  /-- `RX_READ_REG idx` (R301). -/
  | rxReadReg (idx : BitVec 16)
  /-- `RX_READ_WIN idx` (R304). -/
  | rxReadWin (idx : BitVec 16)
  /-- `RX_READ_EDGE idx` (R305). -/
  | rxReadEdge (idx : BitVec 16)
  /-- `RX_READ_RES_BIT idx` (R306). -/
  | rxReadResBit (idx : BitVec 16)
  /-- `RX_READ_RES_BYTE idx` (R307). -/
  | rxReadResByte (idx : BitVec 16)
  /-- `TX_CLEAR` (R160). -/
  | txClear
  /-- `TX_APPEND_BYTE b` (R161). -/
  | txAppendByte (b : Byte)
  /-- `TX_APPEND_BIT v` (R162). -/
  | txAppendBit (v : Bool)
  /-- `TX_START t` (R163). -/
  | txStart (t : Time)
  /-- `TX_TICK t` (R164). -/
  | txTick (t : Time)
  /-- `TX_ACT_FAIL` (R165). -/
  | txActFail
  /-- `TX_READ_REG idx` (R310). -/
  | txReadReg (idx : BitVec 16)
  /-- `TX_READ_BUF idx` (R311). -/
  | txReadBuf (idx : BitVec 16)
  /-- `TX_READ_EVENT k, t` (R312). -/
  | txReadEvent (k : BitVec 16) (t : Time)
  /-- `CODEC_ENC_BYTE b` (R120). -/
  | codecEncByte (b : Byte)
  /-- `CODEC_DEC_SYM c` (R121). -/
  | codecDecSym (c : Symbol)
  /-- `CODEC_DEC_TEN g` (R122). -/
  | codecDecTen (g : Group)
  /-- `CONST_READ idx` (R320). -/
  | constRead (idx : BitVec 16)
  deriving DecidableEq, Repr

end Sys2Proof
end

