-- ==== Sys2Proof/Decode.lean ====
section
/-! DEFINITION. The opcode map, the decoder and the encoder (30_encoding.md R80 to R86), and the order of a word's bytes
on a byte-wide transport (20_memory.md R63). -/

namespace Sys2Proof

/-- The 23 opcodes of 30_encoding.md R83 by name. -/
inductive Op where
  | rxPush
  | rxReset
  | rxCalibrate
  | rxMarkReady
  | rxMarkNotReady
  | rxReadReg
  | rxReadWin
  | rxReadEdge
  | rxReadResBit
  | rxReadResByte
  | txClear
  | txAppendByte
  | txAppendBit
  | txStart
  | txTick
  | txActFail
  | txReadReg
  | txReadBuf
  | txReadEvent
  | codecEncByte
  | codecDecSym
  | codecDecTen
  | constRead
  deriving DecidableEq, Repr

/-- The column OP of R83. -/
def Op.code : Op → BitVec 8
  | .rxPush => 0x01#8
  | .rxReset => 0x02#8
  | .rxCalibrate => 0x03#8
  | .rxMarkReady => 0x04#8
  | .rxMarkNotReady => 0x05#8
  | .rxReadReg => 0x08#8
  | .rxReadWin => 0x09#8
  | .rxReadEdge => 0x0A#8
  | .rxReadResBit => 0x0B#8
  | .rxReadResByte => 0x0C#8
  | .txClear => 0x21#8
  | .txAppendByte => 0x22#8
  | .txAppendBit => 0x23#8
  | .txStart => 0x24#8
  | .txTick => 0x25#8
  | .txActFail => 0x26#8
  | .txReadReg => 0x28#8
  | .txReadBuf => 0x29#8
  | .txReadEvent => 0x2A#8
  | .codecEncByte => 0x40#8
  | .codecDecSym => 0x41#8
  | .codecDecTen => 0x42#8
  | .constRead => 0x48#8

/-- The opcode a code names; the 233 other values name none (R85). -/
def Op.ofCode (c : BitVec 8) : Option Op :=
  match c.toNat with
  | 0x01 => some .rxPush
  | 0x02 => some .rxReset
  | 0x03 => some .rxCalibrate
  | 0x04 => some .rxMarkReady
  | 0x05 => some .rxMarkNotReady
  | 0x08 => some .rxReadReg
  | 0x09 => some .rxReadWin
  | 0x0A => some .rxReadEdge
  | 0x0B => some .rxReadResBit
  | 0x0C => some .rxReadResByte
  | 0x21 => some .txClear
  | 0x22 => some .txAppendByte
  | 0x23 => some .txAppendBit
  | 0x24 => some .txStart
  | 0x25 => some .txTick
  | 0x26 => some .txActFail
  | 0x28 => some .txReadReg
  | 0x29 => some .txReadBuf
  | 0x2A => some .txReadEvent
  | 0x40 => some .codecEncByte
  | 0x41 => some .codecDecSym
  | 0x42 => some .codecDecTen
  | 0x48 => some .constRead
  | _ => none

/-- The column port of R83: the ports that admit an opcode (R82). -/
def Op.admits : Op → Port → Bool
  | .rxPush, p => p == .rx
  | .rxReset, p => p == .rx
  | .rxCalibrate, p => p == .rx
  | .rxMarkReady, p => p == .rx
  | .rxMarkNotReady, p => p == .rx
  | .rxReadReg, p => p == .rx
  | .rxReadWin, p => p == .rx
  | .rxReadEdge, p => p == .rx
  | .rxReadResBit, p => p == .rx
  | .rxReadResByte, p => p == .rx
  | .txClear, p => p == .tx
  | .txAppendByte, p => p == .tx
  | .txAppendBit, p => p == .tx
  | .txStart, p => p == .tx
  | .txTick, p => p == .tx
  | .txActFail, p => p == .tx
  | .txReadReg, p => p == .tx
  | .txReadBuf, p => p == .tx
  | .txReadEvent, p => p == .tx
  | .codecEncByte, _ => true
  | .codecDecSym, _ => true
  | .codecDecTen, _ => true
  | .constRead, _ => true

/-- The column mask of opcode_table.json (R84): the opcode byte and the must-be-zero bits. -/
def Op.mask : Op → Word
  | .rxPush => 0xFFFFFF0000000000#64
  | .rxReset => 0xFFFFFFFFFFFFFFFF#64
  | .rxCalibrate => 0xFFFFFFFFFFFFFFFF#64
  | .rxMarkReady => 0xFFFFFFFFFFFFFFFF#64
  | .rxMarkNotReady => 0xFFFFFFFFFFFFFFFF#64
  | .rxReadReg => 0xFFFF0000FFFFFFFF#64
  | .rxReadWin => 0xFFFF0000FFFFFFFF#64
  | .rxReadEdge => 0xFFFF0000FFFFFFFF#64
  | .rxReadResBit => 0xFFFF0000FFFFFFFF#64
  | .rxReadResByte => 0xFFFF0000FFFFFFFF#64
  | .txClear => 0xFFFFFFFFFFFFFFFF#64
  | .txAppendByte => 0xFFFFFF00FFFFFFFF#64
  | .txAppendBit => 0xFFFFFFFEFFFFFFFF#64
  | .txStart => 0xFFFFFFFF00000000#64
  | .txTick => 0xFFFFFFFF00000000#64
  | .txActFail => 0xFFFFFFFFFFFFFFFF#64
  | .txReadReg => 0xFFFF0000FFFFFFFF#64
  | .txReadBuf => 0xFFFF0000FFFFFFFF#64
  | .txReadEvent => 0xFFFF000000000000#64
  | .codecEncByte => 0xFFFFFF00FFFFFFFF#64
  | .codecDecSym => 0xFFFFFFE0FFFFFFFF#64
  | .codecDecTen => 0xFFFFFC00FFFFFFFF#64
  | .constRead => 0xFFFF0000FFFFFFFF#64

/-- The column match of opcode_table.json: the opcode byte above 56 zero bits (R83, R84). -/
def Op.pattern (op : Op) : Word :=
  op.code ++ 0#56

/-- `MBZ(op)` of R84: RSV and the must-be-zero bits of A and T. -/
def Op.mbz (op : Op) : Word :=
  op.mask &&& 0x00FFFFFFFFFFFFFF#64

/-- OP, bits [63:56] (R80). -/
def fieldOp (w : Word) : BitVec 8 := w.extractLsb' 56 8
/-- RSV, bits [55:48] (R80). -/
def fieldRsv (w : Word) : BitVec 8 := w.extractLsb' 48 8
/-- A, bits [47:32] (R80). -/
def fieldA (w : Word) : BitVec 16 := w.extractLsb' 32 16
/-- T, bits [31:0] (R80). -/
def fieldT (w : Word) : BitVec 32 := w.extractLsb' 0 32

/-- `b = A[7:0]`, a brightness or a byte (R81). -/
def operandB (w : Word) : Byte := (fieldA w).extractLsb' 0 8
/-- `v = A[0]`, a bit (R81). -/
def operandV (w : Word) : Bool := (fieldA w).getLsbD 0
/-- `c = A[4:0]`, a symbol code (R81). -/
def operandC (w : Word) : Symbol := (fieldA w).extractLsb' 0 5
/-- `g = A[9:0]`, a group (R81). -/
def operandG (w : Word) : Group := (fieldA w).extractLsb' 0 10
/-- `idx = A[15:0]` or `k = A[15:0]` (R81). -/
def operandIdx (w : Word) : BitVec 16 := fieldA w
/-- `t = T` (R81). -/
def operandT (w : Word) : Time := fieldT w

/-- The command an opcode and a word's operand fields make (R81, column operands of R83). -/
def Op.instr (op : Op) (w : Word) : Instr :=
  match op with
  | .rxPush => .rxPush (operandB w) (operandT w)
  | .rxReset => .rxReset
  | .rxCalibrate => .rxCalibrate
  | .rxMarkReady => .rxMarkReady
  | .rxMarkNotReady => .rxMarkNotReady
  | .rxReadReg => .rxReadReg (operandIdx w)
  | .rxReadWin => .rxReadWin (operandIdx w)
  | .rxReadEdge => .rxReadEdge (operandIdx w)
  | .rxReadResBit => .rxReadResBit (operandIdx w)
  | .rxReadResByte => .rxReadResByte (operandIdx w)
  | .txClear => .txClear
  | .txAppendByte => .txAppendByte (operandB w)
  | .txAppendBit => .txAppendBit (operandV w)
  | .txStart => .txStart (operandT w)
  | .txTick => .txTick (operandT w)
  | .txActFail => .txActFail
  | .txReadReg => .txReadReg (operandIdx w)
  | .txReadBuf => .txReadBuf (operandIdx w)
  | .txReadEvent => .txReadEvent (operandIdx w) (operandT w)
  | .codecEncByte => .codecEncByte (operandB w)
  | .codecDecSym => .codecDecSym (operandC w)
  | .codecDecTen => .codecDecTen (operandG w)
  | .constRead => .constRead (operandIdx w)

/-- The opcode of a command. -/
def Instr.op : Instr → Op
  | .rxPush _ _ => .rxPush
  | .rxReset => .rxReset
  | .rxCalibrate => .rxCalibrate
  | .rxMarkReady => .rxMarkReady
  | .rxMarkNotReady => .rxMarkNotReady
  | .rxReadReg _ => .rxReadReg
  | .rxReadWin _ => .rxReadWin
  | .rxReadEdge _ => .rxReadEdge
  | .rxReadResBit _ => .rxReadResBit
  | .rxReadResByte _ => .rxReadResByte
  | .txClear => .txClear
  | .txAppendByte _ => .txAppendByte
  | .txAppendBit _ => .txAppendBit
  | .txStart _ => .txStart
  | .txTick _ => .txTick
  | .txActFail => .txActFail
  | .txReadReg _ => .txReadReg
  | .txReadBuf _ => .txReadBuf
  | .txReadEvent _ _ => .txReadEvent
  | .codecEncByte _ => .codecEncByte
  | .codecDecSym _ => .codecDecSym
  | .codecDecTen _ => .codecDecTen
  | .constRead _ => .constRead

/-- Decoding, a total function of the port and the word (R84): the port and the opcode first, then the
must-be-zero bits. -/
def decode (p : Port) (w : Word) : Except Status Instr :=
  match Op.ofCode (fieldOp w) with
  | none => .error .illegalOpcode
  | some op =>
    if op.admits p = false then .error .illegalOpcode
    else if w &&& op.mbz ≠ 0#64 then .error .reservedField
    else .ok (op.instr w)

/-- The field A of a command's word (R81): the operand in its low bits, every unused bit zero. -/
def Instr.fieldA : Instr → BitVec 16
  | .rxPush b _ => b.setWidth 16
  | .rxReset => 0#16
  | .rxCalibrate => 0#16
  | .rxMarkReady => 0#16
  | .rxMarkNotReady => 0#16
  | .rxReadReg idx => idx
  | .rxReadWin idx => idx
  | .rxReadEdge idx => idx
  | .rxReadResBit idx => idx
  | .rxReadResByte idx => idx
  | .txClear => 0#16
  | .txAppendByte b => b.setWidth 16
  | .txAppendBit v => (BitVec.ofBool v).setWidth 16
  | .txStart _ => 0#16
  | .txTick _ => 0#16
  | .txActFail => 0#16
  | .txReadReg idx => idx
  | .txReadBuf idx => idx
  | .txReadEvent k _ => k
  | .codecEncByte b => b.setWidth 16
  | .codecDecSym c => c.setWidth 16
  | .codecDecTen g => g.setWidth 16
  | .constRead idx => idx

/-- The field T of a command's word (R81): the timestamp where the command has one, else zero. -/
def Instr.fieldT : Instr → BitVec 32
  | .rxPush _ t => t
  | .rxReset => 0#32
  | .rxCalibrate => 0#32
  | .rxMarkReady => 0#32
  | .rxMarkNotReady => 0#32
  | .rxReadReg _ => 0#32
  | .rxReadWin _ => 0#32
  | .rxReadEdge _ => 0#32
  | .rxReadResBit _ => 0#32
  | .rxReadResByte _ => 0#32
  | .txClear => 0#32
  | .txAppendByte _ => 0#32
  | .txAppendBit _ => 0#32
  | .txStart t => t
  | .txTick t => t
  | .txActFail => 0#32
  | .txReadReg _ => 0#32
  | .txReadBuf _ => 0#32
  | .txReadEvent _ t => t
  | .codecEncByte _ => 0#32
  | .codecDecSym _ => 0#32
  | .codecDecTen _ => 0#32
  | .constRead _ => 0#32

/-- The word of a command: OP, RSV = 0, A, T (R80). -/
def encode (i : Instr) : Word :=
  i.op.code ++ 0#8 ++ i.fieldA ++ i.fieldT

/-- The eight bytes of a word in the order a byte-wide transport sends them: byte `i` is bits [8i+7 : 8i]
(20_memory.md R63). -/
def bytesOfWord (w : Word) : List Byte :=
  (List.range 8).map fun i => w.extractLsb' (8 * i) 8

/-- The word whose transport bytes these are; none unless there are exactly eight (R63, R86). -/
def wordOfBytes (bs : List Byte) : Option Word :=
  match bs with
  | [b0, b1, b2, b3, b4, b5, b6, b7] => some (b7 ++ b6 ++ b5 ++ b4 ++ b3 ++ b2 ++ b1 ++ b0)
  | _ => none

/-- Decoding the eight bytes of a command on a byte-wide transport; none unless there are exactly eight. -/
def decodeBytes (p : Port) (bs : List Byte) : Option (Except Status Instr) :=
  (wordOfBytes bs).map (decode p)

/-- The port a word numbered as the opcode table numbers it is given to: the one port that admits its opcode, the RX
port where both do or none does (log 11). -/
def tablePort (w : Word) : Port :=
  match Op.ofCode (fieldOp w) with
  | none => .rx
  | some op => if op.admits .rx then .rx else .tx

/-- The 64-bit word whose low `nbits` bits are those of `w`, the bits above zero. -/
def tableWord (nbits w : Nat) : Word :=
  BitVec.ofNat 64 (w % 2 ^ nbits)

/-- The command the decoder reads from a word of the opcode table, none where it refuses the word. -/
def decodeTableWord (nbits w : Nat) : Option Instr :=
  match decode (tablePort (tableWord nbits w)) (tableWord nbits w) with
  | .ok i => some i
  | .error _ => none

end Sys2Proof
end

