-- ==== Sys2Proof/Machine/Ops.lean ====
section
/-! DEFINITION. The shared operations: answering a command (30_encoding.md R90), ending it with an error status
(60_exceptions.md R341), the port's admission (R82), the reset input (70_reset_and_hazards.md R370) and taking the next
input. The block has no traps and no return from one (60_exceptions.md R347, R348); `raise` is its only exceptional
outcome. -/

namespace Sys2Proof.Machine

/-- What a meaning answers. -/
abbrev Result := Host.Outcome State Fault Refusal

/-- The status codes (60_exceptions.md R340). -/
def statusCode : Status → BitVec 8
  | .ok => 0x00#8
  | .illegalOpcode => 0x01#8
  | .reservedField => 0x02#8
  | .badIndex => 0x03#8
  | .txBusy => 0x04#8
  | .txFull => 0x05#8

/-- The response word: STATUS, zero, DATA (30_encoding.md R90). -/
def response (st : Status) (d : Data) : Word :=
  statusCode st ++ 0#8 ++ d

/-- Gives the reply of the command being performed on its port (30_encoding.md R82: exactly one response word, on the
port the command came from). -/
def reply (r : Reply) (s : State) : State :=
  match s.port with
  | .rx => { s with rxReplies := s.rxReplies ++ [r] }
  | .tx => { s with txReplies := s.txReplies ++ [r] }

/-- `respond(d)`: ends the command with status OK and data `d` (00_scope.md R12), with the actuator events `evs` it has
emitted (42_transmit.md R150). -/
def respondWith (d : Data) (evs : List ActEvent) (s : State) : Result :=
  .next (reply ⟨response .ok d, evs⟩ s)

/-- `respond(d)` of a command that emits no actuator event. -/
def respond (d : Data) (s : State) : Result :=
  respondWith d [] s

/-- `raise st`: ends the command with the status, DATA = 0, no state change and no actuator event (60_exceptions.md
R341). -/
def raise (st : Status) (s : State) : Result :=
  .next (reply ⟨response st 0#48, []⟩ s)

/-- An opcode sent on a port that does not admit it is illegal on that port (30_encoding.md R82, R85; log 5). -/
def onPort (op : Op) (s : State) (k : Result) : Result :=
  if op.admits s.port then k else raise .illegalOpcode s

/-- `TX_BUSY` refuses the command while a transmission is active (42_transmit.md R147). -/
def whileIdle (s : State) (k : Result) : Result :=
  if s.tx.busy then raise .txBusy s else k

/-- Answers the data a reader found, or BAD_INDEX where its index names nothing (46_readout.md R300). -/
def respondIndexed (d : Option Data) (s : State) : Result :=
  match d with
  | some d => respond d s
  | none => raise .badIndex s

/-- Hardware reset: every element of both units takes its reset value, with no response and no actuator event
(70_reset_and_hazards.md R370); what has arrived and what was answered stays (log 6). -/
def hardReset (s : State) : State :=
  { s with rx := RxSession.reset, tx := TxUnit.reset }

/-- The command at the head of the inputs is taken up on its port (20_memory.md R67). -/
def takeCommand (p : Port) (rest : List Input) (s : State) : State :=
  { s with port := p, pending := rest }

/-- The reset input at the head of the inputs is taken. -/
def takeReset (rest : List Input) (s : State) : State :=
  { s with pending := rest }

/-- Puts a command word, numbered as the opcode table numbers it, where the next step takes its input from (log 2):
at the head of the inputs, on the port `tablePort` names (log 11). -/
def placeCommand (w : Word) (s : State) : State :=
  { s with pending := .command (tablePort w) w :: s.pending }

end Sys2Proof.Machine
end

