-- ==== Sys2Proof/Machine/Codec.lean ====
section
/-! DEFINITION. The 4B5B line codec and the three codec commands (41_codec.md). -/

namespace Sys2Proof.Machine

/-- The symbol table `code(n)` (R110), MSB first. -/
def symbolCode (n : BitVec 4) : Symbol :=
  match n.toNat with
  | 0x0 => 0b11110#5
  | 0x1 => 0b01001#5
  | 0x2 => 0b10100#5
  | 0x3 => 0b10101#5
  | 0x4 => 0b01010#5
  | 0x5 => 0b01011#5
  | 0x6 => 0b01110#5
  | 0x7 => 0b01111#5
  | 0x8 => 0b10010#5
  | 0x9 => 0b10011#5
  | 0xA => 0b10110#5
  | 0xB => 0b10111#5
  | 0xC => 0b11010#5
  | 0xD => 0b11011#5
  | 0xE => 0b11100#5
  | _ => 0b11101#5

/-- `encodeByte(b) = {code(b[7:4]), code(b[3:0])}` (R111). -/
def encodeByte (b : Byte) : Group :=
  symbolCode (b.extractLsb' 4 4) ++ symbolCode (b.extractLsb' 0 4)

/-- `decodeSymbol(c)`: the nibble of a code of R110, none (Invalid) for the 16 other patterns (R112). -/
def decodeSymbol (c : Symbol) : Option (BitVec 4) :=
  match c.toNat with
  | 0b11110 => some 0x0#4
  | 0b01001 => some 0x1#4
  | 0b10100 => some 0x2#4
  | 0b10101 => some 0x3#4
  | 0b01010 => some 0x4#4
  | 0b01011 => some 0x5#4
  | 0b01110 => some 0x6#4
  | 0b01111 => some 0x7#4
  | 0b10010 => some 0x8#4
  | 0b10011 => some 0x9#4
  | 0b10110 => some 0xA#4
  | 0b10111 => some 0xB#4
  | 0b11010 => some 0xC#4
  | 0b11011 => some 0xD#4
  | 0b11100 => some 0xE#4
  | 0b11101 => some 0xF#4
  | _ => none

/-- The decode of the high symbol `g[9:5]` (R113). -/
def highNibble (g : Group) : Option (BitVec 4) :=
  decodeSymbol (g.extractLsb' 5 5)

/-- The decode of the low symbol `g[4:0]` (R113). -/
def lowNibble (g : Group) : Option (BitVec 4) :=
  decodeSymbol (g.extractLsb' 0 5)

/-- `decodeTenBits(g)`: the byte `{hi, lo}` if both symbols decode, none (Invalid) otherwise (R113). -/
def decodeTenBits (g : Group) : Option Byte :=
  match highNibble g, lowNibble g with
  | some hi, some lo => some (hi ++ lo)
  | _, _ => none

/-- HI_INVALID (R113). -/
def hiInvalid (g : Group) : Bool :=
  (highNibble g).isNone

/-- LO_INVALID (R113). -/
def loInvalid (g : Group) : Bool :=
  (lowNibble g).isNone

/-- The data of `CODEC_DEC_TEN` (R122): [7:0] byte, [8] INVALID, [9] HI_INVALID, [10] LO_INVALID. -/
def tenData (g : Group) : BitVec 11 :=
  match decodeTenBits g with
  | some b => 0#3 ++ b
  | none => BitVec.ofBool (loInvalid g) ++ BitVec.ofBool (hiInvalid g) ++ BitVec.ofBool true ++ 0x00#8

/-- The data of `CODEC_DEC_SYM` (R121): [3:0] nibble, [4] INVALID. -/
def symData (c : Symbol) : Data :=
  match decodeSymbol c with
  | some n => n.setWidth 48
  | none => 0x10#48

/-- `CODEC_ENC_BYTE b` (R120). -/
def execCodecEncByte (b : Byte) (s : State) : Result :=
  onPort .codecEncByte s (respond ((encodeByte b).setWidth 48) s)

/-- `CODEC_DEC_SYM c` (R121). -/
def execCodecDecSym (c : Symbol) (s : State) : Result :=
  onPort .codecDecSym s (respond (symData c) s)

/-- `CODEC_DEC_TEN g` (R122). -/
def execCodecDecTen (g : Group) (s : State) : Result :=
  onPort .codecDecTen s (respond ((tenData g).setWidth 48) s)

end Sys2Proof.Machine
end

