-- ==== Sys2Proof/Machine/Flags.lean ====
section
/-! DEFINITION. The one-bit status values and the codes the rules compute: confidence (43_threshold.md R197), the
classified level (44_receive.md R223), the state and outcome codes (10_state.md R20, R42), and the flag fields of
responses. The block has no flags register and no condition codes (10_state.md R51). -/

namespace Sys2Proof.Machine

/-- The code of STATE (10_state.md R20). -/
def phaseCode : RxPhase → BitVec 2
  | .idle => 0#2
  | .waitForLow => 1#2
  | .receiving => 2#2
  | .done => 3#2

/-- The code of TX_OUTCOME (10_state.md R42). -/
def outcomeCode : TxOutcome → BitVec 2
  | .none => 0#2
  | .ok => 1#2
  | .failed => 2#2

/-- The code of RES_CAUSE (10_state.md R34). -/
def causeBit : Cause → Bool
  | .stop => false
  | .timeout => true

/-- `CONF = (SWING ≥ SWING_FLOOR) or (CAL = 1)` (43_threshold.md R197). -/
def confident (r : RxSession) : Bool :=
  decide (Config.swingFloor ≤ r.swing.toNat) || r.cal

/-- `lvl = 1` if and only if `2·b > THR2` (44_receive.md R223). -/
def classify (b : Byte) (r : RxSession) : Bool :=
  decide (r.thr2.toNat < 2 * b.toNat)

/-- `{READY, lvl, STATE, produced}` of the push response (44_receive.md R220, R236). -/
def pushFlags (r : RxSession) (lvl produced : Bool) : Data :=
  (BitVec.ofBool r.ready ++ BitVec.ofBool lvl ++ phaseCode r.phase ++ BitVec.ofBool produced).setWidth 48

/-- `{TX_OUTCOME, TX_BUSY, TX_ACT, n[15:0]}` of the tick response (42_transmit.md R164). -/
def tickFlags (t : TxUnit) (n : Nat) : Data :=
  (outcomeCode t.outcome ++ BitVec.ofBool t.busy ++ BitVec.ofBool t.act ++ BitVec.ofNat 16 n).setWidth 48

/-- `RES_KIND`: 1 (DECODED) with at least GROUP_BITS bits, 0 (RAW) otherwise (45_decode.md R275, R279). -/
def resultDecoded (q : ResultRecord) : Bool :=
  decide (Config.groupBits ≤ q.bits.length)

/-- `RES_INFO`: `{RES_EDGE_OVF, RES_BIT_OVF, RES_CAUSE, RES_KIND, 1}` while valid, else 0 (46_readout.md R302). -/
def resultInfo (q : ResultRecord) : Data :=
  if q.valid then
    (BitVec.ofBool q.edgeOvf ++ BitVec.ofBool q.bitOvf ++ BitVec.ofBool (causeBit q.cause) ++
      BitVec.ofBool (resultDecoded q) ++ BitVec.ofBool true).setWidth 48
  else 0#48

end Sys2Proof.Machine
end

