-- ==== Sys2Proof/Machine/Reconstruct.lean ====
section
/-! DEFINITION. The bit reconstructor, the symbol decoder and the derived result values (45_decode.md). -/

namespace Sys2Proof.Machine

/-- The recovered bits so far and whether some were dropped (R270, R274). -/
structure BitBuffer where
  bits : Bits
  ovf : Bool
  deriving DecidableEq, Repr

/-- One round of `put` (R274): a bit is appended, or dropped with the overflow flag at BIT_CAP. -/
def putOne (v : Bool) (a : BitBuffer) : BitBuffer :=
  if a.bits.length < Config.bitCap then { a with bits := a.bits ++ [v] } else { a with ovf := true }

/-- `put(k, v)` (R274), in one go: as many copies as there is room for, and overflow where that is fewer than `k`
(`put_eq_iterate` in Laws/Reconstruct.lean: this is `putOne` done `k` times). -/
def put (k : Nat) (v : Bool) (a : BitBuffer) : BitBuffer where
  bits := a.bits ++ List.replicate (min k (Config.bitCap - a.bits.length)) v
  ovf := a.ovf || decide (Config.bitCap - a.bits.length < k)

/-- `roundBits(run) = max(1, (2·run + BIT_PERIOD) div (2·BIT_PERIOD))` (R272). -/
def roundBits (run : Int) : Nat :=
  max 1 ((2 * run + Config.bitPeriod) / (2 * Config.bitPeriod)).toNat

/-- A run of `run` ms at level `v` is expanded, unless it is shorter than MIN_RUN (R271, R273). -/
def putRun (run : Int) (v : Bool) (a : BitBuffer) : BitBuffer :=
  if Config.minRun ≤ run then put (roundBits run) v a else a

/-- The runs of an edge list up to the stop time, expanded in order: each edge to the next (R271), then the last edge to
`stop` (R273). Differences are mathematical integers (R270). An empty list has no run (log 9). -/
def expandRuns (stop : Time) : List Edge → BitBuffer → BitBuffer
  | [], a => a
  | [e], a => putRun (stop.toInt - e.t.toInt) e.lvl a
  | e :: f :: rest, a => expandRuns stop (f :: rest) (putRun (f.t.toInt - e.t.toInt) e.lvl a)

/-- `decode(stop, cause)`: the recovered bits become the result record, nothing else is written (R270, R278). -/
def decodeSession (stop : Time) (cause : Cause) (r : RxSession) : RxSession :=
  let a := expandRuns stop r.edges ⟨[], false⟩
  { r with res := ⟨true, cause, a.ovf, r.edgeOvf, stop, a.bits⟩ }

/-- `RES_NGROUPS = RES_NBITS div 10` (R281). -/
def groupCount (q : ResultRecord) : Nat :=
  q.bits.length / Config.groupBits

/-- `RES_NLEFT = RES_NBITS mod 10` (R281). -/
def leftCount (q : ResultRecord) : Nat :=
  q.bits.length % Config.groupBits

/-- Group `j` of the recovered bits, `G_j` (R276, 20_memory.md R62). -/
def resultGroup (q : ResultRecord) (j : Nat) : Group :=
  groupOfBits ((q.bits.drop (Config.groupBits * j)).take Config.groupBits)

/-- `RES_NINVALID`: the number of groups that decode to Invalid (R283). -/
def invalidCount (q : ResultRecord) : Nat :=
  (List.range (groupCount q)).countP fun j => (decodeTenBits (resultGroup q j)).isNone

end Sys2Proof.Machine
end

