-- ==== Sys2Proof/Machine/Threshold.lean ====
section
/-! DEFINITION. The adaptive threshold estimator and `RX_CALIBRATE` (43_threshold.md). -/

namespace Sys2Proof.Machine

/-- The window after a sample: append, then drop the oldest beyond WINDOW_CAP (R190). -/
def windowPush (b : Byte) (win : List Byte) : List Byte :=
  if Config.windowCap < (win ++ [b]).length then (win ++ [b]).drop 1 else win ++ [b]

/-- The effective threshold doubled, selected with the swing just computed (R194). -/
def selectThr2 (cal : Bool) (baseline p10 p90 swing : Byte) : BitVec 10 :=
  if cal then BitVec.ofNat 10 (2 * (baseline.toNat + Config.calOffset))
  else if Config.swingFloor ≤ swing.toNat then BitVec.ofNat 10 (p10.toNat + p90.toNat)
  else BitVec.ofNat 10 (2 * Config.defaultThreshold)

/-- The 10th percentile of a window (R192). -/
def percentile10 (win : List Byte) : Byte :=
  sampleAt (sortSamples win) (win.length / 10)

/-- The 90th percentile of a window (R192). -/
def percentile90 (win : List Byte) : Byte :=
  sampleAt (sortSamples win) (9 * win.length / 10)

/-- The recomputation of P10, P90, SWING and THR2 from the window (R192 to R194). -/
def recompute (r : RxSession) : RxSession :=
  let p10 := percentile10 r.win
  let p90 := percentile90 r.win
  let swing := p90 - p10
  { r with p10 := p10, p90 := p90, swing := swing, thr2 := selectThr2 r.cal r.baseline p10 p90 swing }

/-- `TE_push(b)`: the window update, and the recomputation once the window holds WIN_MIN samples (R190, R191). -/
def tePush (b : Byte) (r : RxSession) : RxSession :=
  let r' := { r with win := windowPush b r.win }
  if Config.winMin ≤ r'.win.length then recompute r' else r'

/-- `RX_CALIBRATE` (R198): the upper median of the window becomes the baseline, once it holds CAL_MIN samples. -/
def execRxCalibrate (s : State) : Result :=
  onPort .rxCalibrate s
    (if s.rx.win.length < Config.calMin then respond 0#48 s
    else
      respond 1#48
        { s with rx := { s.rx with
            baseline := sampleAt (sortSamples s.rx.win) (s.rx.win.length / 2), cal := true } })

end Sys2Proof.Machine
end

