-- ==== Sys2Proof/Machine/Receive.lean ====
section
/-! DEFINITION. The edge detector and run tracker, the framing state machine, `RX_PUSH` and the RX control commands
(44_receive.md). -/

namespace Sys2Proof.Machine

/-- `count(now)` (R222): the saturating push counter and the first and latest timestamps. -/
def countSample (now : Time) (r : RxSession) : RxSession :=
  { r with
    firstTs := if r.sampleCnt = 0#32 then now else r.firstTs
    sampleCnt := BitVec.ofNat 32 (min (r.sampleCnt.toNat + 1) (2 ^ 32 - 1))
    lastTs := now }

/-- `accept(lvl, now)` (R227): in RECEIVING the edge is recorded, or dropped with EDGE_OVF at EDGE_CAP; in every state
the run restarts. -/
def acceptTransition (lvl : Bool) (now : Time) (r : RxSession) : RxSession :=
  if r.phase = .receiving then
    if r.edges.length < Config.edgeCap then
      { r with edges := r.edges ++ [⟨sdiffPattern now r.origin, lvl⟩], runLvl := lvl, runStart := now }
    else { r with edgeOvf := true, runLvl := lvl, runStart := now }
  else { r with runLvl := lvl, runStart := now }

/-- `track_run(lvl, now)` (R225 to R228): opens the first run, then accepts a transition whose run lasted MIN_RUN and
discards a shorter one. -/
def trackRun (lvl : Bool) (now : Time) (r : RxSession) : RxSession :=
  if r.runOpen = false then { r with runOpen := true, runLvl := lvl, runStart := now }
  else if lvl = r.runLvl then r
  else if Config.minRun ≤ sdiff now r.runStart then acceptTransition lvl now r
  else r

/-- IDLE (R231). -/
def stepIdle (lvl : Bool) (rd : Int) (r : RxSession) : RxSession :=
  if lvl = true ∧ Config.startTrigger ≤ rd ∧ confident r = true then { r with phase := .waitForLow } else r

/-- WAIT_FOR_LOW (R232). -/
def stepWaitForLow (lvl : Bool) (now : Time) (r : RxSession) : RxSession :=
  if lvl = false then
    { r with phase := .receiving, origin := now, edges := [⟨0#32, false⟩], edgeOvf := false }
  else r

/-- RECEIVING (R233, else R234), and whether this push produced a result. -/
def stepReceiving (lvl : Bool) (now : Time) (rd : Int) (r : RxSession) : RxSession × Bool :=
  if lvl = false ∧ Config.stopTrigger ≤ rd then
    (decodeSession (sdiffPattern (add32 r.runStart Config.bitPeriod) r.origin) .stop { r with phase := .done }, true)
  else if Config.timeout ≤ sdiff now r.origin then
    (decodeSession (sdiffPattern now r.origin) .timeout { r with phase := .done }, true)
  else (r, false)

/-- `step_state(lvl, now, rd)` (R230 to R235): at most one transition, chosen by the state before it. -/
def stepState (lvl : Bool) (now : Time) (rd : Int) (r : RxSession) : RxSession × Bool :=
  match r.phase with
  | .idle => (stepIdle lvl rd r, false)
  | .waitForLow => (stepWaitForLow lvl now r, false)
  | .receiving => stepReceiving lvl now rd r
  | .done => (r, false)

/-- Steps 4 to 7 of a push (R224): the run tracker, the run duration (R229) and the state machine, only while ready. -/
def gatedSteps (lvl : Bool) (now : Time) (r : RxSession) : RxSession × Bool :=
  if r.ready then
    stepState lvl now (sdiff now (trackRun lvl now r).runStart) (trackRun lvl now r)
  else (r, false)

/-- The session after steps 1 and 2 of a push (R221, R222). -/
def feedSession (b : Byte) (now : Time) (r : RxSession) : RxSession :=
  countSample now (tePush b r)

/-- The session after a push and whether the push produced a result (R220). -/
def pushSession (b : Byte) (now : Time) (r : RxSession) : RxSession × Bool :=
  gatedSteps (classify b (feedSession b now r)) now (feedSession b now r)

/-- `RX_PUSH b, now` (R220, R236). -/
def execRxPush (b : Byte) (now : Time) (s : State) : Result :=
  onPort .rxPush s
    (respond
      (pushFlags (pushSession b now s.rx).1 (classify b (feedSession b now s.rx)) (pushSession b now s.rx).2)
      { s with rx := (pushSession b now s.rx).1 })

/-- `RX_RESET` (R240): the whole session is replaced. -/
def execRxReset (s : State) : Result :=
  onPort .rxReset s (respond 0#48 { s with rx := RxSession.reset })

/-- `RX_MARK_READY` (R241). -/
def execRxMarkReady (s : State) : Result :=
  onPort .rxMarkReady s (respond 0#48 { s with rx := { s.rx with ready := true } })

/-- `RX_MARK_NOT_READY` (R242). -/
def execRxMarkNotReady (s : State) : Result :=
  onPort .rxMarkNotReady s (respond 0#48 { s with rx := { s.rx with ready := false } })

end Sys2Proof.Machine
end

