-- ==== Sys2Proof/Machine/Transmit.lean ====
section
/-! DEFINITION. The transmit scheduler and the six transmit commands (42_transmit.md). -/

namespace Sys2Proof.Machine

/-- An entry of the schedule (R143): its target time and its level, no level for the completion entry. -/
structure ScheduleEntry where
  target : Time
  level : Option Bool
  deriving DecidableEq, Repr

/-- `event(k)` of a transmission of `buf` with origin `t0` (R143); none beyond entry `N + 3` (log 7). -/
def scheduleEntry (buf : Bits) (t0 : Time) (k : Nat) : Option ScheduleEntry :=
  let n := buf.length
  if k = 0 then some ⟨t0, some true⟩
  else if k = 1 then some ⟨add32 t0 Config.startDuration, some false⟩
  else if k < n + 2 then
    some ⟨add32 t0 (Config.startDuration + Config.bitPeriod * (k - 2)), some (buf.getD (k - 2) false)⟩
  else if k = n + 2 then some ⟨add32 t0 (Config.startDuration + Config.bitPeriod * n), some false⟩
  else if k = n + 3 then
    some ⟨add32 t0 (Config.startDuration + Config.bitPeriod * n + Config.stopDuration), none⟩
  else none

/-- An entry is due at `now` when its target is at or before it (R164). -/
def entryDue (now : Time) (e : ScheduleEntry) : Bool :=
  decide (0 ≤ sdiff now e.target)

/-- The loop of `TX_TICK` (R164), at most `fuel` rounds: performs the due entries in list order, then the completion.
`evs` are the actuator events emitted so far. -/
def tickLoop (now : Time) : Nat → TxUnit → List ActEvent → TxUnit × List ActEvent
  | 0, t, evs => (t, evs)
  | fuel + 1, t, evs =>
    if t.busy then
      match scheduleEntry t.buf t.t0 t.k.toNat with
      | none => (t, evs)
      | some e =>
        if entryDue now e then
          match e.level with
          | none => ({ t with busy := false, outcome := .ok }, evs)
          | some l =>
            tickLoop now fuel { t with act := l, k := t.k + 1#13 }
              (evs ++ [⟨l, .event t.k.toNat e.target⟩])
        else (t, evs)
    else (t, evs)

/-- The rounds a tick can need: the schedule has `N + 4` entries (R143). -/
def tickFuel (t : TxUnit) : Nat :=
  t.buf.length + 4

/-- The TX state after a tick and the events it emitted (R164). -/
def tick (now : Time) (t : TxUnit) : TxUnit × List ActEvent :=
  tickLoop now (tickFuel t) t []

/-- Appends bits to TXBUF, or refuses with TX_FULL when the buffer would be longer than TX_CAP (R161, R162). -/
def appendBits (bs : Bits) (s : State) : Result :=
  if Config.txCap < s.tx.buf.length + bs.length then raise .txFull s
  else
    respond (BitVec.ofNat 48 (s.tx.buf.length + bs.length))
      { s with tx := { s.tx with buf := s.tx.buf ++ bs } }

/-- `TX_CLEAR` (R160). -/
def execTxClear (s : State) : Result :=
  onPort .txClear s (whileIdle s (respond 0#48 { s with tx := { s.tx with buf := [] } }))

/-- `TX_APPEND_BYTE b` (R161). -/
def execTxAppendByte (b : Byte) (s : State) : Result :=
  onPort .txAppendByte s (whileIdle s (appendBits (bitsOfGroup (encodeByte b)) s))

/-- `TX_APPEND_BIT v` (R162). -/
def execTxAppendBit (v : Bool) (s : State) : Result :=
  onPort .txAppendBit s (whileIdle s (appendBits [v] s))

/-- `TX_START t` (R163). -/
def execTxStart (t : Time) (s : State) : Result :=
  onPort .txStart s (whileIdle s
    (respond 0#48 { s with tx := { s.tx with t0 := t, k := 0#13, outcome := .none, busy := true } }))

/-- `TX_TICK now` (R164). -/
def execTxTick (now : Time) (s : State) : Result :=
  onPort .txTick s
    (respondWith (tickFlags (tick now s.tx).1 (tick now s.tx).2.length) (tick now s.tx).2
      { s with tx := (tick now s.tx).1 })

/-- `TX_ACT_FAIL` (R165): without effect while idle, else the actuator is forced OFF and the transmission fails. -/
def execTxActFail (s : State) : Result :=
  onPort .txActFail s
    (if s.tx.busy then
      respondWith 1#48 [⟨false, .forcedOff⟩]
        { s with tx := { s.tx with act := false, busy := false, outcome := .failed } }
    else respond 0#48 s)

end Sys2Proof.Machine
end

