-- ==== Sys2Proof/Machine/Readout.lean ====
section
/-! DEFINITION. The read commands and the constant register file (46_readout.md, 10_state.md R47). -/

namespace Sys2Proof.Machine

/-- `RATE_MHZ`, the mean sample rate since reset in millihertz (R303). -/
def rateMilliHz (r : RxSession) : Nat :=
  if 2 ≤ r.sampleCnt.toNat ∧ 0 < sdiff r.lastTs r.firstTs then
    min ((r.sampleCnt.toNat - 1) * 1000000 / (sdiff r.lastTs r.firstTs).toNat) (2 ^ 32 - 1)
  else 0

/-- The views of the RX session (R301); the result registers 0x21 to 0x25 read 0 while there is no result. -/
def rxRegister (r : RxSession) (idx : BitVec 16) : Option Data :=
  match idx.toNat with
  | 0x00 => some ((phaseCode r.phase).setWidth 48)
  | 0x01 => some (bitData r.ready)
  | 0x02 => some (r.thr2.setWidth 48)
  | 0x03 => some (r.swing.setWidth 48)
  | 0x04 => some (r.p10.setWidth 48)
  | 0x05 => some (r.p90.setWidth 48)
  | 0x06 => some (bitData r.cal)
  | 0x07 => some (r.baseline.setWidth 48)
  | 0x08 => some (countData 8 r.win.length)
  | 0x09 => some ((BitVec.ofBool r.runLvl ++ BitVec.ofBool r.runOpen).setWidth 48)
  | 0x0A => some (r.runStart.setWidth 48)
  | 0x0B => some (r.origin.setWidth 48)
  | 0x0C => some (countData 11 r.edges.length)
  | 0x0D => some (bitData r.edgeOvf)
  | 0x0E => some (r.sampleCnt.setWidth 48)
  | 0x0F => some (r.firstTs.setWidth 48)
  | 0x10 => some (r.lastTs.setWidth 48)
  | 0x11 => some (countData 32 (rateMilliHz r))
  | 0x20 => some (resultInfo r.res)
  | 0x21 => some (if r.res.valid then countData 13 r.res.bits.length else 0#48)
  | 0x22 => some (if r.res.valid then countData 9 (groupCount r.res) else 0#48)
  | 0x23 => some (if r.res.valid then countData 4 (leftCount r.res) else 0#48)
  | 0x24 => some (if r.res.valid then r.res.stop.setWidth 48 else 0#48)
  | 0x25 => some (if r.res.valid then countData 9 (invalidCount r.res) else 0#48)
  | _ => none

/-- One entry of the edge list: `{lvl, t[31:0]}` (R305). -/
def edgeData (e : Edge) : Data :=
  (BitVec.ofBool e.lvl ++ e.t).setWidth 48

/-- One bit of the recovered vector; nothing is there without a result (R306). -/
def resultBit (q : ResultRecord) (idx : BitVec 16) : Option Data :=
  if q.valid then q.bits[idx.toNat]?.map bitData else none

/-- The decode of one group: `{G, 0b00000, d[10:0]}`; nothing is there without a result or past the last group (R307). -/
def resultByte (q : ResultRecord) (idx : BitVec 16) : Option Data :=
  if q.valid = true ∧ idx.toNat < groupCount q then
    some ((resultGroup q idx.toNat ++ 0b00000#5 ++ tenData (resultGroup q idx.toNat)).setWidth 48)
  else none

/-- `TX_NEXT_TARGET`: the target of `event(TX_K)`, 0 beyond the schedule (R310). -/
def nextTarget (t : TxUnit) : Time :=
  match scheduleEntry t.buf t.t0 t.k.toNat with
  | some e => e.target
  | none => 0#32

/-- The views of the TX state (R310). -/
def txRegister (t : TxUnit) (idx : BitVec 16) : Option Data :=
  match idx.toNat with
  | 0x00 => some ((outcomeCode t.outcome ++ BitVec.ofBool t.busy).setWidth 48)
  | 0x01 => some (countData 13 t.buf.length)
  | 0x02 => some (t.t0.setWidth 48)
  | 0x03 => some (t.k.setWidth 48)
  | 0x04 => some (bitData t.act)
  | 0x05 => some ((nextTarget t).setWidth 48)
  | _ => none

/-- A schedule entry as data: `{END, level, target}`, level 0 for the completion entry (R312). -/
def entryData (e : ScheduleEntry) : Data :=
  (BitVec.ofBool e.level.isNone ++ BitVec.ofBool (e.level.getD false) ++ e.target).setWidth 48

/-- The constant register file, hardwired (10_state.md R47); nothing beyond index 15. -/
def constRegister (idx : BitVec 16) : Option Data :=
  match idx.toNat with
  | 0 => some (countData 32 Config.bitPeriod)
  | 1 => some (countData 32 Config.startDuration)
  | 2 => some (countData 32 Config.stopDuration)
  | 3 => some (countData 32 Config.startTrigger)
  | 4 => some (countData 32 Config.stopTrigger)
  | 5 => some (countData 32 Config.minRun)
  | 6 => some (countData 32 Config.calOffset)
  | 7 => some (countData 32 Config.swingFloor)
  | 8 => some (countData 32 Config.windowCap)
  | 9 => some (countData 32 Config.winMin)
  | 10 => some (countData 32 Config.calMin)
  | 11 => some (countData 32 Config.defaultThreshold)
  | 12 => some (countData 32 Config.timeout)
  | 13 => some (countData 32 Config.edgeCap)
  | 14 => some (countData 32 Config.bitCap)
  | 15 => some (countData 32 Config.txCap)
  | _ => none

/-- `RX_READ_REG idx` (R301). -/
def execRxReadReg (idx : BitVec 16) (s : State) : Result :=
  onPort .rxReadReg s (respondIndexed (rxRegister s.rx idx) s)

/-- `RX_READ_WIN idx` (R304). -/
def execRxReadWin (idx : BitVec 16) (s : State) : Result :=
  onPort .rxReadWin s (respondIndexed (s.rx.win[idx.toNat]?.map fun b => b.setWidth 48) s)

/-- `RX_READ_EDGE idx` (R305). -/
def execRxReadEdge (idx : BitVec 16) (s : State) : Result :=
  onPort .rxReadEdge s (respondIndexed (s.rx.edges[idx.toNat]?.map edgeData) s)

/-- `RX_READ_RES_BIT idx` (R306). -/
def execRxReadResBit (idx : BitVec 16) (s : State) : Result :=
  onPort .rxReadResBit s (respondIndexed (resultBit s.rx.res idx) s)

/-- `RX_READ_RES_BYTE idx` (R307). -/
def execRxReadResByte (idx : BitVec 16) (s : State) : Result :=
  onPort .rxReadResByte s (respondIndexed (resultByte s.rx.res idx) s)

/-- `TX_READ_REG idx` (R310). -/
def execTxReadReg (idx : BitVec 16) (s : State) : Result :=
  onPort .txReadReg s (respondIndexed (txRegister s.tx idx) s)

/-- `TX_READ_BUF idx` (R311). -/
def execTxReadBuf (idx : BitVec 16) (s : State) : Result :=
  onPort .txReadBuf s (respondIndexed (s.tx.buf[idx.toNat]?.map bitData) s)

/-- `TX_READ_EVENT k, t` (R312). -/
def execTxReadEvent (k : BitVec 16) (t : Time) (s : State) : Result :=
  onPort .txReadEvent s (respondIndexed ((scheduleEntry s.tx.buf t k.toNat).map entryData) s)

/-- `CONST_READ idx` (R320). -/
def execConstRead (idx : BitVec 16) (s : State) : Result :=
  onPort .constRead s (respondIndexed (constRegister idx) s)

end Sys2Proof.Machine
end

