-- ==== Sys2Proof/Machine/Dispatch.lean ====
section
/-! DEFINITION. The dispatch: one arm per command (30_encoding.md R83). -/

namespace Sys2Proof.Machine

def exec (i : Instr) (s : State) : Host.Outcome State Fault Refusal :=
  match i with
  | .rxPush b t => Sys2Proof.Machine.execRxPush b t s
  | .rxReset => Sys2Proof.Machine.execRxReset s
  | .rxCalibrate => Sys2Proof.Machine.execRxCalibrate s
  | .rxMarkReady => Sys2Proof.Machine.execRxMarkReady s
  | .rxMarkNotReady => Sys2Proof.Machine.execRxMarkNotReady s
  | .rxReadReg idx => Sys2Proof.Machine.execRxReadReg idx s
  | .rxReadWin idx => Sys2Proof.Machine.execRxReadWin idx s
  | .rxReadEdge idx => Sys2Proof.Machine.execRxReadEdge idx s
  | .rxReadResBit idx => Sys2Proof.Machine.execRxReadResBit idx s
  | .rxReadResByte idx => Sys2Proof.Machine.execRxReadResByte idx s
  | .txClear => Sys2Proof.Machine.execTxClear s
  | .txAppendByte b => Sys2Proof.Machine.execTxAppendByte b s
  | .txAppendBit v => Sys2Proof.Machine.execTxAppendBit v s
  | .txStart t => Sys2Proof.Machine.execTxStart t s
  | .txTick t => Sys2Proof.Machine.execTxTick t s
  | .txActFail => Sys2Proof.Machine.execTxActFail s
  | .txReadReg idx => Sys2Proof.Machine.execTxReadReg idx s
  | .txReadBuf idx => Sys2Proof.Machine.execTxReadBuf idx s
  | .txReadEvent k t => Sys2Proof.Machine.execTxReadEvent k t s
  | .codecEncByte b => Sys2Proof.Machine.execCodecEncByte b s
  | .codecDecSym c => Sys2Proof.Machine.execCodecDecSym c s
  | .codecDecTen g => Sys2Proof.Machine.execCodecDecTen g s
  | .constRead idx => Sys2Proof.Machine.execConstRead idx s

end Sys2Proof.Machine
end

