-- ==== Sys2Proof/Machine/Step.lean ====
section
/-! DEFINITION. One step: the block performs the oldest input (00_scope.md R6, 20_memory.md R67). -/

namespace Sys2Proof.Machine

/-- One step. With no input nothing happens and all state is kept (60_exceptions.md R355; log 1). The reset input resets
both units (70_reset_and_hazards.md R370). A command is decoded on its port (30_encoding.md R84) and performed, or ends
with the decoder's status. -/
def step (s : State) : Host.Outcome State Fault Refusal :=
  match s.pending with
  | [] => .next s
  | .hardReset :: rest => .next (hardReset (takeReset rest s))
  | .command p w :: rest =>
    match decode p w with
    | .error st => raise st (takeCommand p rest s)
    | .ok i => exec i (takeCommand p rest s)

/-- The state in which the next step performs the command with this word, numbered as the opcode table numbers it
(logs 2 and 11). -/
def State.withFetchWord (s : State) (nbits w : Nat) : State :=
  placeCommand (tableWord nbits w) s

end Sys2Proof.Machine
end

