-- ==== Sys2Proof/WellFormed.lean ====
section
/-! DEFINITION. What makes a command well-formed. A command's operands have the width of their field by type, so what is
left to check is the port it is sent on (30_encoding.md R82) and, for a line of assembly, the range of each written
operand (R95). -/

namespace Sys2Proof

/-- A command is well-formed on the ports that admit its opcode (30_encoding.md R82, R83). -/
def Instr.wellFormedOn (p : Port) (i : Instr) : Bool :=
  i.op.admits p

/-- A line of assembly before its operands are checked: the written port, if any, the mnemonic and the operands as
integers, in the order of R95. -/
structure AsmLine where
  port : Option Port
  op : Op
  operands : List Nat
  deriving DecidableEq, Repr

/-- For each operand of an opcode, in the order of R95, the first value out of its field's range. -/
def Op.operandBounds : Op → List Nat
  | .rxPush => [2 ^ 8, 2 ^ 32]
  | .rxReset => []
  | .rxCalibrate => []
  | .rxMarkReady => []
  | .rxMarkNotReady => []
  | .rxReadReg => [2 ^ 16]
  | .rxReadWin => [2 ^ 16]
  | .rxReadEdge => [2 ^ 16]
  | .rxReadResBit => [2 ^ 16]
  | .rxReadResByte => [2 ^ 16]
  | .txClear => []
  | .txAppendByte => [2 ^ 8]
  | .txAppendBit => [2]
  | .txStart => [2 ^ 32]
  | .txTick => [2 ^ 32]
  | .txActFail => []
  | .txReadReg => [2 ^ 16]
  | .txReadBuf => [2 ^ 16]
  | .txReadEvent => [2 ^ 16, 2 ^ 32]
  | .codecEncByte => [2 ^ 8]
  | .codecDecSym => [2 ^ 5]
  | .codecDecTen => [2 ^ 10]
  | .constRead => [2 ^ 16]

/-- Every operand is below its bound and none is missing or left over. -/
def operandsInRange : List Nat → List Nat → Bool
  | [], [] => true
  | v :: vs, b :: bs => decide (v < b) && operandsInRange vs bs
  | _, _ => false

/-- "An operand out of its field's range (for example `b > 255`) is an assembly error, not a command" (R95). -/
def AsmLine.wellFormed (l : AsmLine) : Bool :=
  operandsInRange l.operands l.op.operandBounds

end Sys2Proof
end

