-- ==== Sys2Proof/Machine/Pseudo.lean ====
section
/-! DEFINITION. Assembly lines and pseudo-commands (30_encoding.md R95, R96): the host's notation for inputs of the
block, and the light signal a transmitter shows (42_transmit.md R145). The step does not use them. -/

namespace Sys2Proof.Machine

/-- The fields A and T that the operands of a line fill, in the order of R95. -/
def operandFields : Op → List Nat → Nat × Nat
  | .txStart, [t] => (0, t)
  | .txTick, [t] => (0, t)
  | _, [a, t] => (a, t)
  | _, [a] => (a, 0)
  | _, _ => (0, 0)

/-- The command of a well-formed line; none for an assembly error (R95). -/
def assemble (l : AsmLine) : Option Instr :=
  if l.wellFormed then
    some (l.op.instr (l.op.code ++ 0#8 ++ BitVec.ofNat 16 (operandFields l.op l.operands).1 ++
      BitVec.ofNat 32 (operandFields l.op l.operands).2))
  else none

/-- The port of a line: the written one, else the port the opcode is fixed to, RX where both admit it (R95). -/
def linePort (l : AsmLine) : Port :=
  match l.port with
  | some p => p
  | none => if l.op.admits .rx then .rx else .tx

/-- The input a line stands for. -/
def lineInput (l : AsmLine) : Option Input :=
  (assemble l).map fun i => .command (linePort l) (encode i)

/-- The times `t1, t1+dt, …` while `t ≤ t2`, for `dt > 0` (R96); none for `dt = 0`. -/
def timesFrom (t1 t2 dt : Nat) : List Nat :=
  if dt = 0 ∨ t2 < t1 then [] else (List.range ((t2 - t1) / dt + 1)).map fun i => t1 + i * dt

/-- `TX_SEND_BYTES t0, b1, …, bn` (R96). -/
def txSendBytes (t0 : Nat) (bs : List Nat) : List AsmLine :=
  ⟨none, .txClear, []⟩ :: bs.map (fun b => ⟨none, .txAppendByte, [b]⟩) ++ [⟨none, .txStart, [t0]⟩]

/-- `TX_SEND_BITS t0, v1, …, vn` (R96). -/
def txSendBits (t0 : Nat) (vs : List Nat) : List AsmLine :=
  ⟨none, .txClear, []⟩ :: vs.map (fun v => ⟨none, .txAppendBit, [v]⟩) ++ [⟨none, .txStart, [t0]⟩]

/-- `TX_RUN t1, t2, dt` (R96). -/
def txRun (t1 t2 dt : Nat) : List AsmLine :=
  (timesFrom t1 t2 dt).map fun t => ⟨none, .txTick, [t]⟩

/-- `RX_PUSH_RUN b, t1, t2, dt` (R96). -/
def rxPushRun (b t1 t2 dt : Nat) : List AsmLine :=
  (timesFrom t1 t2 dt).map fun t => ⟨none, .rxPush, [b, t]⟩

/-- `NOP` is `CONST_READ 0` (R96). -/
def nop : AsmLine :=
  ⟨none, .constRead, [0]⟩

/-- The actuation entries of a schedule at or before `t`, in list order (R145). -/
def entriesShown (buf : Bits) (t0 t : Time) : List ScheduleEntry :=
  ((List.range (buf.length + 3)).filterMap (scheduleEntry buf t0)).filter fun e => entryDue t e

/-- The level on the light at `t`: that of the last actuation entry at or before it, OFF before the first
(30_encoding.md R96, 42_transmit.md R145). -/
def lightAt (buf : Bits) (t0 t : Time) : Bool :=
  match (entriesShown buf t0 t).getLast? with
  | some e => e.level.getD false
  | none => false

/-- `BYTES(t0: b1, …, bn)`: the bit vector of the bytes (42_transmit.md R140). -/
def messageBits (bs : List Byte) : Bits :=
  bs.flatMap fun b => bitsOfGroup (encodeByte b)

/-- `RX_PUSH_SIGNAL hi, lo, S, t1, t2, dt` (R96), the signal given by its bits and origin. -/
def rxPushSignal (hi lo : Nat) (buf : Bits) (t0 : Time) (t1 t2 dt : Nat) : List AsmLine :=
  (timesFrom t1 t2 dt).map fun t =>
    ⟨none, .rxPush, [if lightAt buf t0 (BitVec.ofNat 32 t) then hi else lo, t]⟩

end Sys2Proof.Machine
end

