-- ==== Sys2Proof/Safety.lean ====
section
/-! DEFINITION. The words the claims use: the invariants of the two units (10_state.md R36, R48), the host's timestamp
duty (70_reset_and_hazards.md R380), and spec-side readings of the schedule, the recovered bits and the replies. -/

namespace Sys2Proof.Machine

/-- The invariants of the RX session of 10_state.md R36 (a) to (d), with the capacities of R32 and R34. -/
structure RxInv (r : RxSession) : Prop where
  win_le : r.win.length ≤ Config.windowCap
  thr2_le : r.thr2.toNat ≤ 570
  p10_le_p90 : r.p10.toNat ≤ r.p90.toNat
  swing_eq : r.swing = r.p90 - r.p10
  before_frame : r.phase = .idle ∨ r.phase = .waitForLow →
    r.edges = [] ∧ r.edgeOvf = false ∧ r.res.valid = false
  in_frame : r.phase = .receiving ∨ r.phase = .done →
    r.edges.head? = some ⟨0#32, false⟩ ∧ r.runOpen = true
  valid_iff_done : r.res.valid = true ↔ r.phase = .done
  edges_le : r.edges.length ≤ Config.edgeCap
  bits_le : r.res.bits.length ≤ Config.bitCap

/-- The invariants of the TX state of 10_state.md R48, with the capacity of R40 and, so that a step keeps them, what
R45 says of TX_ACT during a transmission: it is the level of the last entry performed, OFF before the first. -/
structure TxInv (t : TxUnit) : Prop where
  buf_le : t.buf.length ≤ Config.txCap
  k_le : t.busy = true → t.k.toNat ≤ t.buf.length + 3
  idle_off : t.busy = false → t.act = false
  busy_none : t.busy = true → t.outcome = .none
  act_first : t.busy = true → t.k.toNat = 0 → t.act = false
  act_last : t.busy = true → 0 < t.k.toNat →
    ∃ e, scheduleEntry t.buf t.t0 (t.k.toNat - 1) = some e ∧ e.level = some t.act

/-- Both units keep their invariants. -/
structure Inv (s : State) : Prop where
  rx : RxInv s.rx
  tx : TxInv s.tx

/-- The host's duty for the timestamp of the next push (70_reset_and_hazards.md R380): at least the one before it, and
less than `2^31` ms after the timestamps still in use. -/
def PushInOrder (now : Time) (r : RxSession) : Prop :=
  (r.runOpen = true → 0 ≤ sdiff now r.lastTs ∧ 0 ≤ sdiff now r.runStart) ∧
    (r.phase = .receiving → 0 ≤ sdiff now r.origin)

/-- Successive edges alternate and are at least MIN_RUN apart (10_state.md R36 (e)). -/
def EdgesInOrder (es : List Edge) : Prop :=
  es.IsChain fun e f => f.lvl = !e.lvl ∧ (Config.minRun : Int) ≤ f.t.toInt - e.t.toInt

/-- 10_state.md R36 (e), with what makes it inductive: the run is not younger than the last sample, and in WAIT_FOR_LOW
it is a HIGH run of at least START_TRIGGER. -/
structure EdgeInv (r : RxSession) : Prop where
  run_open : r.phase ≠ .idle → r.runOpen = true
  run_past : r.runOpen = true → 0 ≤ sdiff r.lastTs r.runStart
  armed : r.phase = .waitForLow →
    r.runLvl = true ∧ (Config.startTrigger : Int) ≤ sdiff r.lastTs r.runStart
  edges : r.phase = .receiving ∨ r.phase = .done → EdgesInOrder r.edges
  full : r.phase = .receiving → r.edgeOvf = true → Config.edgeCap ≤ r.edges.length
  last_edge : r.phase = .receiving → r.edgeOvf = false →
    r.edges.getLast? = some ⟨sdiffPattern r.runStart r.origin, r.runLvl⟩ ∧ 0 ≤ sdiff r.runStart r.origin

/-- The last reply on the port whose command was performed. -/
def lastReply (s : State) : Option Reply :=
  match s.port with
  | .rx => s.rxReplies.getLast?
  | .tx => s.txReplies.getLast?

/-- The bits of one run (45_decode.md R271): none if it is shorter than MIN_RUN. -/
def runBits (run : Int) (v : Bool) : Bits :=
  if (Config.minRun : Int) ≤ run then List.replicate (roundBits run) v else []

/-- All the bits of an edge list up to the stop time, before the cap of 45_decode.md R274: each consecutive pair (R271),
then the trailing run of the last edge (R273). -/
def recoveredBits (stop : Time) (es : List Edge) : Bits :=
  ((es.zip es.tail).flatMap fun p => runBits (p.2.t.toInt - p.1.t.toInt) p.1.lvl) ++
    (es.getLast?.toList.flatMap fun e => runBits (stop.toInt - e.t.toInt) e.lvl)

/-- The RX register views of 46_readout.md R301 to R303 as integers, by index; the result registers read 0 while there is
no result. -/
def rxRegisterTable (r : RxSession) : List (Nat × Nat) :=
  [(0x00, (phaseCode r.phase).toNat), (0x01, r.ready.toNat), (0x02, r.thr2.toNat), (0x03, r.swing.toNat),
   (0x04, r.p10.toNat), (0x05, r.p90.toNat), (0x06, r.cal.toNat), (0x07, r.baseline.toNat),
   (0x08, r.win.length), (0x09, r.runOpen.toNat + 2 * r.runLvl.toNat), (0x0A, r.runStart.toNat),
   (0x0B, r.origin.toNat), (0x0C, r.edges.length), (0x0D, r.edgeOvf.toNat), (0x0E, r.sampleCnt.toNat),
   (0x0F, r.firstTs.toNat), (0x10, r.lastTs.toNat),
   (0x11, if 2 ≤ r.sampleCnt.toNat ∧ 0 < sdiff r.lastTs r.firstTs then
      min ((r.sampleCnt.toNat - 1) * 1000000 / (sdiff r.lastTs r.firstTs).toNat) 4294967295 else 0)] ++
  (if r.res.valid then
    [(0x20, 1 + 2 * (decide (10 ≤ r.res.bits.length)).toNat + 4 * (decide (r.res.cause = .timeout)).toNat +
        8 * r.res.bitOvf.toNat + 16 * r.res.edgeOvf.toNat),
     (0x21, r.res.bits.length), (0x22, r.res.bits.length / 10), (0x23, r.res.bits.length % 10),
     (0x24, r.res.stop.toNat),
     (0x25, ((List.range (r.res.bits.length / 10)).filter fun j =>
        (decodeTenBits (resultGroup r.res j)).isNone).length)]
  else [(0x20, 0), (0x21, 0), (0x22, 0), (0x23, 0), (0x24, 0), (0x25, 0)])

/-- The commands of a port, in order. -/
def onlyPort (p : Port) (is : List Input) : List Input :=
  is.filter fun i => match i with
    | .command q _ => decide (q = p)
    | .hardReset => false

/-- An input that is a command. -/
def Input.isCommand : Input → Bool
  | .command _ _ => true
  | .hardReset => false

end Sys2Proof.Machine
end

