-- ==== Sys2Proof/Certificates/Slice0/Obligations.lean ====
section
/-! DEFINITION. The statements for the provers, in the order of OBLIGATIONS.json. Each docstring names the rule of spec/
the statement formalises. -/

open Sys2Proof Sys2Proof.Machine

/-! ### Encoding and decoding -/

/-- R83, R84: decoding an encoded command on a port that admits it gives the command back. -/
def Obligations.DecodeOfEncode : Prop :=
  ∀ (p : Port) (i : Instr), i.wellFormedOn p = true → decode p (encode i) = .ok i

/-- R84: decoding is the function of port and word the rule writes out. A word whose opcode byte is unassigned or is not
admitted is illegal; with an admitted opcode a must-be-zero bit decides; what decodes is the command whose word it is;
and a word selects an opcode exactly when its masked bits are the opcode's pattern. -/
def Obligations.DecodeFollowsRule84 : Prop :=
  ∀ (p : Port) (w : Word),
    ((∀ op : Op, op.code = w.extractLsb' 56 8 → op.admits p = false) → decode p w = .error .illegalOpcode) ∧
    (∀ op : Op, op.code = w.extractLsb' 56 8 → op.admits p = true →
      (w &&& (op.mask &&& 0x00FFFFFFFFFFFFFF#64) ≠ 0#64 → decode p w = .error .reservedField) ∧
      (w &&& (op.mask &&& 0x00FFFFFFFFFFFFFF#64) = 0#64 →
        ∃ i, decode p w = .ok i ∧ i.op = op ∧ encode i = w)) ∧
    (∀ op : Op, op.admits p = true →
      (w &&& op.mask = op.pattern ↔ ∃ i, decode p w = .ok i ∧ i.op = op))

/-- R85: the opcode values that are legal on each port are exactly the listed ones, and every word decodes to a command
or to one of the two errors. -/
def Obligations.LegalOpcodesOfEachPort : Prop :=
  (∀ w : Word, decode .rx w = .error .illegalOpcode ↔
    (w.extractLsb' 56 8).toNat ∉
      [0x01, 0x02, 0x03, 0x04, 0x05, 0x08, 0x09, 0x0A, 0x0B, 0x0C, 0x40, 0x41, 0x42, 0x48]) ∧
  (∀ w : Word, decode .tx w = .error .illegalOpcode ↔
    (w.extractLsb' 56 8).toNat ∉
      [0x21, 0x22, 0x23, 0x24, 0x25, 0x26, 0x28, 0x29, 0x2A, 0x40, 0x41, 0x42, 0x48]) ∧
  (∀ (p : Port) (w : Word) (st : Status), decode p w = .error st → st = .illegalOpcode ∨ st = .reservedField)

/-- Words written out in the spec (R80, R120, R122, R164, R312, 95_test_vectors.md §2.7) decode to their commands. -/
def Obligations.SpecWordsDecode : Prop :=
  decode .rx 0x010000DC000003E8#64 = .ok (.rxPush 220#8 1000#32) ∧
  decode .rx 0x0A00000100000000#64 = .ok (.rxReadEdge 1#16) ∧
  decode .tx 0x2200004800000000#64 = .ok (.txAppendByte 0x48#8) ∧
  decode .tx 0x250000000000125C#64 = .ok (.txTick 4700#32) ∧
  decode .tx 0x2A00000D000003E8#64 = .ok (.txReadEvent 13#16 1000#32) ∧
  decode .rx 0x4000004800000000#64 = .ok (.codecEncByte 0x48#8) ∧
  decode .tx 0x4200015200000000#64 = .ok (.codecDecTen 0x152#10) ∧
  decode .tx 0x0100001400000000#64 = .error .illegalOpcode ∧
  decode .rx 0x0800001200000010#64 = .error .reservedField

/-- R63: byte `i` of a word on a byte-wide transport is bits [8i+7 : 8i], eight bytes a word, and the bytes give the
word back. -/
def Obligations.TransportIsLittleEndian : Prop :=
  ∀ w : Word,
    (bytesOfWord w).length = 8 ∧
    (∀ i, i < 8 → (bytesOfWord w)[i]? = some (w.extractLsb' (8 * i) 8)) ∧
    wordOfBytes (bytesOfWord w) = some w ∧
    (∀ bs : List Byte, wordOfBytes bs = some w → bs = bytesOfWord w)

/-! ### The step -/

/-- R67, R84: when the oldest input is a command that decodes on its port, the step is `exec` of it at the state in which
that input is taken and its port is the current one. That the inputs of both ports wait in one list is the model's
choice (log 2). -/
def Obligations.StepRunsDecodedCommand : Prop :=
  ∀ (s : State) (p : Port) (w : Word) (rest : List Input) (i : Instr),
    s.pending = .command p w :: rest → decode p w = .ok i →
      step s = exec i { s with port := p, pending := rest }

/-- R84, R341: a command that does not decode answers the decoder's status with DATA 0 on its port, and changes nothing
in either unit (the list of inputs is the model's choice, log 2). -/
def Obligations.StepAnswersDecodeErrors : Prop :=
  ∀ (s : State) (p : Port) (w : Word) (rest : List Input) (st : Status),
    s.pending = .command p w :: rest → decode p w = .error st →
      step s = .next (reply ⟨response st 0#48, []⟩ { s with port := p, pending := rest })

/-- R370, R49: the reset input sets every element of both units to its reset value, answers nothing and emits nothing.
That the reset input waits among the commands and keeps the replies given is the model's choice (log 6). -/
def Obligations.HardResetSetsEveryElement : Prop :=
  ∀ (s : State) (rest : List Input), s.pending = .hardReset :: rest →
    ∃ t, step s = .next t ∧ t.rxReplies = s.rxReplies ∧ t.txReplies = s.txReplies ∧
      t.rx = { phase := .idle, ready := false, win := [], thr2 := 256#10, swing := 0#8, p10 := 0#8, p90 := 0#8,
               cal := false, baseline := 0#8, runOpen := false, runLvl := false, runStart := 0#32,
               origin := 0#32, edges := [], edgeOvf := false, sampleCnt := 0#32, firstTs := 0#32,
               lastTs := 0#32,
               res := { valid := false, cause := .stop, bitOvf := false, edgeOvf := false, stop := 0#32,
                        bits := [] } } ∧
      t.tx = { buf := [], busy := false, outcome := .none, t0 := 0#32, k := 0#13, act := false } ∧
      t.rx = State.reset.rx ∧ t.tx = State.reset.tx

/-- R84, R341, R355: every step of every state gives a next state; no command of any word stops the machine. That a step
with no input keeps the state is the model's reading (log 1), and is stated too. -/
def Obligations.EveryStepCompletes : Prop :=
  ∀ s : State, (∃ t, step s = .next t) ∧ (s.pending = [] → step s = .next s)

/-! ### Rules over all commands -/

/-- R82, R85, R341, R342: a command on a port that does not admit its opcode answers ILLEGAL_OPCODE with DATA 0 and
changes nothing; so does the step on any word whose opcode byte is unassigned or not admitted on its port, whatever its
other bits. The rules say this of a word that arrives on a port: that `exec` alone answers so too (first clause) is the
model's (log 5), and so is the one list of inputs (second clause, log 2). -/
def Obligations.WrongPortIsIllegal : Prop :=
  (∀ (i : Instr) (s : State), i.wellFormedOn s.port = false →
    exec i s = .next (reply ⟨0x0100000000000000#64, []⟩ s)) ∧
  (∀ (s : State) (p : Port) (w : Word) (rest : List Input), s.pending = .command p w :: rest →
    (∀ op : Op, op.code = w.extractLsb' 56 8 → op.admits p = false) →
      step s = .next (reply ⟨0x0100000000000000#64, []⟩ { s with port := p, pending := rest }))

/-- R82, R90: a command gets exactly one response word, on its own port; its bits [55:48] are zero, its status is one of
the six codes, and its data is zero unless the status is OK. -/
def Obligations.OneResponseOnTheOwnPort : Prop :=
  ∀ (i : Instr) (s : State), ∃ t r, exec i s = .next t ∧
    t.port = s.port ∧ t.pending = s.pending ∧
    (s.port = .rx → t.rxReplies = s.rxReplies ++ [r] ∧ t.txReplies = s.txReplies) ∧
    (s.port = .tx → t.txReplies = s.txReplies ++ [r] ∧ t.rxReplies = s.rxReplies) ∧
    r.word.extractLsb' 48 8 = 0#8 ∧ (r.word.extractLsb' 56 8).toNat ≤ 5 ∧
    (r.word.extractLsb' 56 8 ≠ 0#8 → r.word.extractLsb' 0 48 = 0#48)

/-- R341: a command that ends with a status other than OK changes no state and emits no actuator event. -/
def Obligations.ErrorStatusChangesNothing : Prop :=
  ∀ (i : Instr) (s t : State) (r : Reply), exec i s = .next t → lastReply t = some r →
    r.word.extractLsb' 56 8 ≠ 0#8 →
      t = reply r s ∧ r.events = [] ∧ r.word.extractLsb' 0 48 = 0#48

/-- R66, R300: the read commands and the codec commands complete with no side effect: no unit changes and no actuator
event is emitted, whatever they answer. -/
def Obligations.ReadersAndCodecsArePure : Prop :=
  ∀ (i : Instr) (s : State),
    i.op ∈ [Op.rxReadReg, .rxReadWin, .rxReadEdge, .rxReadResBit, .rxReadResByte, .txReadReg, .txReadBuf,
      .txReadEvent, .constRead, .codecEncByte, .codecDecSym, .codecDecTen] →
      ∃ w, exec i s = .next (reply ⟨w, []⟩ s)

/-- R66: the second of two identical commands in a row changes nothing more, for the five idempotent control commands
and, in a TX state that keeps its invariant, for a tick with the same time. -/
def Obligations.RepeatedCommandsChangeNothingMore : Prop :=
  ∀ (i : Instr) (s t u : State),
    (i = .rxMarkReady ∨ i = .rxMarkNotReady ∨ i = .rxReset ∨ i = .rxCalibrate ∨ i = .txClear ∨
      ((∃ now, i = .txTick now) ∧ TxInv s.tx)) →
      exec i s = .next t → exec i t = .next u →
        u.rx = t.rx ∧ u.tx = t.tx ∧ (∀ r, lastReply u = some r → r.events = [])

/-- R68: commands on the RX port write only RX state and commands on the TX port write only TX state. -/
def Obligations.EachPortWritesItsOwnUnit : Prop :=
  ∀ (i : Instr) (s t : State), exec i s = .next t →
    (s.port = .rx → t.tx = s.tx ∧ t.txReplies = s.txReplies) ∧
    (s.port = .tx → t.rx = s.rx ∧ t.rxReplies = s.rxReplies)

/-- R68: a command on a port reads only that port's unit: two states that agree on it give the same unit state and the
same response, whatever the other unit holds. -/
def Obligations.EachPortReadsItsOwnUnit : Prop :=
  ∀ (i : Instr) (s s' t t' : State), s.port = s'.port → exec i s = .next t → exec i s' = .next t' →
    (s.port = .rx → s.rx = s'.rx → t.rx = t'.rx ∧ lastReply t = lastReply t') ∧
    (s.port = .tx → s.tx = s'.tx → t.tx = t'.tx ∧ lastReply t = lastReply t')

/-- R68: every interleaving of the two ports' command streams gives each port the same responses and leaves the same
final state of both units. An interleaving is a list of inputs, the model's choice (log 2). -/
def Obligations.EveryInterleavingAgrees : Prop :=
  ∀ (s : State) (cs cs' : List Input),
    (∀ c ∈ cs, c.isCommand = true) → (∀ c ∈ cs', c.isCommand = true) →
    onlyPort .rx cs = onlyPort .rx cs' → onlyPort .tx cs = onlyPort .tx cs' →
    ∃ t t', Sys2Proof.core.run cs.length { s with pending := cs } = .next t ∧
      Sys2Proof.core.run cs'.length { s with pending := cs' } = .next t' ∧
      t.pending = [] ∧ t'.pending = [] ∧
      t.rx = t'.rx ∧ t.tx = t'.tx ∧ t.rxReplies = t'.rxReplies ∧ t.txReplies = t'.txReplies

/-- The "written only by" clauses of R21, R26, R27, R40 to R45 and of the RX elements of R20 to R34: an element that a
command changes is changed by one of the commands named for it. -/
def Obligations.ElementsHaveOnlyTheirWriters : Prop :=
  ∀ (i : Instr) (s t : State), exec i s = .next t →
    (t.rx.ready ≠ s.rx.ready → i.op ∈ [Op.rxMarkReady, .rxMarkNotReady, .rxReset]) ∧
    (t.rx.cal ≠ s.rx.cal ∨ t.rx.baseline ≠ s.rx.baseline → i.op ∈ [Op.rxCalibrate, .rxReset]) ∧
    ({ t.rx with ready := s.rx.ready, cal := s.rx.cal, baseline := s.rx.baseline } ≠ s.rx →
      i.op ∈ [Op.rxPush, .rxReset]) ∧
    (t.tx.buf ≠ s.tx.buf → i.op ∈ [Op.txClear, .txAppendByte, .txAppendBit]) ∧
    (t.tx.t0 ≠ s.tx.t0 → i.op = .txStart) ∧
    (t.tx.k ≠ s.tx.k → i.op ∈ [Op.txStart, .txTick]) ∧
    (t.tx.busy ≠ s.tx.busy ∨ t.tx.outcome ≠ s.tx.outcome → i.op ∈ [Op.txStart, .txTick, .txActFail]) ∧
    (t.tx.act ≠ s.tx.act → i.op ∈ [Op.txTick, .txActFail])

/-! ### Invariants -/

/-- The invariants of R36 and R48 hold right after reset, and so do those of R36 (e). -/
def Obligations.ResetMeetsTheInvariants : Prop :=
  Inv State.reset ∧ EdgeInv State.reset.rx

/-- R36 (a) to (d): every step keeps the invariants of the RX session. -/
def Obligations.StepKeepsRxInvariants : Prop :=
  ∀ s t : State, RxInv s.rx → step s = .next t → RxInv t.rx

/-- R48: every step keeps the invariants of the TX state. -/
def Obligations.StepKeepsTxInvariants : Prop :=
  ∀ s t : State, TxInv s.tx → step s = .next t → TxInv t.tx

/-- R36 (e): while the host's timestamps are in order, every command keeps the edge list alternating, its edges at least
MIN_RUN apart, and its last edge the current run. -/
def Obligations.OrderedPushesKeepEdgesInOrder : Prop :=
  ∀ (i : Instr) (s t : State), EdgeInv s.rx →
    (∀ b now, i = .rxPush b now → PushInOrder now s.rx) → exec i s = .next t → EdgeInv t.rx

/-! ### Codec -/

/-- R110, R121: the symbol table, and that `CODEC_DEC_SYM` of each code of it answers the nibble. -/
def Obligations.SymbolTable : Prop :=
  ∀ (s : State), ∀ p ∈ ([(0x0#4, 0b11110#5), (0x1#4, 0b01001#5), (0x2#4, 0b10100#5), (0x3#4, 0b10101#5),
      (0x4#4, 0b01010#5), (0x5#4, 0b01011#5), (0x6#4, 0b01110#5), (0x7#4, 0b01111#5), (0x8#4, 0b10010#5),
      (0x9#4, 0b10011#5), (0xA#4, 0b10110#5), (0xB#4, 0b10111#5), (0xC#4, 0b11010#5), (0xD#4, 0b11011#5),
      (0xE#4, 0b11100#5), (0xF#4, 0b11101#5)] : List (BitVec 4 × Symbol)),
    symbolCode p.1 = p.2 ∧
      exec (.codecDecSym p.2) s = .next (reply ⟨response .ok (p.1.setWidth 48), []⟩ s)

/-- R111, R120: `CODEC_ENC_BYTE` answers, on either port, the codes of the high and of the low nibble, and
`CODEC_DEC_TEN` of that group answers the byte (R114). -/
def Obligations.EncodedByteDecodesBack : Prop :=
  ∀ (s : State) (b : Byte),
    ∃ g : Group,
      g.extractLsb' 5 5 = symbolCode (b.extractLsb' 4 4) ∧ g.extractLsb' 0 5 = symbolCode (b.extractLsb' 0 4) ∧
      exec (.codecEncByte b) s = .next (reply ⟨response .ok (g.setWidth 48), []⟩ s) ∧
      exec (.codecDecTen g) s = .next (reply ⟨response .ok (b.setWidth 48), []⟩ s)

/-- R112, R121: `CODEC_DEC_SYM` answers the nibble whose code it is given, and 0x10 for a code of no nibble; the
patterns that are no code are exactly the 16 listed. -/
def Obligations.SymbolDecodeInvertsTable : Prop :=
  ∀ (s : State) (c : Symbol),
    (∀ n : BitVec 4, symbolCode n = c →
      exec (.codecDecSym c) s = .next (reply ⟨response .ok (n.setWidth 48), []⟩ s)) ∧
    ((∀ n : BitVec 4, symbolCode n ≠ c) →
      exec (.codecDecSym c) s = .next (reply ⟨response .ok 0x10#48, []⟩ s)) ∧
    ((∀ n : BitVec 4, symbolCode n ≠ c) ↔ c ∈ ([0b00000#5, 0b00001#5, 0b00010#5, 0b00011#5, 0b00100#5, 0b00101#5,
      0b00110#5, 0b00111#5, 0b01000#5, 0b01100#5, 0b01101#5, 0b10000#5, 0b10001#5, 0b11000#5, 0b11001#5, 0b11111#5] :
      List Symbol))

/-- R113, R122: `CODEC_DEC_TEN` answers the byte of two valid symbols; otherwise byte 0 with INVALID and the flag of each
half that is no code. -/
def Obligations.GroupDecodeReportsEachHalf : Prop :=
  ∀ (s : State) (g : Group),
    (∀ b : Byte, symbolCode (b.extractLsb' 4 4) = g.extractLsb' 5 5 →
      symbolCode (b.extractLsb' 0 4) = g.extractLsb' 0 5 →
      exec (.codecDecTen g) s = .next (reply ⟨response .ok (b.setWidth 48), []⟩ s)) ∧
    (∀ hi lo : Bool, (hi = true ↔ ∀ n, symbolCode n ≠ g.extractLsb' 5 5) →
      (lo = true ↔ ∀ n, symbolCode n ≠ g.extractLsb' 0 5) → (hi || lo) = true →
      exec (.codecDecTen g) s =
        .next (reply ⟨response .ok
          ((BitVec.ofBool lo ++ BitVec.ofBool hi ++ 1#1 ++ 0#8).setWidth 48), []⟩ s))

/-- R115: in the bits of any message of whole bytes no run of 0s is longer than 3 and no run of 1s longer than 8. -/
def Obligations.MessageRunsAreBounded : Prop :=
  ∀ bs : List Byte,
    ¬ List.replicate 4 false <:+: messageBits bs ∧ ¬ List.replicate 9 true <:+: messageBits bs

/-! ### Transmit -/

/-- R143, R312: `TX_READ_EVENT` answers the entry of the schedule table for its index, the completion entry with END
set, and BAD_INDEX beyond it. -/
def Obligations.ScheduleTableIsRead : Prop :=
  ∀ (s : State) (k : BitVec 16) (t : Time), s.port = .tx →
    (k.toNat = 0 → exec (.txReadEvent k t) s =
      .next (reply ⟨response .ok ((0#1 ++ 1#1 ++ t).setWidth 48), []⟩ s)) ∧
    (k.toNat = 1 → exec (.txReadEvent k t) s =
      .next (reply ⟨response .ok ((0#1 ++ 0#1 ++ (t + 800#32)).setWidth 48), []⟩ s)) ∧
    (∀ i v, s.tx.buf[i]? = some v → k.toNat = 2 + i → exec (.txReadEvent k t) s =
      .next (reply ⟨response .ok
        ((0#1 ++ BitVec.ofBool v ++ (t + BitVec.ofNat 32 (800 + 200 * i))).setWidth 48), []⟩ s)) ∧
    (k.toNat = s.tx.buf.length + 2 → exec (.txReadEvent k t) s =
      .next (reply ⟨response .ok
        ((0#1 ++ 0#1 ++ (t + BitVec.ofNat 32 (800 + 200 * s.tx.buf.length))).setWidth 48), []⟩ s)) ∧
    (k.toNat = s.tx.buf.length + 3 → exec (.txReadEvent k t) s =
      .next (reply ⟨response .ok
        ((1#1 ++ 0#1 ++ (t + BitVec.ofNat 32 (800 + 200 * s.tx.buf.length + 900))).setWidth 48), []⟩ s)) ∧
    (s.tx.buf.length + 3 < k.toNat → exec (.txReadEvent k t) s =
      .next (reply ⟨response .badIndex 0#48, []⟩ s))

/-- R160, R163: on an idle TX unit `TX_CLEAR` empties the buffer and `TX_START` starts a transmission, and each writes
nothing else. -/
def Obligations.ClearAndStartWhileIdle : Prop :=
  ∀ (s : State) (t : Time), s.port = .tx → s.tx.busy = false →
    exec .txClear s =
      .next (reply ⟨response .ok 0#48, []⟩ { s with tx := { s.tx with buf := [] } }) ∧
    exec (.txStart t) s =
      .next (reply ⟨response .ok 0#48, []⟩
        { s with tx := { s.tx with t0 := t, k := 0#13, outcome := .none, busy := true } })

/-- R161: on an idle TX unit `TX_APPEND_BYTE` appends the group of the byte, `g[9]` first, and answers the new length;
where fewer than 10 bits of room remain it answers TX_FULL and appends nothing. -/
def Obligations.AppendByteWhileIdle : Prop :=
  ∀ (s : State) (b : Byte), s.port = .tx → s.tx.busy = false →
    (s.tx.buf.length + 10 ≤ 4096 → ∃ g : Group,
      g = symbolCode (b.extractLsb' 4 4) ++ symbolCode (b.extractLsb' 0 4) ∧
      exec (.txAppendByte b) s =
        .next (reply ⟨response .ok (BitVec.ofNat 48 (s.tx.buf.length + 10)), []⟩
          { s with tx := { s.tx with buf := s.tx.buf ++
            [g.getLsbD 9, g.getLsbD 8, g.getLsbD 7, g.getLsbD 6, g.getLsbD 5,
             g.getLsbD 4, g.getLsbD 3, g.getLsbD 2, g.getLsbD 1, g.getLsbD 0] } })) ∧
    (4096 < s.tx.buf.length + 10 →
      exec (.txAppendByte b) s = .next (reply ⟨response .txFull 0#48, []⟩ s))

/-- R162: on an idle TX unit `TX_APPEND_BIT` appends one bit and answers the new length; at 4096 bits it answers
TX_FULL. -/
def Obligations.AppendBitWhileIdle : Prop :=
  ∀ (s : State) (v : Bool), s.port = .tx → s.tx.busy = false →
    (s.tx.buf.length + 1 ≤ 4096 →
      exec (.txAppendBit v) s =
        .next (reply ⟨response .ok (BitVec.ofNat 48 (s.tx.buf.length + 1)), []⟩
          { s with tx := { s.tx with buf := s.tx.buf ++ [v] } })) ∧
    (4096 < s.tx.buf.length + 1 →
      exec (.txAppendBit v) s = .next (reply ⟨response .txFull 0#48, []⟩ s))

/-- R147: while a transmission is active `TX_START`, `TX_CLEAR`, `TX_APPEND_BYTE` and `TX_APPEND_BIT` end with TX_BUSY
and no effect. -/
def Obligations.BusyTransmitterRefuses : Prop :=
  ∀ (i : Instr) (s : State), s.port = .tx → s.tx.busy = true →
    i.op ∈ [Op.txStart, .txClear, .txAppendByte, .txAppendBit] →
      exec i s = .next (reply ⟨response .txBusy 0#48, []⟩ s)

/-- R164: a tick performs, in list order, exactly the entries from TX_K on that are due, each with its own target, and
stops at the first entry that is not due, or at the completion entry, which ends the transmission with OK; while idle it
does nothing. TXBUF and TX_T0 do not change. It answers the count, ACT, BUSY and OUTCOME, whose codes are NONE 0, OK 1,
FAILED 2 (R42). -/
def Obligations.TickPerformsTheDueEntries : Prop :=
  ∀ (s : State) (now : Time), s.port = .tx → TxInv s.tx →
    ∃ (u : TxUnit) (evs : List ActEvent) (code : BitVec 2),
      (u.outcome = .none → code = 0#2) ∧ (u.outcome = .ok → code = 1#2) ∧ (u.outcome = .failed → code = 2#2) ∧
      exec (.txTick now) s =
        .next (reply ⟨response .ok ((code ++ BitVec.ofBool u.busy ++ BitVec.ofBool u.act ++
          BitVec.ofNat 16 evs.length).setWidth 48), evs⟩ { s with tx := u }) ∧
      u.buf = s.tx.buf ∧ u.t0 = s.tx.t0 ∧
      (s.tx.busy = false → u = s.tx ∧ evs = []) ∧
      (s.tx.busy = true →
        u.k.toNat = s.tx.k.toNat + evs.length ∧
        (∀ j ev, evs[j]? = some ev → ∃ e l, scheduleEntry s.tx.buf s.tx.t0 (s.tx.k.toNat + j) = some e ∧
          e.level = some l ∧ 0 ≤ sdiff now e.target ∧ ev = ⟨l, .event (s.tx.k.toNat + j) e.target⟩) ∧
        (evs = [] → u.act = s.tx.act) ∧ (∀ ev, evs.getLast? = some ev → u.act = ev.level) ∧
        ∃ e, scheduleEntry s.tx.buf s.tx.t0 u.k.toNat = some e ∧
          ((sdiff now e.target < 0 ∧ u.busy = true ∧ u.outcome = s.tx.outcome) ∨
            (0 ≤ sdiff now e.target ∧ e.level = none ∧ u.busy = false ∧ u.outcome = .ok)))

/-- R144: a tick between does not matter. Where every entry due at the earlier time is due at the later one, a tick at
the earlier and then one at the later time leave the TX state, and emit the events, of the later tick alone. -/
def Obligations.EarlierTicksDoNotShiftLaterOnes : Prop :=
  ∀ (s : State) (now₁ now₂ : Time), s.port = .tx → TxInv s.tx →
    (∀ k e, scheduleEntry s.tx.buf s.tx.t0 k = some e → 0 ≤ sdiff now₁ e.target → 0 ≤ sdiff now₂ e.target) →
    ∃ t₁ t₂ t w₁ w₂ w evs₁ evs₂,
      exec (.txTick now₁) s = .next t₁ ∧ exec (.txTick now₂) t₁ = .next t₂ ∧ exec (.txTick now₂) s = .next t ∧
      t₂.tx = t.tx ∧
      t₂.txReplies = s.txReplies ++ [⟨w₁, evs₁⟩, ⟨w₂, evs₂⟩] ∧ t.txReplies = s.txReplies ++ [⟨w, evs₁ ++ evs₂⟩]

/-- R145: where the entries due at `now` are the first entries of the schedule, the level the block drives after a tick
at `now` is the level of the light at `now`: that of the last actuation entry at or before it, OFF before the first.
That the light's "at or before" compares targets by `sdiff` is the model's reading (log 15). -/
def Obligations.TickDrivesTheLightOfTheSchedule : Prop :=
  ∀ (s t : State) (now : Time), s.port = .tx → TxInv s.tx → s.tx.busy = true →
    (∀ j k e f, j ≤ k → scheduleEntry s.tx.buf s.tx.t0 j = some e → scheduleEntry s.tx.buf s.tx.t0 k = some f →
      0 ≤ sdiff now f.target → 0 ≤ sdiff now e.target) →
    (∀ j e, j < s.tx.k.toNat → scheduleEntry s.tx.buf s.tx.t0 j = some e → 0 ≤ sdiff now e.target) →
    exec (.txTick now) s = .next t → t.tx.act = lightAt s.tx.buf s.tx.t0 now

/-- R165: during a transmission `TX_ACT_FAIL` forces the actuator OFF, emits that event, ends the transmission as FAILED
and answers 1, keeping TXBUF, TX_T0 and TX_K; while idle it has no effect and answers 0. -/
def Obligations.ActuatorFailureForcesOff : Prop :=
  ∀ s : State, s.port = .tx →
    (s.tx.busy = true → exec .txActFail s =
      .next (reply ⟨response .ok 1#48, [⟨false, .forcedOff⟩]⟩
        { s with tx := { s.tx with act := false, busy := false, outcome := .failed } })) ∧
    (s.tx.busy = false → exec .txActFail s = .next (reply ⟨response .ok 0#48, []⟩ s))

/-- R146, R151: in a TX state that keeps its invariant, no command but a tick and an actuator failure ends a
transmission, and it ends with the actuator OFF and the buffer kept. Of all steps, only those two commands on the TX port
and the reset input end it; the reset input too leaves the actuator OFF (R370; its form as an input is the model's
choice, log 6). -/
def Obligations.TransmissionEndsWithActuatorOff : Prop :=
  (∀ (i : Instr) (s t : State), TxInv s.tx → s.tx.busy = true → exec i s = .next t → t.tx.busy = false →
    t.tx.act = false ∧ t.tx.buf = s.tx.buf ∧
      (((∃ now, i = .txTick now) ∧ t.tx.outcome = .ok) ∨ (i = .txActFail ∧ t.tx.outcome = .failed))) ∧
  (∀ s t : State, TxInv s.tx → s.tx.busy = true → step s = .next t → t.tx.busy = false →
    t.tx.act = false ∧
      ((∃ w rest now, s.pending = .command .tx w :: rest ∧ decode .tx w = .ok (.txTick now) ∧ t.tx.outcome = .ok) ∨
        (∃ w rest, s.pending = .command .tx w :: rest ∧ decode .tx w = .ok .txActFail ∧ t.tx.outcome = .failed) ∨
        (∃ rest, s.pending = .hardReset :: rest ∧ t.tx.outcome = .none)))

/-- R310: `TX_READ_REG` answers the TX register views, and BAD_INDEX for every other index; TX_STATUS is BUSY in bit 0
and the code of TX_OUTCOME (R42: NONE 0, OK 1, FAILED 2) in bits 2 and 1. -/
def Obligations.TxRegisterViews : Prop :=
  ∀ s : State, s.port = .tx → s.tx.buf.length ≤ 4096 →
    (s.tx.outcome = .none → exec (.txReadReg 0#16) s =
      .next (reply ⟨response .ok (BitVec.ofNat 48 (2 * 0 + s.tx.busy.toNat)), []⟩ s)) ∧
    (s.tx.outcome = .ok → exec (.txReadReg 0#16) s =
      .next (reply ⟨response .ok (BitVec.ofNat 48 (2 * 1 + s.tx.busy.toNat)), []⟩ s)) ∧
    (s.tx.outcome = .failed → exec (.txReadReg 0#16) s =
      .next (reply ⟨response .ok (BitVec.ofNat 48 (2 * 2 + s.tx.busy.toNat)), []⟩ s)) ∧
    exec (.txReadReg 1#16) s = .next (reply ⟨response .ok (BitVec.ofNat 48 s.tx.buf.length), []⟩ s) ∧
    exec (.txReadReg 2#16) s = .next (reply ⟨response .ok (s.tx.t0.setWidth 48), []⟩ s) ∧
    exec (.txReadReg 3#16) s = .next (reply ⟨response .ok (s.tx.k.setWidth 48), []⟩ s) ∧
    exec (.txReadReg 4#16) s = .next (reply ⟨response .ok ((BitVec.ofBool s.tx.act).setWidth 48), []⟩ s) ∧
    (∀ e, scheduleEntry s.tx.buf s.tx.t0 s.tx.k.toNat = some e →
      exec (.txReadReg 5#16) s = .next (reply ⟨response .ok (e.target.setWidth 48), []⟩ s)) ∧
    (s.tx.buf.length + 3 < s.tx.k.toNat →
      exec (.txReadReg 5#16) s = .next (reply ⟨response .ok 0#48, []⟩ s)) ∧
    (∀ idx : BitVec 16, 5 < idx.toNat →
      exec (.txReadReg idx) s = .next (reply ⟨response .badIndex 0#48, []⟩ s))

/-- R311: `TX_READ_BUF` answers the bit at its index, and BAD_INDEX at or beyond the length. -/
def Obligations.TxBufferIsRead : Prop :=
  ∀ (s : State) (idx : BitVec 16), s.port = .tx →
    (∀ v, s.tx.buf[idx.toNat]? = some v → exec (.txReadBuf idx) s =
      .next (reply ⟨response .ok ((BitVec.ofBool v).setWidth 48), []⟩ s)) ∧
    (s.tx.buf.length ≤ idx.toNat → exec (.txReadBuf idx) s =
      .next (reply ⟨response .badIndex 0#48, []⟩ s))

/-! ### Threshold estimator -/

/-- R190 to R194: a push appends its sample and drops the oldest beyond 150; with fewer than 12 samples the four values
are kept, else they are computed from the sorted window; CAL and BASELINE are read, not written. -/
def Obligations.PushUpdatesThreshold : Prop :=
  ∀ (s : State) (b : Byte) (now : Time), s.port = .rx →
    ∃ t, exec (.rxPush b now) s = .next t ∧
      t.rx.win = (if s.rx.win.length < 150 then s.rx.win ++ [b] else s.rx.win.drop 1 ++ [b]) ∧
      t.rx.cal = s.rx.cal ∧ t.rx.baseline = s.rx.baseline ∧
      (t.rx.win.length < 12 → t.rx.p10 = s.rx.p10 ∧ t.rx.p90 = s.rx.p90 ∧ t.rx.swing = s.rx.swing ∧
        t.rx.thr2 = s.rx.thr2) ∧
      (12 ≤ t.rx.win.length → ∃ srt : List Byte, srt.Perm t.rx.win ∧ srt.Pairwise (· ≤ ·) ∧
        srt[t.rx.win.length / 10]? = some t.rx.p10 ∧ srt[9 * t.rx.win.length / 10]? = some t.rx.p90 ∧
        t.rx.swing.toNat = t.rx.p90.toNat - t.rx.p10.toNat ∧ t.rx.p10.toNat ≤ t.rx.p90.toNat ∧
        t.rx.thr2.toNat =
          if t.rx.cal then 2 * (t.rx.baseline.toNat + 30)
          else if 12 ≤ t.rx.swing.toNat then t.rx.p10.toNat + t.rx.p90.toNat
          else 256)

/-- R199: after a push with at least 12 samples, no calibration and a swing of at least 12, the threshold lies between
two samples of the window, so between its minimum and its maximum. -/
def Obligations.ThresholdLiesInTheWindow : Prop :=
  ∀ (s t : State) (b : Byte) (now : Time), s.port = .rx → exec (.rxPush b now) s = .next t →
    12 ≤ t.rx.win.length → t.rx.cal = false → 12 ≤ t.rx.swing.toNat →
      ∃ lo ∈ t.rx.win, ∃ hi ∈ t.rx.win, lo = t.rx.p10 ∧ hi = t.rx.p90 ∧
        2 * lo.toNat ≤ t.rx.thr2.toNat ∧ t.rx.thr2.toNat ≤ 2 * hi.toNat

/-- R198: with at least 10 samples `RX_CALIBRATE` makes the upper median of the window the baseline, sets CAL, answers 1
and writes nothing else; with fewer it has no effect and answers 0. -/
def Obligations.CalibrateTakesTheMedian : Prop :=
  ∀ s : State, s.port = .rx →
    (s.rx.win.length < 10 → exec .rxCalibrate s = .next (reply ⟨response .ok 0#48, []⟩ s)) ∧
    (10 ≤ s.rx.win.length → ∃ (srt : List Byte) (m : Byte), srt.Perm s.rx.win ∧ srt.Pairwise (· ≤ ·) ∧
      srt[s.rx.win.length / 2]? = some m ∧
      exec .rxCalibrate s =
        .next (reply ⟨response .ok 1#48, []⟩ { s with rx := { s.rx with baseline := m, cal := true } }))

/-! ### Receive -/

/-- R222, R223, R236: a push completes whatever its sample and timestamp; the level it answers compares twice the sample
with the threshold the push leaves; it answers READY and the state after the push, whose codes are IDLE 0, WAIT_FOR_LOW
1, RECEIVING 2, DONE 3 (R20); it counts the sample. READY and the TX unit do not change. -/
def Obligations.PushAnswersAndCounts : Prop :=
  ∀ (s : State) (b : Byte) (now : Time), s.port = .rx →
    ∃ (t : State) (produced : Bool) (code : BitVec 2), exec (.rxPush b now) s = .next t ∧
      (t.rx.phase = .idle → code = 0#2) ∧ (t.rx.phase = .waitForLow → code = 1#2) ∧
      (t.rx.phase = .receiving → code = 2#2) ∧ (t.rx.phase = .done → code = 3#2) ∧
      t.rxReplies = s.rxReplies ++ [⟨response .ok
        ((BitVec.ofBool s.rx.ready ++ BitVec.ofBool (decide (t.rx.thr2.toNat < 2 * b.toNat)) ++
          code ++ BitVec.ofBool produced).setWidth 48), []⟩] ∧
      (produced = true ↔ s.rx.phase ≠ .done ∧ t.rx.phase = .done) ∧
      t.rx.firstTs = (if s.rx.sampleCnt.toNat = 0 then now else s.rx.firstTs) ∧
      t.rx.sampleCnt.toNat = min (s.rx.sampleCnt.toNat + 1) 4294967295 ∧
      t.rx.lastTs = now ∧
      t.rx.ready = s.rx.ready ∧ t.tx = s.tx ∧ t.txReplies = s.txReplies ∧ t.pending = s.pending ∧
      t.port = s.port

/-- R224: while READY = 0 a push moves no run, records no edge, makes no transition and leaves the result; it answers
RESULT = 0. -/
def Obligations.GateStopsTheReceiver : Prop :=
  ∀ (s : State) (b : Byte) (now : Time), s.port = .rx → s.rx.ready = false →
    ∃ (t : State) (d : Data), exec (.rxPush b now) s = .next t ∧
      lastReply t = some ⟨response .ok d, []⟩ ∧ d.getLsbD 0 = false ∧
      t.rx.phase = s.rx.phase ∧ t.rx.runOpen = s.rx.runOpen ∧ t.rx.runLvl = s.rx.runLvl ∧
      t.rx.runStart = s.rx.runStart ∧ t.rx.origin = s.rx.origin ∧ t.rx.edges = s.rx.edges ∧
      t.rx.edgeOvf = s.rx.edgeOvf ∧ t.rx.res = s.rx.res

/-- R225 to R228: behind the gate the first push opens the run; a sample of the run's level, and a transition of a run
shorter than 80 ms, leave it; a transition of a longer run restarts it at the sample. -/
def Obligations.RunTrackerFollowsTheSamples : Prop :=
  ∀ (s : State) (b : Byte) (now : Time), s.port = .rx → s.rx.ready = true →
    ∃ (t : State) (lvl : Bool), exec (.rxPush b now) s = .next t ∧
      lvl = decide (t.rx.thr2.toNat < 2 * b.toNat) ∧ t.rx.runOpen = true ∧
      (s.rx.runOpen = false → t.rx.runLvl = lvl ∧ t.rx.runStart = now) ∧
      (s.rx.runOpen = true → lvl = s.rx.runLvl ∨ sdiff now s.rx.runStart < 80 →
        t.rx.runLvl = s.rx.runLvl ∧ t.rx.runStart = s.rx.runStart) ∧
      (s.rx.runOpen = true → lvl ≠ s.rx.runLvl → 80 ≤ sdiff now s.rx.runStart →
        t.rx.runLvl = lvl ∧ t.rx.runStart = now)

/-- R227, R228, R232: behind the gate a push in RECEIVING appends an edge exactly for an accepted transition, or sets
EDGE_OVF when the list is full; the LOW sample in WAIT_FOR_LOW seeds the list; no other push writes it. -/
def Obligations.EdgesAreRecorded : Prop :=
  ∀ (s : State) (b : Byte) (now : Time), s.port = .rx → s.rx.ready = true →
    ∃ (t : State) (lvl accepted : Bool), exec (.rxPush b now) s = .next t ∧
      lvl = decide (t.rx.thr2.toNat < 2 * b.toNat) ∧
      (accepted = true ↔ s.rx.runOpen = true ∧ lvl ≠ s.rx.runLvl ∧ 80 ≤ sdiff now s.rx.runStart) ∧
      (s.rx.phase = .receiving → accepted = true → s.rx.edges.length < 1024 →
        t.rx.edges = s.rx.edges ++ [⟨now - s.rx.origin, lvl⟩] ∧ t.rx.edgeOvf = s.rx.edgeOvf) ∧
      (s.rx.phase = .receiving → accepted = true → 1024 ≤ s.rx.edges.length →
        t.rx.edges = s.rx.edges ∧ t.rx.edgeOvf = true) ∧
      (s.rx.phase = .receiving → accepted = false →
        t.rx.edges = s.rx.edges ∧ t.rx.edgeOvf = s.rx.edgeOvf) ∧
      (s.rx.phase = .waitForLow → lvl = false → t.rx.edges = [⟨0#32, false⟩] ∧ t.rx.edgeOvf = false) ∧
      (s.rx.phase = .idle ∨ s.rx.phase = .done ∨ (s.rx.phase = .waitForLow ∧ lvl = true) →
        t.rx.edges = s.rx.edges ∧ t.rx.edgeOvf = s.rx.edgeOvf)

/-- R237: the state table of a push behind the gate, with `rd` the run duration after the run tracker (R229). STOP comes
before the timeout, and the result record is written exactly on entry to DONE. -/
def Obligations.StateTable : Prop :=
  ∀ (s : State) (b : Byte) (now : Time), s.port = .rx → s.rx.ready = true →
    ∃ (t : State) (lvl conf : Bool) (rd : Int), exec (.rxPush b now) s = .next t ∧
      lvl = decide (t.rx.thr2.toNat < 2 * b.toNat) ∧ rd = sdiff now t.rx.runStart ∧
      conf = (decide (12 ≤ t.rx.swing.toNat) || t.rx.cal) ∧
      (s.rx.phase = .idle →
        t.rx.phase = (if lvl = true ∧ 480 ≤ rd ∧ conf = true then .waitForLow else .idle) ∧
        t.rx.origin = s.rx.origin ∧ t.rx.res = s.rx.res) ∧
      (s.rx.phase = .waitForLow → lvl = false →
        t.rx.phase = .receiving ∧ t.rx.origin = now ∧ t.rx.res = s.rx.res) ∧
      (s.rx.phase = .waitForLow → lvl = true →
        t.rx.phase = .waitForLow ∧ t.rx.origin = s.rx.origin ∧ t.rx.res = s.rx.res) ∧
      (s.rx.phase = .receiving → lvl = false ∧ 650 ≤ rd →
        t.rx.phase = .done ∧ t.rx.origin = s.rx.origin ∧ t.rx.res.valid = true ∧ t.rx.res.cause = .stop ∧
        t.rx.res.stop = t.rx.runStart + 200#32 - s.rx.origin) ∧
      (s.rx.phase = .receiving → ¬(lvl = false ∧ 650 ≤ rd) → 60000 ≤ sdiff now s.rx.origin →
        t.rx.phase = .done ∧ t.rx.origin = s.rx.origin ∧ t.rx.res.valid = true ∧ t.rx.res.cause = .timeout ∧
        t.rx.res.stop = now - s.rx.origin) ∧
      (s.rx.phase = .receiving → ¬(lvl = false ∧ 650 ≤ rd) → sdiff now s.rx.origin < 60000 →
        t.rx.phase = .receiving ∧ t.rx.origin = s.rx.origin ∧ t.rx.res = s.rx.res) ∧
      (s.rx.phase = .done → t.rx.phase = .done ∧ t.rx.origin = s.rx.origin ∧ t.rx.res = s.rx.res)

/-- R235, R50: no command but `RX_RESET` leaves DONE, and none but it changes the result, the edge list or the origin
there; of all steps, only that command on the RX port and the reset input do (the reset input's form is the model's
choice, log 6). -/
def Obligations.DoneIsTerminal : Prop :=
  (∀ (i : Instr) (s t : State), s.rx.phase = .done → i.op ≠ .rxReset → exec i s = .next t →
    t.rx.phase = .done ∧ t.rx.res = s.rx.res ∧ t.rx.edges = s.rx.edges ∧ t.rx.edgeOvf = s.rx.edgeOvf ∧
      t.rx.origin = s.rx.origin) ∧
  (∀ s t : State, s.rx.phase = .done → step s = .next t →
    (∃ w rest, s.pending = .command .rx w :: rest ∧ decode .rx w = .ok .rxReset) ∨
    (∃ rest, s.pending = .hardReset :: rest) ∨
    (t.rx.phase = .done ∧ t.rx.res = s.rx.res ∧ t.rx.edges = s.rx.edges ∧ t.rx.edgeOvf = s.rx.edgeOvf ∧
      t.rx.origin = s.rx.origin))

/-- R240, R241, R242: `RX_RESET` gives the session its reset values, `RX_MARK_READY` and `RX_MARK_NOT_READY` write READY
only; each answers 0 and touches nothing else. -/
def Obligations.ResetAndReadyCommands : Prop :=
  ∀ s : State, s.port = .rx →
    exec .rxReset s = .next (reply ⟨response .ok 0#48, []⟩ { s with rx := State.reset.rx }) ∧
    exec .rxMarkReady s =
      .next (reply ⟨response .ok 0#48, []⟩ { s with rx := { s.rx with ready := true } }) ∧
    exec .rxMarkNotReady s =
      .next (reply ⟨response .ok 0#48, []⟩ { s with rx := { s.rx with ready := false } })

/-! ### Reconstruction -/

/-- R270 to R274, R278: the push that enters DONE leaves in the result record the first 4096 of the bits its edge list
gives up to the stop time, with the overflow flag exactly if there were more, and a copy of EDGE_OVF. -/
def Obligations.ResultHoldsTheRecoveredBits : Prop :=
  ∀ (s t : State) (b : Byte) (now : Time), s.port = .rx → s.rx.phase = .receiving →
    exec (.rxPush b now) s = .next t → t.rx.phase = .done →
      t.rx.res.bits = (recoveredBits t.rx.res.stop t.rx.edges).take 4096 ∧
      (t.rx.res.bitOvf = true ↔ 4096 < (recoveredBits t.rx.res.stop t.rx.edges).length) ∧
      t.rx.res.edgeOvf = t.rx.edgeOvf

/-- R272: the boundaries of the rounding of a run to bits. -/
def Obligations.RoundingBoundaries : Prop :=
  (∀ run : Int, 80 ≤ run → run ≤ 299 → roundBits run = 1) ∧
  (∀ (run : Int) (m : Nat), 2 ≤ m → (roundBits run = m ↔ 200 * m - 100 ≤ run ∧ run ≤ 200 * m + 99))

/-- R271 to R273, R387: an edge list whose runs are each within 99 ms of a whole number of bit periods is
reconstructed to those bits, alternating from LOW, whatever the deviations. -/
def Obligations.RunsWithinToleranceReconstruct : Prop :=
  ∀ (es : List Edge) (stop : Time) (ms : List Nat),
    es ≠ [] → ms.length = es.length →
    (∀ (i m : Nat) (e : Edge), ms[i]? = some m → es[i]? = some e →
      1 ≤ m ∧ e.lvl = decide (i % 2 = 1) ∧
      (200 * m - 99 : Int) ≤ ((es[i + 1]?.map Edge.t).getD stop).toInt - e.t.toInt ∧
      ((es[i + 1]?.map Edge.t).getD stop).toInt - e.t.toInt ≤ 200 * m + 99) →
    ms.sum ≤ 4096 →
    (expandRuns stop es ⟨[], false⟩).bits =
        (ms.zipIdx.flatMap fun p => List.replicate p.1 (decide (p.2 % 2 = 1))) ∧
      (expandRuns stop es ⟨[], false⟩).ovf = false

/-! ### Readers -/

/-- R301 to R303, R279 to R283: the RX register views, for a session that keeps its invariants, and BAD_INDEX for every
other index. View 0 is the code of STATE: IDLE 0, WAIT_FOR_LOW 1, RECEIVING 2, DONE 3 (R20). -/
def Obligations.RxRegisterViews : Prop :=
  ∀ s : State, s.port = .rx → RxInv s.rx →
    (∀ p ∈ rxRegisterTable s.rx, exec (.rxReadReg (BitVec.ofNat 16 p.1)) s =
      .next (reply ⟨response .ok (BitVec.ofNat 48 p.2), []⟩ s)) ∧
    (s.rx.phase = .idle → exec (.rxReadReg 0#16) s = .next (reply ⟨response .ok 0#48, []⟩ s)) ∧
    (s.rx.phase = .waitForLow → exec (.rxReadReg 0#16) s = .next (reply ⟨response .ok 1#48, []⟩ s)) ∧
    (s.rx.phase = .receiving → exec (.rxReadReg 0#16) s = .next (reply ⟨response .ok 2#48, []⟩ s)) ∧
    (s.rx.phase = .done → exec (.rxReadReg 0#16) s = .next (reply ⟨response .ok 3#48, []⟩ s)) ∧
    (∀ idx : BitVec 16, idx.toNat ∉ (rxRegisterTable s.rx).map Prod.fst →
      exec (.rxReadReg idx) s = .next (reply ⟨response .badIndex 0#48, []⟩ s))

/-- R304, R305: the window and the edge list are read by index, and BAD_INDEX is answered at or beyond the length. -/
def Obligations.WindowAndEdgesAreRead : Prop :=
  ∀ (s : State) (idx : BitVec 16), s.port = .rx →
    (∀ b, s.rx.win[idx.toNat]? = some b → exec (.rxReadWin idx) s =
      .next (reply ⟨response .ok (b.setWidth 48), []⟩ s)) ∧
    (s.rx.win.length ≤ idx.toNat → exec (.rxReadWin idx) s =
      .next (reply ⟨response .badIndex 0#48, []⟩ s)) ∧
    (∀ e, s.rx.edges[idx.toNat]? = some e → exec (.rxReadEdge idx) s =
      .next (reply ⟨response .ok ((BitVec.ofBool e.lvl ++ e.t).setWidth 48), []⟩ s)) ∧
    (s.rx.edges.length ≤ idx.toNat → exec (.rxReadEdge idx) s =
      .next (reply ⟨response .badIndex 0#48, []⟩ s))

/-- R306, R307, R276, R62: with a result, its bits and its groups are read by index; the group's value has its first bit
most significant, and its decode is the data `CODEC_DEC_TEN` answers for it. Beyond the last bit or group, or without a result, BAD_INDEX. -/
def Obligations.ResultIsRead : Prop :=
  ∀ (s : State) (idx : BitVec 16), s.port = .rx →
    (s.rx.res.valid = true → ∀ v, s.rx.res.bits[idx.toNat]? = some v → exec (.rxReadResBit idx) s =
      .next (reply ⟨response .ok ((BitVec.ofBool v).setWidth 48), []⟩ s)) ∧
    (s.rx.res.valid = false ∨ s.rx.res.bits.length ≤ idx.toNat → exec (.rxReadResBit idx) s =
      .next (reply ⟨response .badIndex 0#48, []⟩ s)) ∧
    (s.rx.res.valid = true → idx.toNat < s.rx.res.bits.length / 10 → ∃ (g : Group) (d : BitVec 11),
      g.toNat = ((List.range 10).map fun i =>
        (s.rx.res.bits.getD (10 * idx.toNat + i) false).toNat * 2 ^ (9 - i)).sum ∧
      exec (.codecDecTen g) s = .next (reply ⟨response .ok (d.setWidth 48), []⟩ s) ∧
      exec (.rxReadResByte idx) s = .next (reply ⟨response .ok ((g ++ 0#5 ++ d).setWidth 48), []⟩ s)) ∧
    (s.rx.res.valid = false ∨ s.rx.res.bits.length / 10 ≤ idx.toNat → exec (.rxReadResByte idx) s =
      .next (reply ⟨response .badIndex 0#48, []⟩ s))

/-- R320, R47: the constants read the same on both ports and in every state, and BAD_INDEX from index 16 on. -/
def Obligations.ConstantsAreHardwired : Prop :=
  ∀ (s : State) (idx : BitVec 16),
    (∀ c, ([200, 800, 900, 480, 650, 80, 30, 12, 150, 12, 10, 128, 60000, 1024, 4096, 4096] : List Nat)[idx.toNat]? =
        some c →
      exec (.constRead idx) s = .next (reply ⟨response .ok (BitVec.ofNat 48 c), []⟩ s)) ∧
    (16 ≤ idx.toNat → exec (.constRead idx) s = .next (reply ⟨response .badIndex 0#48, []⟩ s))

/-! ### Response words -/

/-- R340, R90: a response word is the status code as a number (OK 0, ILLEGAL_OPCODE 1, RESERVED_FIELD 2, BAD_INDEX 3,
TX_BUSY 4, TX_FULL 5) in bits [63:56], above the zero bits [55:48] and DATA in bits [47:0]. -/
def Obligations.ResponseWordsCarryTheStatusCodes : Prop :=
  ∀ (d : Data), ∀ p ∈ ([(.ok, 0), (.illegalOpcode, 1), (.reservedField, 2), (.badIndex, 3), (.txBusy, 4),
      (.txFull, 5)] : List (Status × Nat)),
    (response p.1 d).toNat = p.2 * 2 ^ 56 + d.toNat ∧
    (response p.1 d).extractLsb' 56 8 = BitVec.ofNat 8 p.2 ∧
    (response p.1 d).extractLsb' 48 8 = 0#8 ∧ (response p.1 d).extractLsb' 0 48 = d
end

