-- ==== Sys2Proof/Laws/Decode.lean ====
section
/-! SUPPORT. The fields of a word, the opcode map and the masks, said once for the decoder and the encoder
(30_encoding.md R80 to R84). -/

namespace Sys2Proof

/-! The four fields of a word (R80). -/

theorem fieldOp_append (o r : BitVec 8) (a : BitVec 16) (t : BitVec 32) : fieldOp (o ++ r ++ a ++ t) = o := by
  unfold fieldOp
  ext i hi
  simp only [BitVec.getElem_extractLsb', BitVec.getLsbD_append]
  rw [if_neg (by omega), if_neg (by omega), if_neg (by omega), show 56 + i - 32 - 16 - 8 = i by omega,
    BitVec.getLsbD_eq_getElem hi]

theorem fieldRsv_append (o r : BitVec 8) (a : BitVec 16) (t : BitVec 32) : fieldRsv (o ++ r ++ a ++ t) = r := by
  unfold fieldRsv
  ext i hi
  simp only [BitVec.getElem_extractLsb', BitVec.getLsbD_append]
  rw [if_neg (by omega), if_neg (by omega), if_pos (by omega), show 48 + i - 32 - 16 = i by omega,
    BitVec.getLsbD_eq_getElem hi]

theorem fieldA_append (o r : BitVec 8) (a : BitVec 16) (t : BitVec 32) : fieldA (o ++ r ++ a ++ t) = a := by
  unfold fieldA
  ext i hi
  simp only [BitVec.getElem_extractLsb', BitVec.getLsbD_append]
  rw [if_neg (by omega), if_pos (by omega), show 32 + i - 32 = i by omega, BitVec.getLsbD_eq_getElem hi]

theorem fieldT_append (o r : BitVec 8) (a : BitVec 16) (t : BitVec 32) : fieldT (o ++ r ++ a ++ t) = t := by
  unfold fieldT
  ext i hi
  simp only [BitVec.getElem_extractLsb', BitVec.getLsbD_append]
  rw [if_pos (by omega), show 0 + i = i by omega, BitVec.getLsbD_eq_getElem hi]

/-- A word is its four fields. -/
theorem word_eq_fields (w : Word) : w = fieldOp w ++ fieldRsv w ++ fieldA w ++ fieldT w := by
  refine BitVec.eq_of_getLsbD_eq fun i hi => ?_
  have hi : i < 64 := hi
  simp only [fieldOp, fieldRsv, fieldA, fieldT, BitVec.getLsbD_append, BitVec.getLsbD_extractLsb']
  split
  · rename_i h; simp [h]
  · split
    · rename_i h₁ h₂; simp [h₂, show 32 + (i - 32) = i by omega]
    · split
      · rename_i h₁ h₂ h₃; simp [h₃, show 48 + (i - 32 - 16) = i by omega]
      · rename_i h₁ h₂ h₃
        simp [show i - 32 - 16 - 8 < 8 by omega, show 56 + (i - 32 - 16 - 8) = i by omega]

/-- Two words with the same fields are the same word. -/
theorem word_ext {v w : Word} (h₁ : fieldOp v = fieldOp w) (h₂ : fieldRsv v = fieldRsv w)
    (h₃ : fieldA v = fieldA w) (h₄ : fieldT v = fieldT w) : v = w := by
  rw [word_eq_fields v, word_eq_fields w, h₁, h₂, h₃, h₄]

@[simp] theorem fieldOp_encode (i : Instr) : fieldOp (encode i) = i.op.code := fieldOp_append _ _ _ _
@[simp] theorem fieldRsv_encode (i : Instr) : fieldRsv (encode i) = 0#8 := fieldRsv_append _ _ _ _
@[simp] theorem fieldA_encode (i : Instr) : fieldA (encode i) = i.fieldA := fieldA_append _ _ _ _
@[simp] theorem fieldT_encode (i : Instr) : fieldT (encode i) = i.fieldT := fieldT_append _ _ _ _

/-! The opcode map (R83, R85). -/

theorem ofCode_code (op : Op) : Op.ofCode op.code = some op := by
  cases op <;> rfl

theorem code_of_ofCode {c : BitVec 8} {op : Op} (h : Op.ofCode c = some op) : op.code = c := by
  unfold Op.ofCode at h
  split at h <;> first
    | (rename_i hc
       injection h with h
       subst h
       exact BitVec.eq_of_toNat_eq (by rw [hc]; rfl))
    | cases h

theorem ofCode_eq_some_iff (c : BitVec 8) (op : Op) : Op.ofCode c = some op ↔ op.code = c :=
  ⟨code_of_ofCode, fun h => h ▸ ofCode_code op⟩

/-! The masks (R84), field by field. -/

/-- The must-be-zero bits of A (column must-be-zero of R83). -/
def Op.maskA (op : Op) : BitVec 16 := Sys2Proof.fieldA op.mask

/-- The must-be-zero bits of T: all of them or none. -/
def Op.maskT (op : Op) : BitVec 32 := Sys2Proof.fieldT op.mask

theorem mask_eq_fields (op : Op) : op.mask = 0xFF#8 ++ 0xFF#8 ++ op.maskA ++ op.maskT := by
  cases op <;> decide

theorem mbz_eq_fields (op : Op) : op.mbz = 0x00#8 ++ 0xFF#8 ++ op.maskA ++ op.maskT := by
  cases op <;> decide

theorem pattern_eq_fields (op : Op) : op.pattern = op.code ++ 0#8 ++ 0#16 ++ 0#32 := by
  cases op <;> decide

theorem and_fields (o r o' r' : BitVec 8) (a a' : BitVec 16) (t t' : BitVec 32) :
    (o ++ r ++ a ++ t) &&& (o' ++ r' ++ a' ++ t') = (o &&& o') ++ (r &&& r') ++ (a &&& a') ++ (t &&& t') := by
  rw [BitVec.and_append, BitVec.and_append, BitVec.and_append]

theorem fields_inj {o r o' r' : BitVec 8} {a a' : BitVec 16} {t t' : BitVec 32}
    (h : o ++ r ++ a ++ t = o' ++ r' ++ a' ++ t') : o = o' ∧ r = r' ∧ a = a' ∧ t = t' := by
  refine ⟨?_, ?_, ?_, ?_⟩
  · simpa only [fieldOp_append] using congrArg fieldOp h
  · simpa only [fieldRsv_append] using congrArg fieldRsv h
  · simpa only [fieldA_append] using congrArg fieldA h
  · simpa only [fieldT_append] using congrArg fieldT h

theorem and_ff (x : BitVec 8) : x &&& 0xFF#8 = x := BitVec.and_allOnes

/-- A word passes the must-be-zero test of an opcode exactly when RSV and the unused bits of A and T are zero. -/
theorem mbz_clear_iff (op : Op) (w : Word) :
    w &&& op.mbz = 0#64 ↔ fieldRsv w = 0#8 ∧ fieldA w &&& op.maskA = 0#16 ∧ fieldT w &&& op.maskT = 0#32 := by
  rw [mbz_eq_fields]
  conv_lhs => rw [word_eq_fields w, and_fields, show (0#64 : Word) = 0#8 ++ 0#8 ++ 0#16 ++ 0#32 by decide]
  constructor
  · intro h
    obtain ⟨-, h₂, h₃, h₄⟩ := fields_inj h
    exact ⟨(and_ff _).symm.trans h₂, h₃, h₄⟩
  · rintro ⟨h₂, h₃, h₄⟩
    rw [h₂, h₃, h₄]
    simp

/-- A word selects an opcode by mask and pattern exactly when its opcode byte is the opcode's and it passes the
must-be-zero test (R84). -/
theorem mask_pattern_iff (op : Op) (w : Word) :
    w &&& op.mask = op.pattern ↔ fieldOp w = op.code ∧ w &&& op.mbz = 0#64 := by
  rw [mbz_clear_iff, mask_eq_fields, pattern_eq_fields]
  conv_lhs => rw [word_eq_fields w, and_fields]
  constructor
  · intro h
    obtain ⟨h₁, h₂, h₃, h₄⟩ := fields_inj h
    exact ⟨(and_ff _).symm.trans h₁,
      (and_ff _).symm.trans h₂, h₃, h₄⟩
  · rintro ⟨h₁, h₂, h₃, h₄⟩
    rw [h₁, h₂, h₃, h₄]
    congr 3
    exact BitVec.and_allOnes

/-! What decoding can answer (R84). -/

theorem decode_unassigned {p : Port} {w : Word} (h : ∀ op : Op, op.code = fieldOp w → op.admits p = false) :
    decode p w = .error .illegalOpcode := by
  unfold decode
  split
  · rfl
  · rename_i op hop
    rw [if_pos (h op (code_of_ofCode hop))]

theorem decode_assigned {p : Port} {w : Word} {op : Op} (hc : op.code = fieldOp w) (ha : op.admits p = true) :
    decode p w = if w &&& op.mbz ≠ 0#64 then .error .reservedField else .ok (op.instr w) := by
  unfold decode
  rw [(ofCode_eq_some_iff _ _).2 hc]
  simp [ha]

/-- What decodes has an admitted opcode and clear must-be-zero bits, and is that opcode's command. -/
theorem decode_ok {p : Port} {w : Word} {i : Instr} (h : decode p w = .ok i) :
    ∃ op : Op, op.code = fieldOp w ∧ op.admits p = true ∧ w &&& op.mbz = 0#64 ∧ i = op.instr w := by
  unfold decode at h
  split at h
  · exact absurd h (by simp)
  · rename_i op hop
    by_cases ha : op.admits p = false
    · simp [ha] at h
    · rw [if_neg ha] at h
      by_cases hm : w &&& op.mbz = 0#64
      · rw [if_neg (by simpa using hm)] at h
        injection h with h
        exact ⟨op, code_of_ofCode hop, by simpa using ha, hm, h.symm⟩
      · rw [if_pos hm] at h
        exact absurd h (by simp)

/-- The command an opcode makes of a word has that opcode. -/
@[simp] theorem instr_op (op : Op) (w : Word) : (op.instr w).op = op := by
  cases op <;> rfl

/-! Operands in the field A (R81). -/

/-- A field an opcode leaves free passes its mask. -/
theorem free_and_mask {n : Nat} (x m : BitVec n) (h : m = 0#n) : x &&& m = 0#n := by
  rw [h]; exact BitVec.and_zero

/-- An operand of `n` bits leaves the upper bits of A zero. -/
theorem operand_and_mask {n : Nat} (x : BitVec n) (m : BitVec 16) (hm : ∀ i, i < n → m.getLsbD i = false) :
    x.setWidth 16 &&& m = 0#16 := by
  refine BitVec.eq_of_getLsbD_eq fun i hi => ?_
  simp only [BitVec.getLsbD_and, BitVec.getLsbD_setWidth, BitVec.getLsbD_zero]
  by_cases h : i < n
  · simp [hm i h]
  · simp [BitVec.getLsbD_of_ge x i (by omega)]

/-- An operand of at most 16 bits is read back from A. -/
theorem operand_read_back {n : Nat} (hn : n ≤ 16) (x : BitVec n) : (x.setWidth 16).extractLsb' 0 n = x := by
  ext i hi
  simp [BitVec.getElem_extractLsb', show i < 16 by omega, BitVec.getLsbD_eq_getElem hi]

end Sys2Proof
end

