-- ==== Sys2Proof/Laws/State.lean ====
section
/-! SUPPORT. One lemma per field per update of the state, each true by `rfl` (or by the port), so that no later proof
unfolds a record update. -/

namespace Sys2Proof.Machine

/-! The reply of a command (`reply`). -/

@[simp] theorem reply_rx (r : Reply) (s : State) : (reply r s).rx = s.rx := by
  unfold reply; split <;> rfl
@[simp] theorem reply_tx (r : Reply) (s : State) : (reply r s).tx = s.tx := by
  unfold reply; split <;> rfl
@[simp] theorem reply_port (r : Reply) (s : State) : (reply r s).port = s.port := by
  unfold reply; split <;> rfl
@[simp] theorem reply_pending (r : Reply) (s : State) : (reply r s).pending = s.pending := by
  unfold reply; split <;> rfl

theorem reply_rxReplies_of_rx {s : State} (h : s.port = .rx) (r : Reply) :
    (reply r s).rxReplies = s.rxReplies ++ [r] := by
  simp [reply, h]
theorem reply_txReplies_of_rx {s : State} (h : s.port = .rx) (r : Reply) :
    (reply r s).txReplies = s.txReplies := by
  simp [reply, h]
theorem reply_rxReplies_of_tx {s : State} (h : s.port = .tx) (r : Reply) :
    (reply r s).rxReplies = s.rxReplies := by
  simp [reply, h]
theorem reply_txReplies_of_tx {s : State} (h : s.port = .tx) (r : Reply) :
    (reply r s).txReplies = s.txReplies ++ [r] := by
  simp [reply, h]

/-! Taking an input and the reset input. -/

@[simp] theorem takeCommand_rx (p : Port) (rest : List Input) (s : State) : (takeCommand p rest s).rx = s.rx := rfl
@[simp] theorem takeCommand_tx (p : Port) (rest : List Input) (s : State) : (takeCommand p rest s).tx = s.tx := rfl
@[simp] theorem takeCommand_port (p : Port) (rest : List Input) (s : State) : (takeCommand p rest s).port = p := rfl
@[simp] theorem takeCommand_pending (p : Port) (rest : List Input) (s : State) :
    (takeCommand p rest s).pending = rest := rfl
@[simp] theorem takeCommand_rxReplies (p : Port) (rest : List Input) (s : State) :
    (takeCommand p rest s).rxReplies = s.rxReplies := rfl
@[simp] theorem takeCommand_txReplies (p : Port) (rest : List Input) (s : State) :
    (takeCommand p rest s).txReplies = s.txReplies := rfl

@[simp] theorem takeReset_rx (rest : List Input) (s : State) : (takeReset rest s).rx = s.rx := rfl
@[simp] theorem takeReset_tx (rest : List Input) (s : State) : (takeReset rest s).tx = s.tx := rfl
@[simp] theorem takeReset_port (rest : List Input) (s : State) : (takeReset rest s).port = s.port := rfl
@[simp] theorem takeReset_pending (rest : List Input) (s : State) : (takeReset rest s).pending = rest := rfl
@[simp] theorem takeReset_rxReplies (rest : List Input) (s : State) :
    (takeReset rest s).rxReplies = s.rxReplies := rfl
@[simp] theorem takeReset_txReplies (rest : List Input) (s : State) :
    (takeReset rest s).txReplies = s.txReplies := rfl

@[simp] theorem hardReset_rx (s : State) : (hardReset s).rx = RxSession.reset := rfl
@[simp] theorem hardReset_tx (s : State) : (hardReset s).tx = TxUnit.reset := rfl
@[simp] theorem hardReset_port (s : State) : (hardReset s).port = s.port := rfl
@[simp] theorem hardReset_pending (s : State) : (hardReset s).pending = s.pending := rfl
@[simp] theorem hardReset_rxReplies (s : State) : (hardReset s).rxReplies = s.rxReplies := rfl
@[simp] theorem hardReset_txReplies (s : State) : (hardReset s).txReplies = s.txReplies := rfl

@[simp] theorem placeCommand_rx (w : Word) (s : State) : (placeCommand w s).rx = s.rx := rfl
@[simp] theorem placeCommand_tx (w : Word) (s : State) : (placeCommand w s).tx = s.tx := rfl
@[simp] theorem placeCommand_port (w : Word) (s : State) : (placeCommand w s).port = s.port := rfl
@[simp] theorem placeCommand_pending (w : Word) (s : State) :
    (placeCommand w s).pending = .command (tablePort w) w :: s.pending := rfl

/-! The sample counter writes its three elements (44_receive.md R222). -/

@[simp] theorem countSample_phase (now : Time) (r : RxSession) : (countSample now r).phase = r.phase := rfl
@[simp] theorem countSample_ready (now : Time) (r : RxSession) : (countSample now r).ready = r.ready := rfl
@[simp] theorem countSample_win (now : Time) (r : RxSession) : (countSample now r).win = r.win := rfl
@[simp] theorem countSample_thr2 (now : Time) (r : RxSession) : (countSample now r).thr2 = r.thr2 := rfl
@[simp] theorem countSample_swing (now : Time) (r : RxSession) : (countSample now r).swing = r.swing := rfl
@[simp] theorem countSample_p10 (now : Time) (r : RxSession) : (countSample now r).p10 = r.p10 := rfl
@[simp] theorem countSample_p90 (now : Time) (r : RxSession) : (countSample now r).p90 = r.p90 := rfl
@[simp] theorem countSample_cal (now : Time) (r : RxSession) : (countSample now r).cal = r.cal := rfl
@[simp] theorem countSample_baseline (now : Time) (r : RxSession) : (countSample now r).baseline = r.baseline := rfl
@[simp] theorem countSample_runOpen (now : Time) (r : RxSession) : (countSample now r).runOpen = r.runOpen := rfl
@[simp] theorem countSample_runLvl (now : Time) (r : RxSession) : (countSample now r).runLvl = r.runLvl := rfl
@[simp] theorem countSample_runStart (now : Time) (r : RxSession) : (countSample now r).runStart = r.runStart := rfl
@[simp] theorem countSample_origin (now : Time) (r : RxSession) : (countSample now r).origin = r.origin := rfl
@[simp] theorem countSample_edges (now : Time) (r : RxSession) : (countSample now r).edges = r.edges := rfl
@[simp] theorem countSample_edgeOvf (now : Time) (r : RxSession) : (countSample now r).edgeOvf = r.edgeOvf := rfl
@[simp] theorem countSample_res (now : Time) (r : RxSession) : (countSample now r).res = r.res := rfl
@[simp] theorem countSample_lastTs (now : Time) (r : RxSession) : (countSample now r).lastTs = now := rfl

/-! The threshold step writes WIN, P10, P90, SWING and THR2 (43_threshold.md R190 to R194). -/

theorem tePush_eq (b : Byte) (r : RxSession) :
    ∃ win p10 p90 swing thr2,
      tePush b r = { r with win := win, p10 := p10, p90 := p90, swing := swing, thr2 := thr2 } := by
  unfold tePush recompute
  dsimp only
  split
  · exact ⟨_, _, _, _, _, rfl⟩
  · exact ⟨windowPush b r.win, r.p10, r.p90, r.swing, r.thr2, rfl⟩

@[simp] theorem tePush_phase (b : Byte) (r : RxSession) : (tePush b r).phase = r.phase := by
  obtain ⟨_, _, _, _, _, h⟩ := tePush_eq b r; rw [h]
@[simp] theorem tePush_ready (b : Byte) (r : RxSession) : (tePush b r).ready = r.ready := by
  obtain ⟨_, _, _, _, _, h⟩ := tePush_eq b r; rw [h]
@[simp] theorem tePush_cal (b : Byte) (r : RxSession) : (tePush b r).cal = r.cal := by
  obtain ⟨_, _, _, _, _, h⟩ := tePush_eq b r; rw [h]
@[simp] theorem tePush_baseline (b : Byte) (r : RxSession) : (tePush b r).baseline = r.baseline := by
  obtain ⟨_, _, _, _, _, h⟩ := tePush_eq b r; rw [h]
@[simp] theorem tePush_runOpen (b : Byte) (r : RxSession) : (tePush b r).runOpen = r.runOpen := by
  obtain ⟨_, _, _, _, _, h⟩ := tePush_eq b r; rw [h]
@[simp] theorem tePush_runLvl (b : Byte) (r : RxSession) : (tePush b r).runLvl = r.runLvl := by
  obtain ⟨_, _, _, _, _, h⟩ := tePush_eq b r; rw [h]
@[simp] theorem tePush_runStart (b : Byte) (r : RxSession) : (tePush b r).runStart = r.runStart := by
  obtain ⟨_, _, _, _, _, h⟩ := tePush_eq b r; rw [h]
@[simp] theorem tePush_origin (b : Byte) (r : RxSession) : (tePush b r).origin = r.origin := by
  obtain ⟨_, _, _, _, _, h⟩ := tePush_eq b r; rw [h]
@[simp] theorem tePush_edges (b : Byte) (r : RxSession) : (tePush b r).edges = r.edges := by
  obtain ⟨_, _, _, _, _, h⟩ := tePush_eq b r; rw [h]
@[simp] theorem tePush_edgeOvf (b : Byte) (r : RxSession) : (tePush b r).edgeOvf = r.edgeOvf := by
  obtain ⟨_, _, _, _, _, h⟩ := tePush_eq b r; rw [h]
@[simp] theorem tePush_sampleCnt (b : Byte) (r : RxSession) : (tePush b r).sampleCnt = r.sampleCnt := by
  obtain ⟨_, _, _, _, _, h⟩ := tePush_eq b r; rw [h]
@[simp] theorem tePush_firstTs (b : Byte) (r : RxSession) : (tePush b r).firstTs = r.firstTs := by
  obtain ⟨_, _, _, _, _, h⟩ := tePush_eq b r; rw [h]
@[simp] theorem tePush_lastTs (b : Byte) (r : RxSession) : (tePush b r).lastTs = r.lastTs := by
  obtain ⟨_, _, _, _, _, h⟩ := tePush_eq b r; rw [h]
@[simp] theorem tePush_res (b : Byte) (r : RxSession) : (tePush b r).res = r.res := by
  obtain ⟨_, _, _, _, _, h⟩ := tePush_eq b r; rw [h]
@[simp] theorem tePush_win (b : Byte) (r : RxSession) : (tePush b r).win = windowPush b r.win := by
  unfold tePush recompute; dsimp only; split <;> rfl

/-! The decode writes the result record only (45_decode.md R278). -/

@[simp] theorem decodeSession_phase (stop : Time) (c : Cause) (r : RxSession) :
    (decodeSession stop c r).phase = r.phase := rfl
@[simp] theorem decodeSession_ready (stop : Time) (c : Cause) (r : RxSession) :
    (decodeSession stop c r).ready = r.ready := rfl
@[simp] theorem decodeSession_win (stop : Time) (c : Cause) (r : RxSession) :
    (decodeSession stop c r).win = r.win := rfl
@[simp] theorem decodeSession_thr2 (stop : Time) (c : Cause) (r : RxSession) :
    (decodeSession stop c r).thr2 = r.thr2 := rfl
@[simp] theorem decodeSession_swing (stop : Time) (c : Cause) (r : RxSession) :
    (decodeSession stop c r).swing = r.swing := rfl
@[simp] theorem decodeSession_p10 (stop : Time) (c : Cause) (r : RxSession) :
    (decodeSession stop c r).p10 = r.p10 := rfl
@[simp] theorem decodeSession_p90 (stop : Time) (c : Cause) (r : RxSession) :
    (decodeSession stop c r).p90 = r.p90 := rfl
@[simp] theorem decodeSession_cal (stop : Time) (c : Cause) (r : RxSession) :
    (decodeSession stop c r).cal = r.cal := rfl
@[simp] theorem decodeSession_baseline (stop : Time) (c : Cause) (r : RxSession) :
    (decodeSession stop c r).baseline = r.baseline := rfl
@[simp] theorem decodeSession_runOpen (stop : Time) (c : Cause) (r : RxSession) :
    (decodeSession stop c r).runOpen = r.runOpen := rfl
@[simp] theorem decodeSession_runLvl (stop : Time) (c : Cause) (r : RxSession) :
    (decodeSession stop c r).runLvl = r.runLvl := rfl
@[simp] theorem decodeSession_runStart (stop : Time) (c : Cause) (r : RxSession) :
    (decodeSession stop c r).runStart = r.runStart := rfl
@[simp] theorem decodeSession_origin (stop : Time) (c : Cause) (r : RxSession) :
    (decodeSession stop c r).origin = r.origin := rfl
@[simp] theorem decodeSession_edges (stop : Time) (c : Cause) (r : RxSession) :
    (decodeSession stop c r).edges = r.edges := rfl
@[simp] theorem decodeSession_edgeOvf (stop : Time) (c : Cause) (r : RxSession) :
    (decodeSession stop c r).edgeOvf = r.edgeOvf := rfl
@[simp] theorem decodeSession_sampleCnt (stop : Time) (c : Cause) (r : RxSession) :
    (decodeSession stop c r).sampleCnt = r.sampleCnt := rfl
@[simp] theorem decodeSession_firstTs (stop : Time) (c : Cause) (r : RxSession) :
    (decodeSession stop c r).firstTs = r.firstTs := rfl
@[simp] theorem decodeSession_lastTs (stop : Time) (c : Cause) (r : RxSession) :
    (decodeSession stop c r).lastTs = r.lastTs := rfl
@[simp] theorem decodeSession_valid (stop : Time) (c : Cause) (r : RxSession) :
    (decodeSession stop c r).res.valid = true := rfl
@[simp] theorem decodeSession_cause (stop : Time) (c : Cause) (r : RxSession) :
    (decodeSession stop c r).res.cause = c := rfl
@[simp] theorem decodeSession_stop (stop : Time) (c : Cause) (r : RxSession) :
    (decodeSession stop c r).res.stop = stop := rfl
@[simp] theorem decodeSession_res_edgeOvf (stop : Time) (c : Cause) (r : RxSession) :
    (decodeSession stop c r).res.edgeOvf = r.edgeOvf := rfl
@[simp] theorem decodeSession_bits (stop : Time) (c : Cause) (r : RxSession) :
    (decodeSession stop c r).res.bits = (expandRuns stop r.edges ⟨[], false⟩).bits := rfl
@[simp] theorem decodeSession_bitOvf (stop : Time) (c : Cause) (r : RxSession) :
    (decodeSession stop c r).res.bitOvf = (expandRuns stop r.edges ⟨[], false⟩).ovf := rfl

end Sys2Proof.Machine
end

