-- ==== Sys2Proof/Laws/Ops.lean ====
section
/-! SUPPORT. One lemma per shared operation: what it can do. -/

namespace Sys2Proof.Machine

/-! The response word (30_encoding.md R90). -/

@[simp] theorem response_status (st : Status) (d : Data) : (response st d).extractLsb' 56 8 = statusCode st := by
  unfold response
  ext i hi
  simp only [BitVec.getElem_extractLsb', BitVec.getLsbD_append]
  have h1 : ¬ 56 + i < 48 := by omega
  have h2 : ¬ 56 + i - 48 < 8 := by omega
  simp only [h1, h2, if_false]
  rw [show 56 + i - 48 - 8 = i by omega, BitVec.getLsbD_eq_getElem hi]

@[simp] theorem response_reserved (st : Status) (d : Data) : (response st d).extractLsb' 48 8 = 0#8 := by
  unfold response
  ext i hi
  simp only [BitVec.getElem_extractLsb', BitVec.getLsbD_append]
  have h1 : ¬ 48 + i < 48 := by omega
  simp only [h1, if_false]
  simp
  intro h; omega

@[simp] theorem response_data (st : Status) (d : Data) : (response st d).extractLsb' 0 48 = d := by
  unfold response
  ext i hi
  simp only [BitVec.getElem_extractLsb', BitVec.getLsbD_append]
  simp [hi]

theorem statusCode_eq_zero_iff (st : Status) : statusCode st = 0#8 ↔ st = .ok := by
  cases st <;> decide

theorem statusCode_le_five (st : Status) : (statusCode st).toNat ≤ 5 := by
  cases st <;> decide

/-- A response word tells its status and its data. -/
theorem response_inj {st st' : Status} {d d' : Data} (h : response st d = response st' d') : st = st' ∧ d = d' := by
  have hs : statusCode st = statusCode st' := by rw [← response_status st d, h, response_status]
  have hd : d = d' := by rw [← response_data st d, h, response_data]
  refine ⟨?_, hd⟩
  revert hs
  cases st <;> cases st' <;> decide

/-! The endings of a command (00_scope.md R12) and the two checks before its effect. -/

theorem respond_eq (d : Data) (s : State) : respond d s = .next (reply ⟨response .ok d, []⟩ s) := rfl

theorem respondWith_eq (d : Data) (evs : List ActEvent) (s : State) :
    respondWith d evs s = .next (reply ⟨response .ok d, evs⟩ s) := rfl

theorem raise_eq (st : Status) (s : State) : raise st s = .next (reply ⟨response st 0#48, []⟩ s) := rfl

theorem onPort_of_admits {op : Op} {s : State} (h : op.admits s.port = true) (k : Result) : onPort op s k = k := by
  simp [onPort, h]

theorem onPort_of_not_admits {op : Op} {s : State} (h : op.admits s.port = false) (k : Result) :
    onPort op s k = raise .illegalOpcode s := by
  simp [onPort, h]

theorem whileIdle_of_idle {s : State} (h : s.tx.busy = false) (k : Result) : whileIdle s k = k := by
  simp [whileIdle, h]

theorem whileIdle_of_busy {s : State} (h : s.tx.busy = true) (k : Result) : whileIdle s k = raise .txBusy s := by
  simp [whileIdle, h]

theorem respondIndexed_some (d : Data) (s : State) :
    respondIndexed (some d) s = .next (reply ⟨response .ok d, []⟩ s) := rfl

theorem respondIndexed_none (s : State) :
    respondIndexed none s = .next (reply ⟨response .badIndex 0#48, []⟩ s) := rfl

/-- A reader answers one word with no actuator event and changes no unit. -/
theorem respondIndexed_cases (d : Option Data) (s : State) :
    ∃ w, respondIndexed d s = .next (reply ⟨w, []⟩ s) := by
  cases d <;> exact ⟨_, rfl⟩

end Sys2Proof.Machine
end

