-- ==== Sys2Proof/Laws/Exec.lean ====
section
/-! SUPPORT. What a command can do, said once: on an admitted port `exec` is one effect on the RX session, one on the TX
unit and one answer (`exec_eq`); elsewhere it is ILLEGAL_OPCODE. Everything that is said of all commands follows from
these three functions. -/

namespace Sys2Proof.Machine

/-- What a command does to the RX session. -/
def rxEffect (i : Instr) (r : RxSession) : RxSession :=
  match i with
  | .rxPush b now => (pushSession b now r).1
  | .rxReset => RxSession.reset
  | .rxCalibrate =>
    if r.win.length < Config.calMin then r
    else { r with baseline := sampleAt (sortSamples r.win) (r.win.length / 2), cal := true }
  | .rxMarkReady => { r with ready := true }
  | .rxMarkNotReady => { r with ready := false }
  | .rxReadReg _ => r
  | .rxReadWin _ => r
  | .rxReadEdge _ => r
  | .rxReadResBit _ => r
  | .rxReadResByte _ => r
  | .txClear => r
  | .txAppendByte _ => r
  | .txAppendBit _ => r
  | .txStart _ => r
  | .txTick _ => r
  | .txActFail => r
  | .txReadReg _ => r
  | .txReadBuf _ => r
  | .txReadEvent _ _ => r
  | .codecEncByte _ => r
  | .codecDecSym _ => r
  | .codecDecTen _ => r
  | .constRead _ => r

/-- The buffer after an append, kept where there is no room. -/
def appended (bs : Bits) (t : TxUnit) : TxUnit :=
  if t.busy = true ∨ Config.txCap < t.buf.length + bs.length then t else { t with buf := t.buf ++ bs }

/-- What a command does to the TX unit. -/
def txEffect (i : Instr) (t : TxUnit) : TxUnit :=
  match i with
  | .txClear => if t.busy then t else { t with buf := [] }
  | .txAppendByte b => appended (bitsOfGroup (encodeByte b)) t
  | .txAppendBit v => appended [v] t
  | .txStart now => if t.busy then t else { t with t0 := now, k := 0#13, outcome := .none, busy := true }
  | .txTick now => (tick now t).1
  | .txActFail => if t.busy then { t with act := false, busy := false, outcome := .failed } else t
  | .rxPush _ _ => t
  | .rxReset => t
  | .rxCalibrate => t
  | .rxMarkReady => t
  | .rxMarkNotReady => t
  | .rxReadReg _ => t
  | .rxReadWin _ => t
  | .rxReadEdge _ => t
  | .rxReadResBit _ => t
  | .rxReadResByte _ => t
  | .txReadReg _ => t
  | .txReadBuf _ => t
  | .txReadEvent _ _ => t
  | .codecEncByte _ => t
  | .codecDecSym _ => t
  | .codecDecTen _ => t
  | .constRead _ => t

/-- Status, data and actuator events of a command's answer. -/
structure Answer where
  status : Status
  data : Data
  events : List ActEvent

/-- The reply an answer makes. -/
def Answer.reply (a : Answer) : Reply :=
  ⟨response a.status a.data, a.events⟩

/-- The answer OK with data and no event. -/
def okAnswer (d : Data) : Answer := ⟨.ok, d, []⟩

/-- The answer of an error status. -/
def errAnswer (st : Status) : Answer := ⟨st, 0#48, []⟩

/-- The answer of a reader. -/
def readAnswer (d : Option Data) : Answer :=
  match d with
  | some d => okAnswer d
  | none => errAnswer .badIndex

/-- The answer of an append. -/
def appendAnswer (bs : Bits) (t : TxUnit) : Answer :=
  if t.busy then errAnswer .txBusy
  else if Config.txCap < t.buf.length + bs.length then errAnswer .txFull
  else okAnswer (BitVec.ofNat 48 (t.buf.length + bs.length))

/-- What a command answers. -/
def answer (i : Instr) (r : RxSession) (t : TxUnit) : Answer :=
  match i with
  | .rxPush b now =>
    okAnswer (pushFlags (pushSession b now r).1 (classify b (feedSession b now r)) (pushSession b now r).2)
  | .rxReset => okAnswer 0#48
  | .rxCalibrate => if r.win.length < Config.calMin then okAnswer 0#48 else okAnswer 1#48
  | .rxMarkReady => okAnswer 0#48
  | .rxMarkNotReady => okAnswer 0#48
  | .rxReadReg idx => readAnswer (rxRegister r idx)
  | .rxReadWin idx => readAnswer (r.win[idx.toNat]?.map fun b => b.setWidth 48)
  | .rxReadEdge idx => readAnswer (r.edges[idx.toNat]?.map edgeData)
  | .rxReadResBit idx => readAnswer (resultBit r.res idx)
  | .rxReadResByte idx => readAnswer (resultByte r.res idx)
  | .txClear => if t.busy then errAnswer .txBusy else okAnswer 0#48
  | .txAppendByte b => appendAnswer (bitsOfGroup (encodeByte b)) t
  | .txAppendBit v => appendAnswer [v] t
  | .txStart _ => if t.busy then errAnswer .txBusy else okAnswer 0#48
  | .txTick now => ⟨.ok, tickFlags (tick now t).1 (tick now t).2.length, (tick now t).2⟩
  | .txActFail => if t.busy then ⟨.ok, 1#48, [⟨false, .forcedOff⟩]⟩ else okAnswer 0#48
  | .txReadReg idx => readAnswer (txRegister t idx)
  | .txReadBuf idx => readAnswer (t.buf[idx.toNat]?.map bitData)
  | .txReadEvent k now => readAnswer ((scheduleEntry t.buf now k.toNat).map entryData)
  | .codecEncByte b => okAnswer ((encodeByte b).setWidth 48)
  | .codecDecSym c => okAnswer (symData c)
  | .codecDecTen g => okAnswer ((tenData g).setWidth 48)
  | .constRead idx => readAnswer (constRegister idx)

@[simp] theorem okAnswer_status (d : Data) : (okAnswer d).status = .ok := rfl
@[simp] theorem okAnswer_events (d : Data) : (okAnswer d).events = [] := rfl
@[simp] theorem errAnswer_data (st : Status) : (errAnswer st).data = 0#48 := rfl
@[simp] theorem errAnswer_events (st : Status) : (errAnswer st).events = [] := rfl

theorem readAnswer_events (d : Option Data) : (readAnswer d).events = [] := by
  cases d <;> rfl

theorem readAnswer_error {d : Option Data} (h : (readAnswer d).status ≠ .ok) :
    (readAnswer d).data = 0#48 ∧ (readAnswer d).events = [] := by
  cases d
  · exact ⟨rfl, rfl⟩
  · exact absurd rfl h

theorem appendAnswer_error {bs : Bits} {t : TxUnit} (h : (appendAnswer bs t).status ≠ .ok) :
    appended bs t = t ∧ (appendAnswer bs t).data = 0#48 ∧ (appendAnswer bs t).events = [] := by
  unfold appendAnswer appended at *
  by_cases hb : t.busy = true
  · simp [hb]
  · by_cases hf : Config.txCap < t.buf.length + bs.length
    · simp [hb, hf]
    · simp [hb, hf] at h

theorem respondIndexed_eq (d : Option Data) (s : State) :
    respondIndexed d s = .next (reply (readAnswer d).reply s) := by
  cases d <;> rfl

theorem appendBits_eq {s : State} (bs : Bits) :
    whileIdle s (appendBits bs s) =
      .next (reply (appendAnswer bs s.tx).reply { s with tx := appended bs s.tx }) := by
  unfold whileIdle appendBits appendAnswer appended
  by_cases hb : s.tx.busy = true
  · simp [hb, raise_eq, errAnswer, Answer.reply]
  · by_cases hf : Config.txCap < s.tx.buf.length + bs.length
    · simp [hb, hf, raise_eq, errAnswer, Answer.reply]
    · simp [hb, hf, respond_eq, okAnswer, Answer.reply]

/-- A command's meaning behind the port's admission. -/
def perform (i : Instr) (s : State) : Result :=
  match i with
  | .rxPush b now =>
    respond
      (pushFlags (pushSession b now s.rx).1 (classify b (feedSession b now s.rx)) (pushSession b now s.rx).2)
      { s with rx := (pushSession b now s.rx).1 }
  | .rxReset => respond 0#48 { s with rx := RxSession.reset }
  | .rxCalibrate =>
    if s.rx.win.length < Config.calMin then respond 0#48 s
    else
      respond 1#48
        { s with rx := { s.rx with
            baseline := sampleAt (sortSamples s.rx.win) (s.rx.win.length / 2), cal := true } }
  | .rxMarkReady => respond 0#48 { s with rx := { s.rx with ready := true } }
  | .rxMarkNotReady => respond 0#48 { s with rx := { s.rx with ready := false } }
  | .rxReadReg idx => respondIndexed (rxRegister s.rx idx) s
  | .rxReadWin idx => respondIndexed (s.rx.win[idx.toNat]?.map fun b => b.setWidth 48) s
  | .rxReadEdge idx => respondIndexed (s.rx.edges[idx.toNat]?.map edgeData) s
  | .rxReadResBit idx => respondIndexed (resultBit s.rx.res idx) s
  | .rxReadResByte idx => respondIndexed (resultByte s.rx.res idx) s
  | .txClear => whileIdle s (respond 0#48 { s with tx := { s.tx with buf := [] } })
  | .txAppendByte b => whileIdle s (appendBits (bitsOfGroup (encodeByte b)) s)
  | .txAppendBit v => whileIdle s (appendBits [v] s)
  | .txStart t => whileIdle s
      (respond 0#48 { s with tx := { s.tx with t0 := t, k := 0#13, outcome := .none, busy := true } })
  | .txTick now =>
    respondWith (tickFlags (tick now s.tx).1 (tick now s.tx).2.length) (tick now s.tx).2
      { s with tx := (tick now s.tx).1 }
  | .txActFail =>
    if s.tx.busy then
      respondWith 1#48 [⟨false, .forcedOff⟩]
        { s with tx := { s.tx with act := false, busy := false, outcome := .failed } }
    else respond 0#48 s
  | .txReadReg idx => respondIndexed (txRegister s.tx idx) s
  | .txReadBuf idx => respondIndexed (s.tx.buf[idx.toNat]?.map bitData) s
  | .txReadEvent k t => respondIndexed ((scheduleEntry s.tx.buf t k.toNat).map entryData) s
  | .codecEncByte b => respond ((encodeByte b).setWidth 48) s
  | .codecDecSym c => respond (symData c) s
  | .codecDecTen g => respond ((tenData g).setWidth 48) s
  | .constRead idx => respondIndexed (constRegister idx) s

/-- Every arm of `exec` is the admission check around the command's meaning. -/
theorem exec_eq_perform (i : Instr) (s : State) : exec i s = onPort i.op s (perform i s) := by
  cases i <;> rfl

/-- A command's meaning is its two effects and its answer. -/
theorem perform_eq (i : Instr) (s : State) :
    perform i s = .next (reply (answer i s.rx s.tx).reply
      { s with rx := rxEffect i s.rx, tx := txEffect i s.tx }) := by
  cases i with
  | rxPush b now => rfl
  | rxReset => rfl
  | rxCalibrate =>
    by_cases h : s.rx.win.length < Config.calMin
    · simp [perform, answer, rxEffect, txEffect, h, respond_eq, Answer.reply, okAnswer]
    · simp [perform, answer, rxEffect, txEffect, h, respond_eq, Answer.reply, okAnswer]
  | rxMarkReady => rfl
  | rxMarkNotReady => rfl
  | rxReadReg idx => exact respondIndexed_eq _ _
  | rxReadWin idx => exact respondIndexed_eq _ _
  | rxReadEdge idx => exact respondIndexed_eq _ _
  | rxReadResBit idx => exact respondIndexed_eq _ _
  | rxReadResByte idx => exact respondIndexed_eq _ _
  | txClear =>
    by_cases h : s.tx.busy = true
    · simp [perform, answer, rxEffect, txEffect, whileIdle, h, raise_eq, Answer.reply, errAnswer]
    · simp [perform, answer, rxEffect, txEffect, whileIdle, h, respond_eq, Answer.reply, okAnswer]
  | txAppendByte b => exact appendBits_eq _
  | txAppendBit v => exact appendBits_eq _
  | txStart t =>
    by_cases h : s.tx.busy = true
    · simp [perform, answer, rxEffect, txEffect, whileIdle, h, raise_eq, Answer.reply, errAnswer]
    · simp [perform, answer, rxEffect, txEffect, whileIdle, h, respond_eq, Answer.reply, okAnswer]
  | txTick now => rfl
  | txActFail =>
    by_cases h : s.tx.busy = true
    · simp [perform, answer, rxEffect, txEffect, h, respondWith_eq, Answer.reply]
    · simp [perform, answer, rxEffect, txEffect, h, respond_eq, Answer.reply, okAnswer]
  | txReadReg idx => exact respondIndexed_eq _ _
  | txReadBuf idx => exact respondIndexed_eq _ _
  | txReadEvent k t => exact respondIndexed_eq _ _
  | codecEncByte b => rfl
  | codecDecSym c => rfl
  | codecDecTen g => rfl
  | constRead idx => exact respondIndexed_eq _ _

/-- On a port that admits it, a command is its two effects and its answer. -/
theorem exec_eq {i : Instr} {s : State} (h : i.op.admits s.port = true) :
    exec i s = .next (reply (answer i s.rx s.tx).reply
      { s with rx := rxEffect i s.rx, tx := txEffect i s.tx }) := by
  rw [exec_eq_perform, onPort_of_admits h, perform_eq]

/-- On a port that does not admit it, a command is ILLEGAL_OPCODE. -/
theorem exec_of_not_admits {i : Instr} {s : State} (h : i.op.admits s.port = false) :
    exec i s = .next (reply (errAnswer .illegalOpcode).reply s) := by
  rw [exec_eq_perform, onPort_of_not_admits h]; rfl

/-- The two cases of a command that answers a next state. -/
theorem exec_cases {i : Instr} {s t : State} (h : exec i s = .next t) :
    (i.op.admits s.port = false ∧ t = reply (errAnswer .illegalOpcode).reply s) ∨
    (i.op.admits s.port = true ∧ t = reply (answer i s.rx s.tx).reply
      { s with rx := rxEffect i s.rx, tx := txEffect i s.tx }) := by
  cases ha : i.op.admits s.port
  · rw [exec_of_not_admits ha] at h
    injection h with h
    exact .inl ⟨rfl, h.symm⟩
  · rw [exec_eq ha] at h
    injection h with h
    exact .inr ⟨rfl, h.symm⟩

/-- A command that is not OK has no effect and no event. -/
theorem answer_error {i : Instr} {r : RxSession} {t : TxUnit} (h : (answer i r t).status ≠ .ok) :
    rxEffect i r = r ∧ txEffect i t = t ∧ (answer i r t).data = 0#48 ∧ (answer i r t).events = [] := by
  cases i with
  | rxPush b now => exact absurd (okAnswer_status _) h
  | rxReset => exact absurd (okAnswer_status _) h
  | rxCalibrate =>
    simp only [answer] at h
    split at h <;> exact absurd (okAnswer_status _) h
  | rxMarkReady => exact absurd (okAnswer_status _) h
  | rxMarkNotReady => exact absurd (okAnswer_status _) h
  | rxReadReg idx => exact ⟨rfl, rfl, readAnswer_error h⟩
  | rxReadWin idx => exact ⟨rfl, rfl, readAnswer_error h⟩
  | rxReadEdge idx => exact ⟨rfl, rfl, readAnswer_error h⟩
  | rxReadResBit idx => exact ⟨rfl, rfl, readAnswer_error h⟩
  | rxReadResByte idx => exact ⟨rfl, rfl, readAnswer_error h⟩
  | txClear =>
    by_cases hb : t.busy = true
    · simp [answer, rxEffect, txEffect, hb]
    · simp [answer, hb] at h
  | txAppendByte b => exact ⟨rfl, appendAnswer_error h⟩
  | txAppendBit v => exact ⟨rfl, appendAnswer_error h⟩
  | txStart now =>
    by_cases hb : t.busy = true
    · simp [answer, rxEffect, txEffect, hb]
    · simp [answer, hb] at h
  | txTick now => simp [answer] at h
  | txActFail =>
    by_cases hb : t.busy = true
    · simp [answer, hb] at h
    · simp [answer, hb] at h
  | txReadReg idx => exact ⟨rfl, rfl, readAnswer_error h⟩
  | txReadBuf idx => exact ⟨rfl, rfl, readAnswer_error h⟩
  | txReadEvent k now => exact ⟨rfl, rfl, readAnswer_error h⟩
  | codecEncByte b => exact absurd (okAnswer_status _) h
  | codecDecSym c => exact absurd (okAnswer_status _) h
  | codecDecTen g => exact absurd (okAnswer_status _) h
  | constRead idx => exact ⟨rfl, rfl, readAnswer_error h⟩

/-- A command admitted on the RX port leaves the TX unit, one admitted on the TX port leaves the RX session. -/
theorem effect_of_port {i : Instr} {p : Port} (h : i.op.admits p = true) (r : RxSession) (t : TxUnit) :
    (p = .rx → txEffect i t = t) ∧ (p = .tx → rxEffect i r = r) := by
  cases i <;> simp_all [Instr.op, Op.admits, txEffect, rxEffect]

/-- On the RX port an answer does not depend on the TX unit, on the TX port not on the RX session. -/
theorem answer_of_port {i : Instr} {p : Port} (h : i.op.admits p = true) (r r' : RxSession) (t t' : TxUnit) :
    (p = .rx → answer i r t = answer i r t') ∧ (p = .tx → answer i r t = answer i r' t) := by
  cases i <;> simp_all [Instr.op, Op.admits, answer]

end Sys2Proof.Machine
end

