-- ==== Sys2Proof/Laws/Operands.lean ====
section
/-! SUPPORT. The sorted window, the groups of bits, and time arithmetic: one lemma per helper. -/

namespace Sys2Proof.Machine

/-! The sorted copy (00_scope.md R11). -/

theorem sortSamples_perm (l : List Byte) : (sortSamples l).Perm l :=
  List.perm_insertionSort _ l

theorem sortSamples_pairwise (l : List Byte) : (sortSamples l).Pairwise (· ≤ ·) :=
  List.pairwise_insertionSort _ l

@[simp] theorem sortSamples_length (l : List Byte) : (sortSamples l).length = l.length :=
  (sortSamples_perm l).length_eq

theorem sampleAt_eq {l : List Byte} {i : Nat} (h : i < l.length) : l[i]? = some (sampleAt l i) := by
  unfold sampleAt
  rw [List.getElem?_eq_getElem h, List.getD_eq_getElem _ _ h]

theorem sampleAt_mem {l : List Byte} {i : Nat} (h : i < l.length) : sampleAt l i ∈ l :=
  List.mem_of_getElem? (sampleAt_eq h)

/-- In a sorted list a later sample is not smaller. -/
theorem sampleAt_mono {l : List Byte} (hl : l.Pairwise (· ≤ ·)) {i j : Nat} (hij : i ≤ j) (hj : j < l.length) :
    sampleAt l i ≤ sampleAt l j := by
  have hi : i < l.length := by omega
  have ei : sampleAt l i = l[i] := List.getD_eq_getElem _ _ hi
  have ej : sampleAt l j = l[j] := List.getD_eq_getElem _ _ hj
  rw [ei, ej]
  rcases Nat.lt_or_ge i j with h | h
  · exact List.pairwise_iff_getElem.1 hl i j hi hj h
  · have : i = j := by omega
    subst this
    exact BitVec.le_refl _

/-! Groups (20_memory.md R62). -/

@[simp] theorem bitsOfGroup_length (g : Group) : (bitsOfGroup g).length = 10 := by
  simp [bitsOfGroup]

/-! Time (00_scope.md R10). -/

theorem sdiffPattern_toInt (a b : Time) : (sdiffPattern a b).toInt = sdiff a b := rfl

@[simp] theorem sdiff_self (a : Time) : sdiff a a = 0 := by
  simp [sdiff]

/-- A byte is below 256, with SAMPLE_W written out for linear arithmetic. -/
theorem byte_toNat_lt (b : Byte) : b.toNat < 256 := b.isLt

/-- A timestamp is below `2^32`, with TS_W written out for linear arithmetic. -/
theorem time_toNat_lt (t : Time) : t.toNat < 4294967296 := t.isLt

/-- `sdiff` at the width TS_W written out, the form in which linear arithmetic decides it. -/
theorem sdiff_eq (a b : BitVec 32) : sdiff a b = (a - b).toInt := rfl

/-- `add32` at the width TS_W written out. -/
theorem add32_eq (a : BitVec 32) (d : Nat) : add32 a d = a + BitVec.ofNat 32 d := rfl

/-- Elapsed times from a common origin, both not negative, subtract without wrapping. -/
theorem sdiff_sub_of_nonneg {a b o : BitVec 32} (ha : 0 ≤ sdiff a o) (hb : 0 ≤ sdiff b o) :
    sdiff a o - sdiff b o = sdiff a b := by
  rw [sdiff_eq] at ha hb
  rw [sdiff_eq, sdiff_eq, sdiff_eq, show a - b = (a - o) - (b - o) by bv_omega]
  generalize a - o = x at *
  generalize b - o = y at *
  have hx := x.toInt_lt
  have hy := y.toInt_lt
  rw [BitVec.toInt_sub, Int.bmod_eq_of_le] <;> omega

/-- Elapsed times add up: where `a` is not before `b`, nor before `c`, and `b` is at least `k` after `c`, so is `a`. -/
theorem sdiff_le_trans {a b c : BitVec 32} {k : Int} (hab : 0 ≤ sdiff a b) (hbc : k ≤ sdiff b c) (hk : 0 ≤ k)
    (hac : 0 ≤ sdiff a c) : k ≤ sdiff a c := by
  have h := sdiff_sub_of_nonneg (a := a) (b := b) (o := c) hac (le_trans hk hbc)
  omega

end Sys2Proof.Machine
end

