-- ==== Sys2Proof/Laws/PerInstr.lean ====
section
/-! SUPPORT. Family EncodedForm: what the word of each command looks like, one lemma per command. The unused bits of its
fields A and T are zero, and reading its operands from those fields gives the command back (30_encoding.md R81, R83). -/

namespace Sys2Proof.Laws.EncodedForm

/-- The word of the command has zeros in the must-be-zero bits of A and T, and its operands are read back. -/
def Statement (i : Instr) : Prop :=
  i.fieldA &&& i.op.maskA = 0#16 ∧ i.fieldT &&& i.op.maskT = 0#32 ∧
    ∀ w : Word, Sys2Proof.fieldA w = i.fieldA → Sys2Proof.fieldT w = i.fieldT → i.op.instr w = i

theorem rxPush (b : Byte) (t : Time) : Statement (.rxPush b t) := by
  refine ⟨operand_and_mask b (Op.maskA .rxPush) (by decide), free_and_mask _ (Op.maskT .rxPush) (by decide), fun w ha ht => ?_⟩
  have h₁ : operandB w = b := by unfold operandB; rw [ha]; exact operand_read_back (by decide) b
  have h₂ : operandT w = t := ht
  show Instr.rxPush (operandB w) (operandT w) = _
  rw [h₁, h₂]

theorem rxReset : Statement .rxReset := by
  refine ⟨BitVec.zero_and, BitVec.zero_and, fun w ha ht => ?_⟩
  rfl

theorem rxCalibrate : Statement .rxCalibrate := by
  refine ⟨BitVec.zero_and, BitVec.zero_and, fun w ha ht => ?_⟩
  rfl

theorem rxMarkReady : Statement .rxMarkReady := by
  refine ⟨BitVec.zero_and, BitVec.zero_and, fun w ha ht => ?_⟩
  rfl

theorem rxMarkNotReady : Statement .rxMarkNotReady := by
  refine ⟨BitVec.zero_and, BitVec.zero_and, fun w ha ht => ?_⟩
  rfl

theorem rxReadReg (idx : BitVec 16) : Statement (.rxReadReg idx) := by
  refine ⟨free_and_mask _ (Op.maskA .rxReadReg) (by decide), BitVec.zero_and, fun w ha ht => ?_⟩
  have h₁ : operandIdx w = idx := ha
  show Instr.rxReadReg (operandIdx w) = _
  rw [h₁]

theorem rxReadWin (idx : BitVec 16) : Statement (.rxReadWin idx) := by
  refine ⟨free_and_mask _ (Op.maskA .rxReadWin) (by decide), BitVec.zero_and, fun w ha ht => ?_⟩
  have h₁ : operandIdx w = idx := ha
  show Instr.rxReadWin (operandIdx w) = _
  rw [h₁]

theorem rxReadEdge (idx : BitVec 16) : Statement (.rxReadEdge idx) := by
  refine ⟨free_and_mask _ (Op.maskA .rxReadEdge) (by decide), BitVec.zero_and, fun w ha ht => ?_⟩
  have h₁ : operandIdx w = idx := ha
  show Instr.rxReadEdge (operandIdx w) = _
  rw [h₁]

theorem rxReadResBit (idx : BitVec 16) : Statement (.rxReadResBit idx) := by
  refine ⟨free_and_mask _ (Op.maskA .rxReadResBit) (by decide), BitVec.zero_and, fun w ha ht => ?_⟩
  have h₁ : operandIdx w = idx := ha
  show Instr.rxReadResBit (operandIdx w) = _
  rw [h₁]

theorem rxReadResByte (idx : BitVec 16) : Statement (.rxReadResByte idx) := by
  refine ⟨free_and_mask _ (Op.maskA .rxReadResByte) (by decide), BitVec.zero_and, fun w ha ht => ?_⟩
  have h₁ : operandIdx w = idx := ha
  show Instr.rxReadResByte (operandIdx w) = _
  rw [h₁]

theorem txClear : Statement .txClear := by
  refine ⟨BitVec.zero_and, BitVec.zero_and, fun w ha ht => ?_⟩
  rfl

theorem txAppendByte (b : Byte) : Statement (.txAppendByte b) := by
  refine ⟨operand_and_mask b (Op.maskA .txAppendByte) (by decide), BitVec.zero_and, fun w ha ht => ?_⟩
  have h₁ : operandB w = b := by unfold operandB; rw [ha]; exact operand_read_back (by decide) b
  show Instr.txAppendByte (operandB w) = _
  rw [h₁]

theorem txAppendBit (v : Bool) : Statement (.txAppendBit v) := by
  refine ⟨operand_and_mask (BitVec.ofBool v) (Op.maskA .txAppendBit) (by decide), BitVec.zero_and, fun w ha ht => ?_⟩
  have h₁ : operandV w = v := by unfold operandV; rw [ha]; cases v <;> rfl
  show Instr.txAppendBit (operandV w) = _
  rw [h₁]

theorem txStart (t : Time) : Statement (.txStart t) := by
  refine ⟨BitVec.zero_and, free_and_mask _ (Op.maskT .txStart) (by decide), fun w ha ht => ?_⟩
  have h₂ : operandT w = t := ht
  show Instr.txStart (operandT w) = _
  rw [h₂]

theorem txTick (t : Time) : Statement (.txTick t) := by
  refine ⟨BitVec.zero_and, free_and_mask _ (Op.maskT .txTick) (by decide), fun w ha ht => ?_⟩
  have h₂ : operandT w = t := ht
  show Instr.txTick (operandT w) = _
  rw [h₂]

theorem txActFail : Statement .txActFail := by
  refine ⟨BitVec.zero_and, BitVec.zero_and, fun w ha ht => ?_⟩
  rfl

theorem txReadReg (idx : BitVec 16) : Statement (.txReadReg idx) := by
  refine ⟨free_and_mask _ (Op.maskA .txReadReg) (by decide), BitVec.zero_and, fun w ha ht => ?_⟩
  have h₁ : operandIdx w = idx := ha
  show Instr.txReadReg (operandIdx w) = _
  rw [h₁]

theorem txReadBuf (idx : BitVec 16) : Statement (.txReadBuf idx) := by
  refine ⟨free_and_mask _ (Op.maskA .txReadBuf) (by decide), BitVec.zero_and, fun w ha ht => ?_⟩
  have h₁ : operandIdx w = idx := ha
  show Instr.txReadBuf (operandIdx w) = _
  rw [h₁]

theorem txReadEvent (k : BitVec 16) (t : Time) : Statement (.txReadEvent k t) := by
  refine ⟨free_and_mask _ (Op.maskA .txReadEvent) (by decide), free_and_mask _ (Op.maskT .txReadEvent) (by decide), fun w ha ht => ?_⟩
  have h₁ : operandIdx w = k := ha
  have h₂ : operandT w = t := ht
  show Instr.txReadEvent (operandIdx w) (operandT w) = _
  rw [h₁, h₂]

theorem codecEncByte (b : Byte) : Statement (.codecEncByte b) := by
  refine ⟨operand_and_mask b (Op.maskA .codecEncByte) (by decide), BitVec.zero_and, fun w ha ht => ?_⟩
  have h₁ : operandB w = b := by unfold operandB; rw [ha]; exact operand_read_back (by decide) b
  show Instr.codecEncByte (operandB w) = _
  rw [h₁]

theorem codecDecSym (c : Symbol) : Statement (.codecDecSym c) := by
  refine ⟨operand_and_mask c (Op.maskA .codecDecSym) (by decide), BitVec.zero_and, fun w ha ht => ?_⟩
  have h₁ : operandC w = c := by unfold operandC; rw [ha]; exact operand_read_back (by decide) c
  show Instr.codecDecSym (operandC w) = _
  rw [h₁]

theorem codecDecTen (g : Group) : Statement (.codecDecTen g) := by
  refine ⟨operand_and_mask g (Op.maskA .codecDecTen) (by decide), BitVec.zero_and, fun w ha ht => ?_⟩
  have h₁ : operandG w = g := by unfold operandG; rw [ha]; exact operand_read_back (by decide) g
  show Instr.codecDecTen (operandG w) = _
  rw [h₁]

theorem constRead (idx : BitVec 16) : Statement (.constRead idx) := by
  refine ⟨free_and_mask _ (Op.maskA .constRead) (by decide), BitVec.zero_and, fun w ha ht => ?_⟩
  have h₁ : operandIdx w = idx := ha
  show Instr.constRead (operandIdx w) = _
  rw [h₁]

end Sys2Proof.Laws.EncodedForm
end

