-- ==== Sys2Proof/Laws/Reconstruct.lean ====
section
/-! SUPPORT. What the bit reconstructor does (45_decode.md). -/

namespace Sys2Proof.Machine

/-- `put` is `putOne` repeated (R274): the closed form drops exactly the bits the loop drops. -/
theorem put_eq_iterate (k : Nat) (v : Bool) (a : BitBuffer) : put k v a = (putOne v)^[k] a := by
  induction k generalizing a with
  | zero => cases a; simp [put]
  | succ k ih =>
    rw [Function.iterate_succ_apply, ← ih]
    obtain ⟨bits, ovf⟩ := a
    by_cases h : bits.length < Config.bitCap
    · simp only [putOne, put, h, if_true, List.length_append, List.length_cons, List.length_nil]
      rw [show min (k + 1) (Config.bitCap - bits.length) = min k (Config.bitCap - (bits.length + (0 + 1))) + 1 by
        omega, List.replicate_succ, List.append_assoc]
      simp only [List.singleton_append, BitBuffer.mk.injEq, true_and]
      congr 1
      exact decide_eq_decide.2 (by omega)
    · have h0 : Config.bitCap - bits.length = 0 := by omega
      simp [putOne, put, h, h0]

/-- The capacity is kept (R274). -/
theorem put_length_le {k : Nat} {v : Bool} {a : BitBuffer} (h : a.bits.length ≤ Config.bitCap) :
    (put k v a).bits.length ≤ Config.bitCap := by
  simp only [put, List.length_append, List.length_replicate]
  omega

theorem putRun_length_le {run : Int} {v : Bool} {a : BitBuffer} (h : a.bits.length ≤ Config.bitCap) :
    (putRun run v a).bits.length ≤ Config.bitCap := by
  unfold putRun
  split
  · exact put_length_le h
  · exact h

theorem expandRuns_length_le (stop : Time) (es : List Edge) {a : BitBuffer} (h : a.bits.length ≤ Config.bitCap) :
    (expandRuns stop es a).bits.length ≤ Config.bitCap := by
  induction es generalizing a with
  | nil => exact h
  | cons e es ih =>
    cases es with
    | nil => exact putRun_length_le h
    | cons f rest => exact ih (putRun_length_le h)

end Sys2Proof.Machine
end

