-- ==== Sys2Proof/Laws/Threshold.lean ====
section
/-! SUPPORT. What the threshold step does (43_threshold.md). -/

namespace Sys2Proof.Machine

/-- The window after a sample: it grows to WINDOW_CAP, then drops its oldest sample (R190). -/
theorem windowPush_eq (b : Byte) (win : List Byte) :
    windowPush b win = if win.length < Config.windowCap then win ++ [b] else win.drop 1 ++ [b] := by
  unfold windowPush
  simp only [List.length_append, List.length_cons, List.length_nil]
  by_cases h : win.length < Config.windowCap
  · rw [if_neg (by omega), if_pos h]
  · rw [if_pos (by omega), if_neg h, List.drop_append_of_le_length]
    simp only [Config.windowCap] at h
    omega

theorem windowPush_length_le {b : Byte} {win : List Byte} (h : win.length ≤ Config.windowCap) :
    (windowPush b win).length ≤ Config.windowCap := by
  rw [windowPush_eq]
  split
  · simp; omega
  · simp only [List.length_append, List.length_drop, List.length_cons, List.length_nil]
    simp only [Config.windowCap] at *
    omega

/-- The two percentile indices are in range (R192). -/
theorem percentile_index {win : List Byte} (h : Config.winMin ≤ win.length) :
    win.length / 10 < win.length ∧ 9 * win.length / 10 < win.length ∧ win.length / 10 ≤ 9 * win.length / 10 := by
  simp only [Config.winMin] at h
  omega

theorem percentile10_mem {win : List Byte} (h : Config.winMin ≤ win.length) : percentile10 win ∈ win :=
  (sortSamples_perm win).subset (sampleAt_mem (by simpa using (percentile_index h).1))

theorem percentile90_mem {win : List Byte} (h : Config.winMin ≤ win.length) : percentile90 win ∈ win :=
  (sortSamples_perm win).subset (sampleAt_mem (by simpa using (percentile_index h).2.1))

theorem percentile10_le_percentile90 {win : List Byte} (h : Config.winMin ≤ win.length) :
    (percentile10 win).toNat ≤ (percentile90 win).toNat :=
  sampleAt_mono (sortSamples_pairwise win) (percentile_index h).2.2 (by simpa using (percentile_index h).2.1)

/-- The selected threshold as an integer (R194). -/
theorem selectThr2_toNat (cal : Bool) (baseline p10 p90 swing : Byte) :
    (selectThr2 cal baseline p10 p90 swing).toNat =
      if cal then 2 * (baseline.toNat + Config.calOffset)
      else if Config.swingFloor ≤ swing.toNat then p10.toNat + p90.toNat
      else 2 * Config.defaultThreshold := by
  have hb := byte_toNat_lt baseline
  have h10 := byte_toNat_lt p10
  have h90 := byte_toNat_lt p90
  unfold selectThr2
  simp only [Config.calOffset, Config.defaultThreshold]
  split
  · rw [BitVec.toNat_ofNat]; omega
  · split
    · rw [BitVec.toNat_ofNat]; omega
    · rfl

/-- The threshold step with fewer than WIN_MIN samples (R191). -/
theorem tePush_warm_up {b : Byte} {r : RxSession} (h : (windowPush b r.win).length < Config.winMin) :
    tePush b r = { r with win := windowPush b r.win } := by
  unfold tePush
  dsimp only
  rw [if_neg (by omega)]

/-- The threshold step with at least WIN_MIN samples (R192 to R194). -/
theorem tePush_recompute {b : Byte} {r : RxSession} (h : Config.winMin ≤ (windowPush b r.win).length) :
    tePush b r = recompute { r with win := windowPush b r.win } := by
  unfold tePush
  dsimp only
  rw [if_pos h]

end Sys2Proof.Machine
end

