-- ==== Sys2Proof/Laws/Receive.lean ====
section
/-! SUPPORT. What each step of a push writes (44_receive.md R220): one lemma per step and per field it leaves, and the
cases of the run tracker. -/

namespace Sys2Proof.Machine

/-- The run tracker writes the run, the edge list and EDGE_OVF only (R225 to R228). -/
theorem trackRun_eq (lvl : Bool) (now : Time) (r : RxSession) :
    ∃ o l st es ov, trackRun lvl now r =
      { r with runOpen := o, runLvl := l, runStart := st, edges := es, edgeOvf := ov } := by
  unfold trackRun acceptTransition
  split
  · exact ⟨true, lvl, now, r.edges, r.edgeOvf, rfl⟩
  · split
    · exact ⟨r.runOpen, r.runLvl, r.runStart, r.edges, r.edgeOvf, rfl⟩
    · split
      · split
        · split
          · exact ⟨r.runOpen, lvl, now, _, r.edgeOvf, rfl⟩
          · exact ⟨r.runOpen, lvl, now, r.edges, true, rfl⟩
        · exact ⟨r.runOpen, lvl, now, r.edges, r.edgeOvf, rfl⟩
      · exact ⟨r.runOpen, r.runLvl, r.runStart, r.edges, r.edgeOvf, rfl⟩

/-- The state machine writes STATE, ORIGIN, the edge list, EDGE_OVF and the result record only (R231 to R234). -/
theorem stepState_eq (lvl : Bool) (now : Time) (rd : Int) (r : RxSession) :
    ∃ ph og es ov q, (stepState lvl now rd r).1 =
      { r with phase := ph, origin := og, edges := es, edgeOvf := ov, res := q } := by
  unfold stepState
  cases hp : r.phase
  · simp only [stepIdle]
    split
    · exact ⟨.waitForLow, r.origin, r.edges, r.edgeOvf, r.res, rfl⟩
    · exact ⟨r.phase, r.origin, r.edges, r.edgeOvf, r.res, rfl⟩
  · simp only [stepWaitForLow]
    split
    · exact ⟨.receiving, now, _, false, r.res, rfl⟩
    · exact ⟨r.phase, r.origin, r.edges, r.edgeOvf, r.res, rfl⟩
  · simp only [stepReceiving]
    split
    · exact ⟨.done, r.origin, r.edges, r.edgeOvf, _, rfl⟩
    · split
      · exact ⟨.done, r.origin, r.edges, r.edgeOvf, _, rfl⟩
      · exact ⟨r.phase, r.origin, r.edges, r.edgeOvf, r.res, rfl⟩
  · exact ⟨r.phase, r.origin, r.edges, r.edgeOvf, r.res, rfl⟩

@[simp] theorem trackRun_phase (lvl : Bool) (now : Time) (r : RxSession) : (trackRun lvl now r).phase = r.phase := by
  obtain ⟨_, _, _, _, _, h⟩ := trackRun_eq lvl now r; rw [h]
@[simp] theorem trackRun_ready (lvl : Bool) (now : Time) (r : RxSession) : (trackRun lvl now r).ready = r.ready := by
  obtain ⟨_, _, _, _, _, h⟩ := trackRun_eq lvl now r; rw [h]
@[simp] theorem trackRun_win (lvl : Bool) (now : Time) (r : RxSession) : (trackRun lvl now r).win = r.win := by
  obtain ⟨_, _, _, _, _, h⟩ := trackRun_eq lvl now r; rw [h]
@[simp] theorem trackRun_thr2 (lvl : Bool) (now : Time) (r : RxSession) : (trackRun lvl now r).thr2 = r.thr2 := by
  obtain ⟨_, _, _, _, _, h⟩ := trackRun_eq lvl now r; rw [h]
@[simp] theorem trackRun_swing (lvl : Bool) (now : Time) (r : RxSession) : (trackRun lvl now r).swing = r.swing := by
  obtain ⟨_, _, _, _, _, h⟩ := trackRun_eq lvl now r; rw [h]
@[simp] theorem trackRun_p10 (lvl : Bool) (now : Time) (r : RxSession) : (trackRun lvl now r).p10 = r.p10 := by
  obtain ⟨_, _, _, _, _, h⟩ := trackRun_eq lvl now r; rw [h]
@[simp] theorem trackRun_p90 (lvl : Bool) (now : Time) (r : RxSession) : (trackRun lvl now r).p90 = r.p90 := by
  obtain ⟨_, _, _, _, _, h⟩ := trackRun_eq lvl now r; rw [h]
@[simp] theorem trackRun_cal (lvl : Bool) (now : Time) (r : RxSession) : (trackRun lvl now r).cal = r.cal := by
  obtain ⟨_, _, _, _, _, h⟩ := trackRun_eq lvl now r; rw [h]
@[simp] theorem trackRun_baseline (lvl : Bool) (now : Time) (r : RxSession) : (trackRun lvl now r).baseline = r.baseline := by
  obtain ⟨_, _, _, _, _, h⟩ := trackRun_eq lvl now r; rw [h]
@[simp] theorem trackRun_origin (lvl : Bool) (now : Time) (r : RxSession) : (trackRun lvl now r).origin = r.origin := by
  obtain ⟨_, _, _, _, _, h⟩ := trackRun_eq lvl now r; rw [h]
@[simp] theorem trackRun_sampleCnt (lvl : Bool) (now : Time) (r : RxSession) : (trackRun lvl now r).sampleCnt = r.sampleCnt := by
  obtain ⟨_, _, _, _, _, h⟩ := trackRun_eq lvl now r; rw [h]
@[simp] theorem trackRun_firstTs (lvl : Bool) (now : Time) (r : RxSession) : (trackRun lvl now r).firstTs = r.firstTs := by
  obtain ⟨_, _, _, _, _, h⟩ := trackRun_eq lvl now r; rw [h]
@[simp] theorem trackRun_lastTs (lvl : Bool) (now : Time) (r : RxSession) : (trackRun lvl now r).lastTs = r.lastTs := by
  obtain ⟨_, _, _, _, _, h⟩ := trackRun_eq lvl now r; rw [h]
@[simp] theorem trackRun_res (lvl : Bool) (now : Time) (r : RxSession) : (trackRun lvl now r).res = r.res := by
  obtain ⟨_, _, _, _, _, h⟩ := trackRun_eq lvl now r; rw [h]

@[simp] theorem stepState_ready (lvl : Bool) (now : Time) (rd : Int) (r : RxSession) :
    (stepState lvl now rd r).1.ready = r.ready := by
  obtain ⟨_, _, _, _, _, h⟩ := stepState_eq lvl now rd r; rw [h]
@[simp] theorem stepState_win (lvl : Bool) (now : Time) (rd : Int) (r : RxSession) :
    (stepState lvl now rd r).1.win = r.win := by
  obtain ⟨_, _, _, _, _, h⟩ := stepState_eq lvl now rd r; rw [h]
@[simp] theorem stepState_thr2 (lvl : Bool) (now : Time) (rd : Int) (r : RxSession) :
    (stepState lvl now rd r).1.thr2 = r.thr2 := by
  obtain ⟨_, _, _, _, _, h⟩ := stepState_eq lvl now rd r; rw [h]
@[simp] theorem stepState_swing (lvl : Bool) (now : Time) (rd : Int) (r : RxSession) :
    (stepState lvl now rd r).1.swing = r.swing := by
  obtain ⟨_, _, _, _, _, h⟩ := stepState_eq lvl now rd r; rw [h]
@[simp] theorem stepState_p10 (lvl : Bool) (now : Time) (rd : Int) (r : RxSession) :
    (stepState lvl now rd r).1.p10 = r.p10 := by
  obtain ⟨_, _, _, _, _, h⟩ := stepState_eq lvl now rd r; rw [h]
@[simp] theorem stepState_p90 (lvl : Bool) (now : Time) (rd : Int) (r : RxSession) :
    (stepState lvl now rd r).1.p90 = r.p90 := by
  obtain ⟨_, _, _, _, _, h⟩ := stepState_eq lvl now rd r; rw [h]
@[simp] theorem stepState_cal (lvl : Bool) (now : Time) (rd : Int) (r : RxSession) :
    (stepState lvl now rd r).1.cal = r.cal := by
  obtain ⟨_, _, _, _, _, h⟩ := stepState_eq lvl now rd r; rw [h]
@[simp] theorem stepState_baseline (lvl : Bool) (now : Time) (rd : Int) (r : RxSession) :
    (stepState lvl now rd r).1.baseline = r.baseline := by
  obtain ⟨_, _, _, _, _, h⟩ := stepState_eq lvl now rd r; rw [h]
@[simp] theorem stepState_runOpen (lvl : Bool) (now : Time) (rd : Int) (r : RxSession) :
    (stepState lvl now rd r).1.runOpen = r.runOpen := by
  obtain ⟨_, _, _, _, _, h⟩ := stepState_eq lvl now rd r; rw [h]
@[simp] theorem stepState_runLvl (lvl : Bool) (now : Time) (rd : Int) (r : RxSession) :
    (stepState lvl now rd r).1.runLvl = r.runLvl := by
  obtain ⟨_, _, _, _, _, h⟩ := stepState_eq lvl now rd r; rw [h]
@[simp] theorem stepState_runStart (lvl : Bool) (now : Time) (rd : Int) (r : RxSession) :
    (stepState lvl now rd r).1.runStart = r.runStart := by
  obtain ⟨_, _, _, _, _, h⟩ := stepState_eq lvl now rd r; rw [h]
@[simp] theorem stepState_sampleCnt (lvl : Bool) (now : Time) (rd : Int) (r : RxSession) :
    (stepState lvl now rd r).1.sampleCnt = r.sampleCnt := by
  obtain ⟨_, _, _, _, _, h⟩ := stepState_eq lvl now rd r; rw [h]
@[simp] theorem stepState_firstTs (lvl : Bool) (now : Time) (rd : Int) (r : RxSession) :
    (stepState lvl now rd r).1.firstTs = r.firstTs := by
  obtain ⟨_, _, _, _, _, h⟩ := stepState_eq lvl now rd r; rw [h]
@[simp] theorem stepState_lastTs (lvl : Bool) (now : Time) (rd : Int) (r : RxSession) :
    (stepState lvl now rd r).1.lastTs = r.lastTs := by
  obtain ⟨_, _, _, _, _, h⟩ := stepState_eq lvl now rd r; rw [h]

/-! The steps of a push that is behind the gate, and of one that is not (R224). -/

theorem pushSession_of_not_ready {r : RxSession} (h : r.ready = false) (b : Byte) (now : Time) :
    pushSession b now r = (feedSession b now r, false) := by
  simp [pushSession, gatedSteps, feedSession, h]

theorem pushSession_of_ready {r : RxSession} (h : r.ready = true) (b : Byte) (now : Time) :
    pushSession b now r =
      stepState (classify b (feedSession b now r)) now
        (sdiff now (trackRun (classify b (feedSession b now r)) now (feedSession b now r)).runStart)
        (trackRun (classify b (feedSession b now r)) now (feedSession b now r)) := by
  simp [pushSession, gatedSteps, feedSession, h]

/-! The cases of the run tracker (R225 to R228). -/

theorem trackRun_opens {r : RxSession} (h : r.runOpen = false) (lvl : Bool) (now : Time) :
    trackRun lvl now r = { r with runOpen := true, runLvl := lvl, runStart := now } := by
  simp [trackRun, h]

theorem trackRun_keeps {r : RxSession} {lvl : Bool} {now : Time} (h : r.runOpen = true)
    (hl : lvl = r.runLvl ∨ sdiff now r.runStart < Config.minRun) : trackRun lvl now r = r := by
  unfold trackRun
  rw [if_neg (by simp [h])]
  split
  · rfl
  · rename_i hne
    rw [if_neg]
    rcases hl with hl | hl
    · exact absurd hl hne
    · omega

theorem trackRun_accepts {r : RxSession} {lvl : Bool} {now : Time} (h : r.runOpen = true) (hl : lvl ≠ r.runLvl)
    (hd : (Config.minRun : Int) ≤ sdiff now r.runStart) : trackRun lvl now r = acceptTransition lvl now r := by
  unfold trackRun
  rw [if_neg (by simp [h]), if_neg hl, if_pos hd]

/-- After the run tracker a run is open (R225). -/
theorem trackRun_runOpen (lvl : Bool) (now : Time) (r : RxSession) : (trackRun lvl now r).runOpen = true := by
  cases h : r.runOpen
  · rw [trackRun_opens h]
  · by_cases hk : lvl = r.runLvl ∨ sdiff now r.runStart < Config.minRun
    · rw [trackRun_keeps h hk, h]
    · rw [trackRun_accepts h (fun e => hk (.inl e)) (by have := mt Or.inr hk; omega)]
      unfold acceptTransition
      split
      · split <;> exact h
      · exact h

/-- Outside RECEIVING the run tracker leaves the edge list (R227). -/
theorem trackRun_edges_of_not_receiving {r : RxSession} (h : r.phase ≠ .receiving) (lvl : Bool) (now : Time) :
    (trackRun lvl now r).edges = r.edges ∧ (trackRun lvl now r).edgeOvf = r.edgeOvf := by
  unfold trackRun acceptTransition
  rw [if_neg h]
  split
  · exact ⟨rfl, rfl⟩
  · split
    · exact ⟨rfl, rfl⟩
    · split <;> exact ⟨rfl, rfl⟩

end Sys2Proof.Machine
end

