-- ==== Sys2Proof/Laws/Transmit.lean ====
section
/-! SUPPORT. The schedule and one round of the tick loop (42_transmit.md R143, R164). -/

namespace Sys2Proof.Machine

/-! The schedule (R143). -/

theorem scheduleEntry_zero (buf : Bits) (t0 : Time) : scheduleEntry buf t0 0 = some ⟨t0, some true⟩ := rfl

theorem scheduleEntry_one (buf : Bits) (t0 : Time) :
    scheduleEntry buf t0 1 = some ⟨add32 t0 Config.startDuration, some false⟩ := rfl

theorem scheduleEntry_bit {buf : Bits} {i : Nat} {v : Bool} (h : buf[i]? = some v) (t0 : Time) :
    scheduleEntry buf t0 (2 + i) = some ⟨add32 t0 (Config.startDuration + Config.bitPeriod * i), some v⟩ := by
  have hi : i < buf.length := (List.getElem?_eq_some_iff.1 h).1
  unfold scheduleEntry
  simp only
  rw [if_neg (by omega), if_neg (by omega), if_pos (by omega), show 2 + i - 2 = i by omega,
    List.getD_eq_getElem?_getD, h]
  rfl

theorem scheduleEntry_stop (buf : Bits) (t0 : Time) :
    scheduleEntry buf t0 (buf.length + 2) =
      some ⟨add32 t0 (Config.startDuration + Config.bitPeriod * buf.length), some false⟩ := by
  unfold scheduleEntry
  simp

theorem scheduleEntry_completion (buf : Bits) (t0 : Time) :
    scheduleEntry buf t0 (buf.length + 3) =
      some ⟨add32 t0 (Config.startDuration + Config.bitPeriod * buf.length + Config.stopDuration), none⟩ := by
  unfold scheduleEntry
  simp

theorem scheduleEntry_beyond {buf : Bits} {k : Nat} (h : buf.length + 3 < k) (t0 : Time) :
    scheduleEntry buf t0 k = none := by
  unfold scheduleEntry
  simp only
  rw [if_neg (by omega), if_neg (by omega), if_neg (by omega), if_neg (by omega), if_neg (by omega)]

/-- The schedule has an entry for each `k` up to `N + 3`; the last one is the completion and the only one without a
level. -/
theorem scheduleEntry_exists {buf : Bits} {k : Nat} (h : k ≤ buf.length + 3) (t0 : Time) :
    ∃ e, scheduleEntry buf t0 k = some e ∧ (e.level = none ↔ k = buf.length + 3) := by
  rcases Nat.lt_or_ge k 2 with h2 | h2
  · match k, h2 with
    | 0, _ => exact ⟨_, rfl, by simp⟩
    | 1, _ => exact ⟨_, rfl, by simp⟩
  · rcases Nat.lt_or_ge k (buf.length + 2) with hk | hk
    · obtain ⟨i, rfl⟩ : ∃ i, k = 2 + i := ⟨k - 2, by omega⟩
      have hi : i < buf.length := by omega
      exact ⟨_, scheduleEntry_bit (List.getElem?_eq_getElem hi) t0, by simp; omega⟩
    · rcases Nat.eq_or_lt_of_le hk with rfl | hk'
      · exact ⟨_, scheduleEntry_stop buf t0, by simp⟩
      · obtain rfl : k = buf.length + 3 := by omega
        exact ⟨_, scheduleEntry_completion buf t0, by simp⟩

/-! One round of the loop (R164). -/

theorem tickLoop_idle {t : TxUnit} (h : t.busy = false) (now : Time) (fuel : Nat) (evs : List ActEvent) :
    tickLoop now fuel t evs = (t, evs) := by
  cases fuel <;> simp [tickLoop, h]

theorem tickLoop_not_due {t : TxUnit} {e : ScheduleEntry} {now : Time}
    (he : scheduleEntry t.buf t.t0 t.k.toNat = some e) (hd : entryDue now e = false) (fuel : Nat)
    (evs : List ActEvent) : tickLoop now fuel t evs = (t, evs) := by
  cases fuel <;> simp [tickLoop, he, hd]

theorem tickLoop_completion {t : TxUnit} {e : ScheduleEntry} {now : Time} (hb : t.busy = true)
    (he : scheduleEntry t.buf t.t0 t.k.toNat = some e) (hd : entryDue now e = true) (hl : e.level = none)
    (fuel : Nat) (evs : List ActEvent) :
    tickLoop now (fuel + 1) t evs = ({ t with busy := false, outcome := .ok }, evs) := by
  simp [tickLoop, hb, he, hd, hl]

theorem tickLoop_perform {t : TxUnit} {e : ScheduleEntry} {now : Time} {l : Bool} (hb : t.busy = true)
    (he : scheduleEntry t.buf t.t0 t.k.toNat = some e) (hd : entryDue now e = true) (hl : e.level = some l)
    (fuel : Nat) (evs : List ActEvent) :
    tickLoop now (fuel + 1) t evs =
      tickLoop now fuel { t with act := l, k := t.k + 1#13 } (evs ++ [⟨l, .event t.k.toNat e.target⟩]) := by
  simp [tickLoop, hb, he, hd, hl]

/-- TX_K does not wrap while it indexes a schedule of at most TX_CAP bits (10_state.md R44). -/
theorem next_k_toNat {t : TxUnit} (hbuf : t.buf.length ≤ Config.txCap) (hk : t.k.toNat ≤ t.buf.length + 3) :
    (t.k + 1#13).toNat = t.k.toNat + 1 := by
  simp only [Config.txCap] at hbuf
  rw [BitVec.toNat_add]
  simp
  omega

end Sys2Proof.Machine
end

