-- ==== Sys2Proof/Tests/Slice0.lean ====
section
/-! SUPPORT. Tests of the model on single words and single steps, with results taken from spec/95_test_vectors.md (named
in each docstring) or from the rule named there, and one witness for each hypothesis of the obligations. -/

namespace Sys2Proof.Tests

open Sys2Proof.Machine

/-! ### Decoding: words built from the fields of 30_encoding.md R80 and the rows of R83 -/

/-- R80's example, and the RX control opcodes. -/
theorem test_decode_rx_control :
    decode .rx (0b00000001#8 ++ 0b00000000#8 ++ 0b0000000011011100#16 ++ 1000#32) = .ok (.rxPush 220#8 1000#32) ∧
    decode .rx 0x0200000000000000#64 = .ok .rxReset ∧
    decode .rx 0x0300000000000000#64 = .ok .rxCalibrate ∧
    decode .rx 0x0400000000000000#64 = .ok .rxMarkReady ∧
    decode .rx 0x0500000000000000#64 = .ok .rxMarkNotReady := by
  decide

/-- The RX readers: `idx = A[15:0]`. -/
theorem test_decode_rx_readers :
    decode .rx (0b00001000#8 ++ 0b00000000#8 ++ 0b0000000000100000#16 ++ 0#32) = .ok (.rxReadReg 0x20#16) ∧
    decode .rx 0x0900009500000000#64 = .ok (.rxReadWin 149#16) ∧
    decode .rx 0x0A00000100000000#64 = .ok (.rxReadEdge 1#16) ∧
    decode .rx 0x0B000FFF00000000#64 = .ok (.rxReadResBit 4095#16) ∧
    decode .rx 0x0C00FFFF00000000#64 = .ok (.rxReadResByte 0xFFFF#16) := by
  decide

/-- The TX control opcodes; `v = A[0]`. -/
theorem test_decode_tx_control :
    decode .tx 0x2100000000000000#64 = .ok .txClear ∧
    decode .tx (0b00100010#8 ++ 0b00000000#8 ++ 0b0000000001001000#16 ++ 0#32) = .ok (.txAppendByte 0x48#8) ∧
    decode .tx 0x2300000100000000#64 = .ok (.txAppendBit true) ∧
    decode .tx 0x24000000FFFFFF00#64 = .ok (.txStart 0xFFFFFF00#32) ∧
    decode .tx 0x2500000000001388#64 = .ok (.txTick 5000#32) ∧
    decode .tx 0x2600000000000000#64 = .ok .txActFail := by
  decide

/-- The TX readers. -/
theorem test_decode_tx_readers :
    decode .tx 0x2800000500000000#64 = .ok (.txReadReg 5#16) ∧
    decode .tx 0x29000FFF00000000#64 = .ok (.txReadBuf 4095#16) ∧
    decode .tx (0b00101010#8 ++ 0b00000000#8 ++ 0b0000000000001101#16 ++ 1000#32) =
      .ok (.txReadEvent 13#16 1000#32) := by
  decide

/-- The codec and constant opcodes, on both ports. -/
theorem test_decode_both_ports :
    decode .tx (0b01000000#8 ++ 0b00000000#8 ++ 0b0000000001001000#16 ++ 0#32) = .ok (.codecEncByte 0x48#8) ∧
    decode .rx 0x4100001100000000#64 = .ok (.codecDecSym 0b10001#5) ∧
    decode .rx 0x4200022E00000000#64 = .ok (.codecDecTen 0x22E#10) ∧
    decode .tx (0b01001000#8 ++ 0b00000000#8 ++ 0b0000000000001100#16 ++ 0#32) = .ok (.constRead 12#16) := by
  decide

/-- 95_test_vectors.md §2.7: unassigned opcodes and opcodes on the other port. -/
theorem test_decode_illegal :
    decode .rx 0x0000000000000000#64 = .error .illegalOpcode ∧
    decode .tx 0xFF00000000000000#64 = .error .illegalOpcode ∧
    decode .rx 0x0600000000000000#64 = .error .illegalOpcode ∧
    decode .tx 0x0100001400000000#64 = .error .illegalOpcode ∧
    decode .rx 0x2500000000000005#64 = .error .illegalOpcode := by
  decide

/-- 95_test_vectors.md §2.1, §2.7: the must-be-zero bits next to each operand. -/
theorem test_decode_reserved :
    decode .rx 0x0100012000000000#64 = .error .reservedField ∧
    decode .rx 0x0101001400000000#64 = .error .reservedField ∧
    decode .rx 0x0200000000000001#64 = .error .reservedField ∧
    decode .rx 0x0800000000000010#64 = .error .reservedField ∧
    decode .tx 0x2300000200000000#64 = .error .reservedField ∧
    decode .tx 0x2200010000000000#64 = .error .reservedField ∧
    decode .tx 0x2400000100000000#64 = .error .reservedField ∧
    decode .rx 0x4100002000000000#64 = .error .reservedField ∧
    decode .rx 0x4200040000000000#64 = .error .reservedField := by
  decide

/-- 20_memory.md R63: `RX_PUSH 220, 1000` on a byte-wide transport, least significant byte first. -/
theorem test_decode_bytes :
    decodeBytes .rx [0xE8#8, 0x03#8, 0x00#8, 0x00#8, 0xDC#8, 0x00#8, 0x00#8, 0x01#8] =
      some (.ok (.rxPush 220#8 1000#32)) ∧
    decodeBytes .rx [0xE8#8, 0x03#8] = none := by
  decide

/-- The host's table word of a TX row and of a row both ports admit. -/
theorem test_decode_table_word :
    decodeTableWord 64 0x2300000100000000 = some (.txAppendBit true) ∧
    decodeTableWord 64 0x4800000C00000000 = some (.constRead 12#16) ∧
    decodeTableWord 64 0x0600000000000000 = none := by
  decide

/-! ### Well-formedness: each check refuses an ill-formed term (R82, R95) -/

theorem test_port_refused :
    (Instr.rxPush 20#8 0#32).wellFormedOn .tx = false ∧ (Instr.txTick 0#32).wellFormedOn .rx = false ∧
    (Instr.codecEncByte 0x48#8).wellFormedOn .tx = true := by
  decide

/-- R95: "for example `b > 255`". -/
theorem test_operand_b_refused :
    (AsmLine.mk none .rxPush [256, 0]).wellFormed = false ∧ (AsmLine.mk none .rxPush [255, 0]).wellFormed = true := by
  decide

theorem test_operand_t_refused :
    (AsmLine.mk none .txTick [2 ^ 32]).wellFormed = false ∧
    (AsmLine.mk none .txTick [2 ^ 32 - 1]).wellFormed = true := by
  decide

theorem test_operand_v_refused :
    (AsmLine.mk none .txAppendBit [2]).wellFormed = false ∧ (AsmLine.mk none .txAppendBit [1]).wellFormed = true := by
  decide

theorem test_operand_c_refused :
    (AsmLine.mk none .codecDecSym [32]).wellFormed = false ∧ (AsmLine.mk none .codecDecSym [31]).wellFormed = true := by
  decide

theorem test_operand_g_refused :
    (AsmLine.mk none .codecDecTen [1024]).wellFormed = false ∧
    (AsmLine.mk none .codecDecTen [1023]).wellFormed = true := by
  decide

theorem test_operand_idx_refused :
    (AsmLine.mk none .rxReadReg [65536]).wellFormed = false ∧
    (AsmLine.mk none .txReadEvent [65536, 0]).wellFormed = false := by
  decide

theorem test_operand_count_refused :
    (AsmLine.mk none .rxPush [20]).wellFormed = false ∧ (AsmLine.mk none .txClear [0]).wellFormed = false := by
  decide

/-! ### Assembly and pseudo-commands (R95, R96) -/

/-- 95_test_vectors.md §1.1, §2.2: the words and ports of three lines. -/
theorem test_assemble :
    lineInput ⟨none, .txReadEvent, [13, 1000]⟩ = some (.command .tx 0x2A00000D000003E8#64) ∧
    lineInput ⟨some .tx, .codecEncByte, [0x41]⟩ = some (.command .tx 0x4000004100000000#64) ∧
    lineInput ⟨none, .txTick, [0x610]⟩ = some (.command .tx 0x2500000000000610#64) := by
  decide

/-- 95_test_vectors.md §3: the pushes at 1760 and 1800 of the frame of 0x48 with origin 1000. -/
theorem test_push_signal :
    rxPushSignal 220 20 (messageBits [0x48#8]) 1000#32 1760 1800 40 =
      [⟨none, .rxPush, [220, 1760]⟩, ⟨none, .rxPush, [20, 1800]⟩] := by
  decide

/-! ### One step: response words from spec/95_test_vectors.md -/

/-- The response word of the step that performs a word on a port. -/
def answerTo (s : State) (p : Port) (w : Word) : Option Word :=
  match step { s with pending := [.command p w] } with
  | .next t => (lastReply t).map Reply.word
  | .fault _ => none
  | .refused _ => none

/-- The state after a command, itself where the command does not complete. -/
def after (i : Instr) (s : State) : State :=
  match exec i s with
  | .next t => t
  | .fault _ => s
  | .refused _ => s

/-- Reset with another RX session. -/
def rxState (r : RxSession) : State := { State.reset with rx := r }

/-- Reset with another TX unit, on the TX port. -/
def txState (t : TxUnit) : State := { State.reset with port := .tx, tx := t }

/-- The bits of 0x48 (95_test_vectors.md X1). -/
def bitsOfH : Bits := [false, true, false, true, false, true, false, false, true, false]

/-- The transmission of 0x48 from 1000, nothing performed yet (X2). -/
def sending : TxUnit := { TxUnit.reset with buf := bitsOfH, busy := true, t0 := 1000#32 }

/-- The session of S3 before its last push, with an empty window. -/
def receiving : RxSession :=
  { RxSession.reset with
    phase := .receiving, ready := true, thr2 := 100#10, cal := true, baseline := 20#8, runOpen := true,
    runStart := 1700#32, origin := 1500#32, edges := [⟨0#32, false⟩, ⟨100#32, true⟩, ⟨200#32, false⟩],
    sampleCnt := 18#32, lastTs := 2349#32 }

/-- A session in WAIT_FOR_LOW, as S1 leaves it. -/
def waiting : RxSession :=
  { RxSession.reset with
    phase := .waitForLow, ready := true, thr2 := 100#10, cal := true, baseline := 20#8, runOpen := true,
    runLvl := true, runStart := 1000#32, sampleCnt := 15#32, lastTs := 1480#32 }

/-- A session in DONE with the result of "H" (§3). -/
def received : RxSession :=
  { RxSession.reset with
    phase := .done, ready := true, runOpen := true, edges := [⟨0#32, false⟩, ⟨200#32, true⟩],
    res := ⟨true, .stop, false, false, 2000#32, bitsOfH⟩ }

/-- R20, S1: WAIT_FOR_LOW exactly at a run of 480 ms. -/
theorem test_push_start_trigger :
    (after (.rxPush 220#8 1479#32) (rxState { waiting with phase := .idle })).rx.phase = .idle ∧
    answerTo (rxState { waiting with phase := .idle }) .rx 0x010000DC000005C8#64 = some 0x000000000000001A#64 := by
  decide

/-- S3: DONE exactly at a LOW run of 650 ms, RES_STOP 400, bits 010. -/
theorem test_push_stop_trigger :
    answerTo (rxState receiving) .rx 0x010000140000092D#64 = some 0x0000000000000014#64 ∧
    answerTo (rxState receiving) .rx 0x010000140000092E#64 = some 0x0000000000000017#64 ∧
    (after (.rxPush 20#8 2350#32) (rxState receiving)).rx.res =
      ⟨true, .stop, false, false, 400#32, [false, true, false]⟩ := by
  decide

/-- T5: six samples of 10 and six of 51 give P10 10, P90 51, SWING 41, THR2 61. -/
theorem test_estimator_odd_sum :
    (let r := tePush 51#8 { RxSession.reset with win := List.replicate 6 10#8 ++ List.replicate 5 51#8 }
     (r.p10, r.p90, r.swing, r.thr2)) = (10#8, 51#8, 41#8, 61#10) := by
  decide

/-- T5: under THR2 = 61 a sample of 30 is LOW and one of 31 is HIGH. -/
theorem test_classify :
    classify 30#8 { RxSession.reset with thr2 := 61#10 } = false ∧
    classify 31#8 { RxSession.reset with thr2 := 61#10 } = true := by
  decide

/-- R240, §2.4 S10. -/
theorem test_rx_reset :
    answerTo (rxState received) .rx 0x0200000000000000#64 = some 0x0000000000000000#64 ∧
    answerTo (after .rxReset (rxState received)) .rx 0x0800000200000000#64 = some 0x0000000000000100#64 := by
  decide

/-- T2: nine samples have no effect, ten give the upper median 50. -/
theorem test_calibrate :
    answerTo (rxState { RxSession.reset with win := [0#8, 10#8, 20#8, 30#8, 40#8, 50#8, 60#8, 70#8, 80#8] }) .rx
      0x0300000000000000#64 = some 0x0000000000000000#64 ∧
    (after .rxCalibrate (rxState { RxSession.reset with
      win := [90#8, 10#8, 20#8, 30#8, 40#8, 50#8, 60#8, 70#8, 80#8, 0#8] })).rx.baseline = 50#8 := by
  decide

/-- R241 and P3. -/
theorem test_mark_ready :
    answerTo State.reset .rx 0x0400000000000000#64 = some 0x0000000000000000#64 ∧
    (after .rxMarkReady State.reset).rx.ready = true := by
  decide

/-- R242 and S9. -/
theorem test_mark_not_ready :
    answerTo (rxState receiving) .rx 0x0500000000000000#64 = some 0x0000000000000000#64 ∧
    (after .rxMarkNotReady (rxState receiving)).rx.ready = false := by
  decide

/-- §3 and §2.7: RES_INFO of a result is 3 and is 0 without one. -/
theorem test_rx_read_reg_result :
    answerTo (rxState received) .rx 0x0800002000000000#64 = some 0x0000000000000003#64 ∧
    answerTo State.reset .rx 0x0800002000000000#64 = some 0x0000000000000000#64 ∧
    answerTo State.reset .rx 0x0800001200000000#64 = some 0x0300000000000000#64 := by
  decide

/-- T6: 151 pushes in 150 ms are 1000000 mHz. -/
theorem test_rx_read_reg_rate :
    answerTo (rxState { RxSession.reset with sampleCnt := 151#32, lastTs := 150#32 }) .rx 0x0800001100000000#64 =
      some 0x00000000000F4240#64 := by
  decide

/-- §3 and §2.7. -/
theorem test_rx_read_win :
    answerTo (rxState { RxSession.reset with win := [20#8] }) .rx 0x0900000000000000#64 =
      some 0x0000000000000014#64 ∧
    answerTo State.reset .rx 0x0900000000000000#64 = some 0x0300000000000000#64 := by
  decide

/-- §3. -/
theorem test_rx_read_edge :
    answerTo (rxState received) .rx 0x0A00000100000000#64 = some 0x00000001000000C8#64 := by
  decide

/-- §3: bit 1 of "H" is 1; there is no bit 10. -/
theorem test_rx_read_res_bit :
    answerTo (rxState received) .rx 0x0B00000100000000#64 = some 0x0000000000000001#64 ∧
    answerTo (rxState received) .rx 0x0B00000A00000000#64 = some 0x0300000000000000#64 := by
  decide

/-- §3: group 0 of "H". -/
theorem test_rx_read_res_byte :
    answerTo (rxState received) .rx 0x0C00000000000000#64 = some 0x0000000001520048#64 := by
  decide

/-- §1.7 (Scenario C): the group with the corrupted low symbol. -/
theorem test_rx_read_res_byte_invalid :
    answerTo (rxState { received with res := ⟨true, .stop, false, false, 0#32,
      [false, true, false, true, false, true, false, false, false, true]⟩ }) .rx 0x0C00000000000000#64 =
      some 0x0000000001510500#64 := by
  decide

/-- P1 and §2.7. -/
theorem test_tx_clear :
    answerTo (txState { sending with busy := false }) .tx 0x2100000000000000#64 = some 0x0000000000000000#64 ∧
    (after .txClear (txState { sending with busy := false })).tx.buf = [] ∧
    answerTo (txState sending) .tx 0x2100000000000000#64 = some 0x0400000000000000#64 := by
  decide

/-- X1. -/
theorem test_tx_append_byte :
    answerTo State.reset .tx 0x2200004800000000#64 = some 0x000000000000000A#64 ∧
    (after (.txAppendByte 0x48#8) (txState TxUnit.reset)).tx.buf = bitsOfH := by
  decide

/-- X5. -/
theorem test_tx_append_bit :
    answerTo State.reset .tx 0x2300000100000000#64 = some 0x0000000000000001#64 ∧
    (after (.txAppendBit true) (txState TxUnit.reset)).tx.buf = [true] := by
  decide

/-- §1.9 (Scenario E): the second start is refused. -/
theorem test_tx_start :
    (after (.txStart 1000#32) (txState { TxUnit.reset with buf := bitsOfH })).tx = sending ∧
    answerTo (txState sending) .tx 0x24000000000003E8#64 = some 0x0400000000000000#64 := by
  decide

/-- X3: one late tick performs the 13 entries and the completion. -/
theorem test_tx_tick_late :
    answerTo (txState sending) .tx 0x2500000000001388#64 = some 0x000000000004000D#64 := by
  decide

/-- X2: the two entries that coincide at 1800, with their own targets. -/
theorem test_tx_tick_events :
    (tick 1800#32 { sending with k := 1#13, act := true }).2 =
      [⟨false, .event 1 1800#32⟩, ⟨false, .event 2 1800#32⟩] := by
  decide

/-- X5: the failure forces OFF; a second one has no effect. -/
theorem test_tx_act_fail :
    answerTo (txState { sending with act := true }) .tx 0x2600000000000000#64 = some 0x0000000000000001#64 ∧
    answerTo (after .txActFail (txState { sending with act := true })) .tx 0x2600000000000000#64 =
      some 0x0000000000000000#64 := by
  decide

/-- R310's example: after entry 0 the next target is 1800. -/
theorem test_tx_read_reg :
    answerTo (txState { sending with k := 1#13, act := true }) .tx 0x2800000500000000#64 =
      some 0x0000000000000708#64 ∧
    answerTo (txState sending) .tx 0x2800000600000000#64 = some 0x0300000000000000#64 := by
  decide

/-- R311's example and §2.7. -/
theorem test_tx_read_buf :
    answerTo (txState sending) .tx 0x2900000100000000#64 = some 0x0000000000000001#64 ∧
    answerTo State.reset .tx 0x2900000000000000#64 = some 0x0300000000000000#64 := by
  decide

/-- X1: entries 3, 13 and 14. -/
theorem test_tx_read_event :
    answerTo (txState sending) .tx 0x2A000003000003E8#64 = some 0x00000001000007D0#64 ∧
    answerTo (txState sending) .tx 0x2A00000D000003E8#64 = some 0x000000020000125C#64 ∧
    answerTo (txState sending) .tx 0x2A00000E000003E8#64 = some 0x0300000000000000#64 := by
  decide

/-- X7: the schedule wraps. -/
theorem test_tx_read_event_wrap :
    answerTo (txState sending) .tx 0x2A00000DFFFFFF00#64 = some 0x0000000200000D74#64 := by
  decide

/-- §1.1. -/
theorem test_codec_enc_byte :
    answerTo State.reset .rx 0x4000004800000000#64 = some 0x0000000000000152#64 ∧
    answerTo State.reset .tx 0x4000004100000000#64 = some 0x0000000000000149#64 := by
  decide

/-- §2.1: a code and a pattern that is none. -/
theorem test_codec_dec_sym :
    answerTo State.reset .rx 0x4100001200000000#64 = some 0x0000000000000008#64 ∧
    answerTo State.reset .rx 0x4100001100000000#64 = some 0x0000000000000010#64 := by
  decide

/-- §2.1: a valid group, and the flags of each half. -/
theorem test_codec_dec_ten :
    answerTo State.reset .rx 0x4200015200000000#64 = some 0x0000000000000048#64 ∧
    answerTo State.reset .tx 0x4200022E00000000#64 = some 0x0000000000000300#64 ∧
    answerTo State.reset .rx 0x420003DF00000000#64 = some 0x0000000000000500#64 := by
  decide

/-- §2.6. -/
theorem test_const_read :
    answerTo State.reset .rx 0x4800000C00000000#64 = some 0x000000000000EA60#64 ∧
    answerTo State.reset .tx 0x4800000000000000#64 = some 0x00000000000000C8#64 ∧
    answerTo State.reset .rx 0x4800001000000000#64 = some 0x0300000000000000#64 := by
  decide

/-- §2.7: RESERVED_FIELD before BAD_INDEX, ILLEGAL_OPCODE on the other port. -/
theorem test_error_priority :
    answerTo State.reset .rx 0x0800001200000010#64 = some 0x0200000000000000#64 ∧
    answerTo State.reset .tx 0x0100001400000000#64 = some 0x0100000000000000#64 := by
  decide

/-- §2.5: the boundaries of the rounding. -/
theorem test_round_bits :
    [80, 99, 100, 299, 300, 499, 500, 699, 700, 899, 900, 1099, 1100].map roundBits =
      [1, 1, 1, 1, 2, 2, 3, 3, 4, 4, 5, 5, 6] := by
  decide

/-- §2.5: the trailing run below 80 ms, the skipped pair run, and unequal runs. -/
theorem test_expand_runs :
    (expandRuns 79#32 [⟨0#32, false⟩] ⟨[], false⟩).bits = [] ∧
    (expandRuns 300#32 [⟨0#32, false⟩, ⟨50#32, true⟩] ⟨[], false⟩).bits = [true] ∧
    (expandRuns 700#32 [⟨0#32, false⟩, ⟨250#32, true⟩, ⟨349#32, false⟩] ⟨[], false⟩).bits =
      [false, true, false, false] := by
  decide

/-- `withFetchWord` puts the word where the next step performs it: `TX_APPEND_BYTE 0x48` right after reset. -/
theorem test_fetch_word :
    (match step (State.reset.withFetchWord 64 0x2200004800000000) with
     | .next t => t.tx.buf
     | .fault _ => []
     | .refused _ => []) = bitsOfH := by
  decide

/-! ### Witnesses: states and operands that meet the hypotheses of each obligation -/

/-- Every command answers a next state, so a witness may name it. -/
theorem exec_after (i : Instr) (s : State) : exec i s = .next (after i s) := by
  unfold after
  cases h : i.op.admits s.port
  · rw [exec_of_not_admits h]
  · rw [exec_eq h]

/-- The state after a step. -/
def afterStep (s : State) : State :=
  match step s with
  | .next t => t
  | .fault _ => s
  | .refused _ => s

/-- `DecodeOfEncode`: operands at the ends of their ranges on both ports. -/
theorem witness_DecodeOfEncode :
    (Instr.rxPush 255#8 0xFFFFFFFF#32).wellFormedOn .rx = true ∧
    (Instr.txReadEvent 0xFFFF#16 0xFFFFFFFF#32).wellFormedOn .tx = true ∧
    (Instr.codecDecTen 0x3FF#10).wellFormedOn .tx = true := by
  decide

/-- `DecodeFollowsRule84`, first clause: opcode 0x06, which is unassigned, and RX_PUSH on the TX port. -/
theorem witness_DecodeFollowsRule84_illegal :
    (∀ op : Op, op.code = (0x0600000000000000#64).extractLsb' 56 8 → op.admits .rx = false) ∧
    (∀ op : Op, op.code = (0x0100001400000000#64).extractLsb' 56 8 → op.admits .tx = false) := by
  constructor <;> intro op <;> cases op <;> decide

/-- `DecodeFollowsRule84`, second and third clause: the lowest must-be-zero bit of A set, and no bit set. -/
theorem witness_DecodeFollowsRule84_assigned :
    Op.code .codecDecTen = (0x4200040000000000#64).extractLsb' 56 8 ∧ Op.admits .codecDecTen .rx = true ∧
    0x4200040000000000#64 &&& (Op.mask .codecDecTen &&& 0x00FFFFFFFFFFFFFF#64) ≠ 0#64 ∧
    0x420003FF00000000#64 &&& (Op.mask .codecDecTen &&& 0x00FFFFFFFFFFFFFF#64) = 0#64 ∧
    0x420003FF00000000#64 &&& Op.mask .codecDecTen = Op.pattern .codecDecTen := by
  decide

/-- `LegalOpcodesOfEachPort`: a word of each error, and the ends of the opcode list. -/
theorem witness_LegalOpcodesOfEachPort :
    decode .rx 0xFF00000000000000#64 = .error .illegalOpcode ∧
    decode .tx 0x2200010000000000#64 = .error .reservedField ∧
    decode .rx 0x0100000000000000#64 ≠ .error .illegalOpcode ∧
    decode .tx 0x4800000000000000#64 ≠ .error .illegalOpcode := by
  decide

/-- `TransportIsLittleEndian`: eight bytes that make a word. -/
theorem witness_TransportIsLittleEndian :
    wordOfBytes [0xE8#8, 0x03#8, 0x00#8, 0x00#8, 0xDC#8, 0x00#8, 0x00#8, 0x01#8] = some 0x010000DC000003E8#64 := by
  decide

/-- `StepRunsDecodedCommand`. -/
theorem witness_StepRunsDecodedCommand :
    { State.reset with pending := [.command .tx 0x2600000000000000#64] }.pending =
        .command .tx 0x2600000000000000#64 :: [] ∧
      decode .tx 0x2600000000000000#64 = .ok .txActFail := by
  decide

/-- `StepAnswersDecodeErrors`. -/
theorem witness_StepAnswersDecodeErrors :
    { State.reset with pending := [.command .rx 0x0101001400000000#64] }.pending =
        .command .rx 0x0101001400000000#64 :: [] ∧
      decode .rx 0x0101001400000000#64 = .error .reservedField := by
  decide

/-- `HardResetSetsEveryElement`, on a session that holds a result. -/
theorem witness_HardResetSetsEveryElement :
    { rxState received with pending := [.hardReset] }.pending = .hardReset :: [] ∧
      (rxState received).rx ≠ State.reset.rx := by
  decide

/-- `EveryStepCompletes`: a state with no input. -/
theorem witness_EveryStepCompletes : State.reset.pending = [] := by
  decide

/-- `WrongPortIsIllegal`, both clauses. -/
theorem witness_WrongPortIsIllegal :
    (Instr.txTick 5#32).wellFormedOn State.reset.port = false ∧
    { State.reset with pending := [.command .rx 0x0600000000000000#64] }.pending =
      .command .rx 0x0600000000000000#64 :: [] ∧
    (∀ op : Op, op.code = (0x0600000000000000#64).extractLsb' 56 8 → op.admits .rx = false) :=
  ⟨by decide, by decide, witness_DecodeFollowsRule84_illegal.1⟩

/-- `OneResponseOnTheOwnPort`: a response on each port, and one whose status is not OK. -/
theorem witness_OneResponseOnTheOwnPort :
    (rxState receiving).port = .rx ∧ (txState sending).port = .tx ∧
    exec .txClear (txState sending) = .next (after .txClear (txState sending)) ∧
    ((lastReply (after .txClear (txState sending))).map fun r => r.word.extractLsb' 56 8) = some 0x04#8 :=
  ⟨rfl, rfl, exec_after _ _, by decide⟩

/-- `ErrorStatusChangesNothing`: TX_CLEAR during a transmission. -/
theorem witness_ErrorStatusChangesNothing :
    ∃ (t : State) (r : Reply), exec .txClear (txState sending) = .next t ∧ lastReply t = some r ∧
      r.word.extractLsb' 56 8 ≠ 0#8 :=
  ⟨_, ⟨0x0400000000000000#64, []⟩, exec_after _ _, by decide, by decide⟩

/-- `ReadersAndCodecsArePure`: the first and the last opcode named. -/
theorem witness_ReadersAndCodecsArePure :
    (Instr.rxReadReg 0x25#16).op ∈ [Op.rxReadReg, .rxReadWin, .rxReadEdge, .rxReadResBit, .rxReadResByte, .txReadReg,
      .txReadBuf, .txReadEvent, .constRead, .codecEncByte, .codecDecSym, .codecDecTen] ∧
    (Instr.codecDecTen 0#10).op ∈ [Op.rxReadReg, .rxReadWin, .rxReadEdge, .rxReadResBit, .rxReadResByte, .txReadReg,
      .txReadBuf, .txReadEvent, .constRead, .codecEncByte, .codecDecSym, .codecDecTen] := by
  decide

/-- The transmission of 0x48 keeps its invariant while nothing is performed yet. -/
theorem sending_TxInv : TxInv sending :=
  ⟨by decide, by decide, by decide, by decide, by decide, by decide⟩

/-- So does that transmission in its last entries, where TX_ACT is the level of entry 12. -/
theorem ending_TxInv : TxInv { sending with k := 13#13 } :=
  ⟨by decide, by decide, by decide, by decide, by decide,
    fun _ _ => ⟨⟨3800#32, some false⟩, by decide, by decide⟩⟩

/-- The receiving session keeps its invariants. -/
theorem receiving_RxInv : RxInv receiving :=
  ⟨by decide, by decide, by decide, by decide, by decide, by decide, by decide, by decide, by decide⟩

/-- `RepeatedCommandsChangeNothingMore`: a calibration, and a tick that performs entries. -/
theorem witness_RepeatedCommandsChangeNothingMore :
    (∃ t u, exec .rxCalibrate (rxState { received with win := List.replicate 10 20#8 }) = .next t ∧
      exec .rxCalibrate t = .next u) ∧
    (∃ t u, TxInv (txState sending).tx ∧ exec (.txTick 1800#32) (txState sending) = .next t ∧
      exec (.txTick 1800#32) t = .next u ∧ (lastReply t).map Reply.events ≠ some []) :=
  ⟨⟨_, _, exec_after _ _, exec_after _ _⟩, ⟨_, _, sending_TxInv, exec_after _ _, exec_after _ _, by decide⟩⟩

/-- `EachPortWritesItsOwnUnit`: a writing command on each port. -/
theorem witness_EachPortWritesItsOwnUnit :
    (exec (.rxPush 20#8 2350#32) (rxState receiving) = .next (after (.rxPush 20#8 2350#32) (rxState receiving)) ∧
      (rxState receiving).port = .rx) ∧
    (exec (.txTick 5000#32) (txState sending) = .next (after (.txTick 5000#32) (txState sending)) ∧
      (txState sending).port = .tx) :=
  ⟨⟨exec_after _ _, rfl⟩, ⟨exec_after _ _, rfl⟩⟩

/-- `EachPortReadsItsOwnUnit`: states that agree on the unit of the port and differ in the other. -/
theorem witness_EachPortReadsItsOwnUnit :
    (∃ s s' t t' : State, s.port = s'.port ∧ exec (.rxPush 20#8 2350#32) s = .next t ∧
      exec (.rxPush 20#8 2350#32) s' = .next t' ∧ s.port = .rx ∧ s.rx = s'.rx ∧ s.tx ≠ s'.tx) ∧
    (∃ s s' t t' : State, s.port = s'.port ∧ exec .txActFail s = .next t ∧
      exec .txActFail s' = .next t' ∧ s.port = .tx ∧ s.tx = s'.tx ∧ s.rx ≠ s'.rx) :=
  ⟨⟨rxState receiving, { rxState receiving with tx := sending }, _, _, rfl, exec_after _ _, exec_after _ _, rfl, rfl,
      by decide⟩,
    ⟨txState sending, { txState sending with rx := receiving }, _, _, rfl, exec_after _ _, exec_after _ _, rfl, rfl,
      by decide⟩⟩

/-- `EveryInterleavingAgrees`: two interleavings of one RX and two TX commands. -/
theorem witness_EveryInterleavingAgrees :
    let a : Input := .command .rx 0x0400000000000000#64
    let b : Input := .command .tx 0x2200004800000000#64
    let c : Input := .command .tx 0x24000000000003E8#64
    (∀ i ∈ [a, b, c], i.isCommand = true) ∧ (∀ i ∈ [b, c, a], i.isCommand = true) ∧
      onlyPort .rx [a, b, c] = onlyPort .rx [b, c, a] ∧ onlyPort .tx [a, b, c] = onlyPort .tx [b, c, a] ∧
      [a, b, c] ≠ [b, c, a] := by
  decide

/-- `ElementsHaveOnlyTheirWriters`, the clauses of the RX session. -/
theorem witness_ElementsHaveOnlyTheirWriters_rx :
    (∃ t, exec .rxMarkReady State.reset = .next t ∧ t.rx.ready ≠ State.reset.rx.ready) ∧
    (∃ s t, exec .rxCalibrate s = .next t ∧ t.rx.cal ≠ s.rx.cal) ∧
    (∃ s t, exec (.rxPush 20#8 2350#32) s = .next t ∧
      { t.rx with ready := s.rx.ready, cal := s.rx.cal, baseline := s.rx.baseline } ≠ s.rx) :=
  ⟨⟨_, exec_after _ _, by decide⟩,
    ⟨rxState { RxSession.reset with win := List.replicate 10 20#8 }, _, exec_after _ _, by decide⟩,
    ⟨rxState receiving, _, exec_after _ _, by decide⟩⟩

/-- `ElementsHaveOnlyTheirWriters`, the clauses of the TX unit. -/
theorem witness_ElementsHaveOnlyTheirWriters_tx :
    (∃ s t, exec (.txAppendBit true) s = .next t ∧ t.tx.buf ≠ s.tx.buf) ∧
    (∃ s t, exec (.txStart 1000#32) s = .next t ∧ t.tx.t0 ≠ s.tx.t0 ∧ t.tx.busy ≠ s.tx.busy) ∧
    (∃ s t, exec (.txTick 1000#32) s = .next t ∧ t.tx.k ≠ s.tx.k ∧ t.tx.act ≠ s.tx.act) :=
  ⟨⟨txState TxUnit.reset, _, exec_after _ _, by decide⟩,
    ⟨txState TxUnit.reset, _, exec_after _ _, by decide⟩,
    ⟨txState sending, _, exec_after _ _, by decide⟩⟩

/-- `StepKeepsRxInvariants`: the push that enters DONE. -/
theorem witness_StepKeepsRxInvariants :
    ∃ s t : State, RxInv s.rx ∧ step s = .next t ∧ t.rx.phase = .done :=
  ⟨{ rxState receiving with pending := [.command .rx 0x010000140000092E#64] }, _, receiving_RxInv,
    exec_after (.rxPush 20#8 2350#32) (rxState receiving), by decide⟩

/-- `StepKeepsTxInvariants`: the tick that ends the transmission. -/
theorem witness_StepKeepsTxInvariants :
    ∃ s t : State, TxInv s.tx ∧ step s = .next t ∧ t.tx.outcome = .ok :=
  ⟨{ txState { sending with k := 13#13 } with pending := [.command .tx 0x250000000000125C#64] }, _, ending_TxInv,
    exec_after (.txTick 4700#32) (txState { sending with k := 13#13 }), by decide⟩

/-- `OrderedPushesKeepEdgesInOrder`: a push that appends an edge exactly MIN_RUN after the last one. -/
theorem witness_OrderedPushesKeepEdgesInOrder :
    ∃ s t : State, EdgeInv s.rx ∧ (∀ b now, Instr.rxPush 220#8 1780#32 = .rxPush b now → PushInOrder now s.rx) ∧
      exec (.rxPush 220#8 1780#32) s = .next t ∧ t.rx.edges.length = s.rx.edges.length + 1 := by
  refine ⟨rxState { receiving with lastTs := 1740#32 }, _, ⟨by decide, by decide, by decide, fun _ => ?_, by decide,
    by decide⟩, ?_, exec_after _ _, by decide⟩
  · simp only [EdgesInOrder]; decide
  · rintro b now ⟨⟩
    exact ⟨by decide, by decide⟩

/-- `OrderedPushesKeepEdgesInOrder`: a session in WAIT_FOR_LOW and the LOW push that starts the frame. -/
theorem witness_OrderedPushesKeepEdgesInOrder_armed :
    ∃ s t : State, EdgeInv s.rx ∧ (∀ b now, Instr.rxPush 20#8 1500#32 = .rxPush b now → PushInOrder now s.rx) ∧
      exec (.rxPush 20#8 1500#32) s = .next t ∧ t.rx.phase = .receiving := by
  refine ⟨rxState waiting, _, ⟨by decide, by decide, by decide, fun h => absurd h (by decide), by decide, by decide⟩,
    ?_, exec_after _ _, by decide⟩
  rintro b now ⟨⟩
  exact ⟨by decide, by decide⟩

/-- `SymbolTable`: its first and its last row. -/
theorem witness_SymbolTable : symbolCode 0x0#4 = 0b11110#5 ∧ symbolCode 0xF#4 = 0b11101#5 := by
  decide

/-- `SymbolDecodeInvertsTable`: a code, and the two constant patterns, which are none. -/
theorem witness_SymbolDecodeInvertsTable :
    symbolCode 0x8#4 = 0b10010#5 ∧ (∀ n : BitVec 4, symbolCode n ≠ 0b00000#5) ∧
      (∀ n : BitVec 4, symbolCode n ≠ 0b11111#5) := by
  decide

/-- `GroupDecodeReportsEachHalf`: a valid group, and groups with the high, the low and both halves invalid. -/
theorem witness_GroupDecodeReportsEachHalf :
    (symbolCode ((0x48#8).extractLsb' 4 4) = (0x152#10).extractLsb' 5 5 ∧
      symbolCode ((0x48#8).extractLsb' 0 4) = (0x152#10).extractLsb' 0 5) ∧
    ((∀ n, symbolCode n ≠ (0x22E#10).extractLsb' 5 5) ∧ ¬ ∀ n, symbolCode n ≠ (0x22E#10).extractLsb' 0 5) ∧
    ((∀ n, symbolCode n ≠ (0x3DF#10).extractLsb' 0 5) ∧ ¬ ∀ n, symbolCode n ≠ (0x3DF#10).extractLsb' 5 5) ∧
    ((∀ n, symbolCode n ≠ (0x000#10).extractLsb' 5 5) ∧ ∀ n, symbolCode n ≠ (0x000#10).extractLsb' 0 5) := by
  decide

/-- `ScheduleTableIsRead`: the port, the first and the last bit of the buffer and the indices around its end. -/
theorem witness_ScheduleTableIsRead :
    (txState sending).port = .tx ∧
    (txState sending).tx.buf[0]? = some false ∧ (2#16).toNat = 2 + 0 ∧
    (txState sending).tx.buf[9]? = some false ∧ (11#16).toNat = 2 + 9 ∧
    (12#16).toNat = (txState sending).tx.buf.length + 2 ∧ (13#16).toNat = (txState sending).tx.buf.length + 3 ∧
    (txState sending).tx.buf.length + 3 < (14#16).toNat := by
  decide

/-- `ClearAndStartWhileIdle`, and the premises of the two append statements with room. -/
theorem witness_ClearAndStartWhileIdle :
    (txState { sending with busy := false }).port = .tx ∧ (txState { sending with busy := false }).tx.busy = false ∧
      (txState { sending with busy := false }).tx.buf.length + 10 ≤ 4096 ∧
      (txState { sending with busy := false }).tx.buf.length + 1 ≤ 4096 := by
  decide

/-- An idle unit whose buffer holds `n` bits. -/
def filled (n : Nat) : State := txState { TxUnit.reset with buf := List.replicate n false }

theorem filled_length (n : Nat) : (filled n).tx.buf.length = n :=
  List.length_replicate

/-- `AppendByteWhileIdle`: at 4086 bits a byte fits exactly, at 4087 it does not. -/
theorem witness_AppendByteWhileIdle :
    (filled 4086).port = .tx ∧ (filled 4086).tx.busy = false ∧ (filled 4086).tx.buf.length + 10 ≤ 4096 ∧
      4096 < (filled 4087).tx.buf.length + 10 := by
  rw [filled_length, filled_length]
  exact ⟨rfl, rfl, by decide, by decide⟩

/-- `AppendBitWhileIdle`: at 4095 bits a bit fits exactly, at 4096 it does not. -/
theorem witness_AppendBitWhileIdle :
    (filled 4095).port = .tx ∧ (filled 4095).tx.busy = false ∧ (filled 4095).tx.buf.length + 1 ≤ 4096 ∧
      4096 < (filled 4096).tx.buf.length + 1 := by
  rw [filled_length, filled_length]
  exact ⟨rfl, rfl, by decide, by decide⟩

/-- `BusyTransmitterRefuses`. -/
theorem witness_BusyTransmitterRefuses :
    (txState sending).port = .tx ∧ (txState sending).tx.busy = true ∧
      (Instr.txStart 0#32).op ∈ [Op.txStart, .txClear, .txAppendByte, .txAppendBit] ∧
      (Instr.txAppendBit true).op ∈ [Op.txStart, .txClear, .txAppendByte, .txAppendBit] := by
  decide

/-- `TickPerformsTheDueEntries`: a transmission at its start, one before its completion, and an idle unit. -/
theorem witness_TickPerformsTheDueEntries :
    ((txState sending).port = .tx ∧ TxInv (txState sending).tx ∧ (txState sending).tx.busy = true) ∧
    TxInv { sending with k := 13#13 } ∧ (TxInv TxUnit.reset ∧ TxUnit.reset.busy = false) :=
  ⟨⟨rfl, sending_TxInv, rfl⟩, ending_TxInv, ⟨by decide, by decide, by decide, by decide, by decide, by decide⟩, rfl⟩

/-- Beyond the last entry of 0x48 there is none, so a claim about its entries is one about the first 14. -/
theorem entry_of_sending {k : Nat} {e : ScheduleEntry} (h : scheduleEntry sending.buf sending.t0 k = some e) :
    k < 14 := by
  by_contra hk
  have hn : scheduleEntry sending.buf sending.t0 k = none := by
    have hl : sending.buf.length = 10 := rfl
    unfold scheduleEntry
    simp only [hl]
    rw [if_neg (by omega), if_neg (by omega), if_neg (by omega), if_neg (by omega), if_neg (by omega)]
  rw [hn] at h
  cases h

/-- `EarlierTicksDoNotShiftLaterOnes`: ticks at 2000 and 4599, of which the later finds due all the earlier does. -/
theorem witness_EarlierTicksDoNotShiftLaterOnes :
    (txState sending).port = .tx ∧ TxInv (txState sending).tx ∧
    ∀ k e, scheduleEntry (txState sending).tx.buf (txState sending).tx.t0 k = some e →
      0 ≤ sdiff 2000#32 e.target → 0 ≤ sdiff 4599#32 e.target := by
  refine ⟨rfl, sending_TxInv, fun k e h => ?_⟩
  have hk := entry_of_sending h
  revert e
  revert k
  decide

/-- `TickDrivesTheLightOfTheSchedule`: a tick at 2000 of the transmission at its start. -/
theorem witness_TickDrivesTheLightOfTheSchedule :
    ∃ t : State, (txState sending).port = .tx ∧ TxInv (txState sending).tx ∧ (txState sending).tx.busy = true ∧
      (∀ j k e f, j ≤ k → scheduleEntry (txState sending).tx.buf (txState sending).tx.t0 j = some e →
        scheduleEntry (txState sending).tx.buf (txState sending).tx.t0 k = some f →
        0 ≤ sdiff 2000#32 f.target → 0 ≤ sdiff 2000#32 e.target) ∧
      (∀ j e, j < (txState sending).tx.k.toNat →
        scheduleEntry (txState sending).tx.buf (txState sending).tx.t0 j = some e → 0 ≤ sdiff 2000#32 e.target) ∧
      exec (.txTick 2000#32) (txState sending) = .next t ∧ t.tx.act = true := by
  refine ⟨_, rfl, sending_TxInv, rfl, ?_, ?_, exec_after _ _, by decide⟩
  · have due : ∀ k, k < 14 → ∀ e, scheduleEntry (txState sending).tx.buf (txState sending).tx.t0 k = some e →
        (0 ≤ sdiff 2000#32 e.target ↔ k ≤ 3) := by
      decide
    intro j k e f hjk he hf hd
    exact (due j (entry_of_sending he) e he).2
      (le_trans hjk ((due k (entry_of_sending hf) f hf).1 hd))
  · intro j e hj
    exact absurd hj (Nat.not_lt_zero j)

/-- `ActuatorFailureForcesOff`: a busy and an idle unit. -/
theorem witness_ActuatorFailureForcesOff :
    (txState sending).port = .tx ∧ (txState sending).tx.busy = true ∧ (txState TxUnit.reset).tx.busy = false := by
  decide

/-- `TransmissionEndsWithActuatorOff`, commands: by the completing tick and by a failure. -/
theorem witness_TransmissionEndsWithActuatorOff :
    (∃ s t : State, TxInv s.tx ∧ s.tx.busy = true ∧ exec (.txTick 4700#32) s = .next t ∧ t.tx.busy = false) ∧
    (∃ s t : State, TxInv s.tx ∧ s.tx.busy = true ∧ exec .txActFail s = .next t ∧ t.tx.busy = false) :=
  ⟨⟨txState { sending with k := 13#13 }, _, ending_TxInv, rfl, exec_after _ _, by decide⟩,
    ⟨txState sending, _, sending_TxInv, rfl, exec_after _ _, by decide⟩⟩

/-- `TransmissionEndsWithActuatorOff`, steps: by a tick, by a failure and by the reset input. -/
theorem witness_TransmissionEndsWithActuatorOff_step :
    (∃ s t : State, TxInv s.tx ∧ s.tx.busy = true ∧ step s = .next t ∧ t.tx.busy = false ∧ t.tx.outcome = .ok) ∧
    (∃ s t : State, TxInv s.tx ∧ s.tx.busy = true ∧ step s = .next t ∧ t.tx.busy = false ∧ t.tx.outcome = .failed) ∧
    (∃ s t : State, TxInv s.tx ∧ s.tx.busy = true ∧ step s = .next t ∧ t.tx.busy = false ∧ t.tx.outcome = .none) :=
  ⟨⟨{ txState { sending with k := 13#13 } with pending := [.command .tx 0x250000000000125C#64] }, _, ending_TxInv,
      rfl, exec_after (.txTick 4700#32) (txState { sending with k := 13#13 }), by decide, by decide⟩,
    ⟨{ txState sending with pending := [.command .tx 0x2600000000000000#64] }, _, sending_TxInv, rfl,
      exec_after .txActFail (txState sending), by decide, by decide⟩,
    ⟨{ txState sending with pending := [.hardReset] }, _, sending_TxInv, rfl, rfl, by decide, by decide⟩⟩

/-- `TxRegisterViews`: TX_K on the completion entry, TX_K beyond it after a `TX_CLEAR`, and the first bad index. -/
theorem witness_TxRegisterViews :
    (txState sending).port = .tx ∧ (txState sending).tx.buf.length ≤ 4096 ∧
    scheduleEntry { sending with k := 13#13 }.buf { sending with k := 13#13 }.t0 { sending with k := 13#13 }.k.toNat =
      some ⟨4700#32, none⟩ ∧
    { TxUnit.reset with k := 4#13 }.buf.length + 3 < { TxUnit.reset with k := 4#13 }.k.toNat ∧
    (sending.outcome = .none ∧ { TxUnit.reset with outcome := .ok }.outcome = .ok ∧
      { TxUnit.reset with outcome := .failed }.outcome = .failed) ∧
    5 < (6#16).toNat := by
  decide

/-- `TxBufferIsRead`: the last bit and the index past it. -/
theorem witness_TxBufferIsRead :
    (txState sending).port = .tx ∧ (txState sending).tx.buf[(9#16).toNat]? = some false ∧
      (txState sending).tx.buf.length ≤ (10#16).toNat := by
  decide

/-- `PushAnswersAndCounts`: a push that leaves each state. -/
theorem witness_PushAnswersAndCounts :
    (rxState RxSession.reset).port = .rx ∧
    (after (.rxPush 20#8 0#32) (rxState RxSession.reset)).rx.phase = .idle ∧
    (after (.rxPush 220#8 1500#32) (rxState waiting)).rx.phase = .waitForLow ∧
    (after (.rxPush 20#8 1500#32) (rxState waiting)).rx.phase = .receiving ∧
    (after (.rxPush 20#8 2350#32) (rxState receiving)).rx.phase = .done := by
  decide

/-- `PushUpdatesThreshold`: a push that leaves 11 samples, and one that leaves 12. -/
theorem witness_PushUpdatesThreshold :
    (rxState RxSession.reset).port = .rx ∧
    (after (.rxPush 51#8 0#32) (rxState { RxSession.reset with win := List.replicate 10 10#8 })).rx.win.length < 12 ∧
    12 ≤ (after (.rxPush 51#8 0#32) (rxState { RxSession.reset with win := List.replicate 11 10#8 })).rx.win.length := by
  decide

/-- `ThresholdLiesInTheWindow`: the window of T5. -/
theorem witness_ThresholdLiesInTheWindow :
    ∃ s t : State, s.port = .rx ∧ exec (.rxPush 51#8 0#32) s = .next t ∧ 12 ≤ t.rx.win.length ∧ t.rx.cal = false ∧
      12 ≤ t.rx.swing.toNat :=
  ⟨rxState { RxSession.reset with win := List.replicate 6 10#8 ++ List.replicate 5 51#8 }, _, rfl, exec_after _ _,
    by decide, by decide, by decide⟩

/-- `CalibrateTakesTheMedian`: 9 and 10 samples. -/
theorem witness_CalibrateTakesTheMedian :
    (rxState RxSession.reset).port = .rx ∧
    (rxState { RxSession.reset with win := List.replicate 9 20#8 }).rx.win.length < 10 ∧
    10 ≤ (rxState { RxSession.reset with win := List.replicate 10 20#8 }).rx.win.length := by
  decide

/-- `GateStopsTheReceiver`: the gate closed. -/
theorem witness_GateStopsTheReceiver :
    (rxState { receiving with ready := false }).port = .rx ∧
      (rxState { receiving with ready := false }).rx.ready = false := by
  decide

/-- `RunTrackerFollowsTheSamples`: no run; a transition after 79 ms and one after 80 ms. -/
theorem witness_RunTrackerFollowsTheSamples :
    ((rxState receiving).port = .rx ∧ (rxState receiving).rx.ready = true) ∧
    { RxSession.reset with ready := true }.runOpen = false ∧
    (receiving.runOpen = true ∧ true ≠ receiving.runLvl ∧ sdiff 1779#32 receiving.runStart < 80) ∧
    (receiving.runOpen = true ∧ true ≠ receiving.runLvl ∧ 80 ≤ sdiff 1780#32 receiving.runStart) := by
  decide

/-- `EdgesAreRecorded`: a transition accepted with room and the LOW push that seeds the list. -/
theorem witness_EdgesAreRecorded :
    ((rxState receiving).rx.ready = true ∧ receiving.phase = .receiving ∧ receiving.edges.length < 1024 ∧
      (after (.rxPush 220#8 1780#32) (rxState receiving)).rx.edges.length = 4) ∧
    ((rxState waiting).rx.ready = true ∧ waiting.phase = .waitForLow ∧
      (after (.rxPush 20#8 1500#32) (rxState waiting)).rx.edges = [⟨0#32, false⟩]) := by
  decide

/-- `EdgesAreRecorded`: a full edge list. -/
theorem witness_EdgesAreRecorded_full :
    { receiving with edges := List.replicate 1024 ⟨0#32, false⟩ }.phase = .receiving ∧
      1024 ≤ { receiving with edges := List.replicate 1024 ⟨0#32, false⟩ }.edges.length :=
  ⟨rfl, le_of_eq List.length_replicate.symm⟩

/-- `StateTable`: the premises of its rows; STOP at 650 ms, no STOP at 649 ms, the timeout at 60000 ms and none at
59999 ms. -/
theorem witness_StateTable :
    ((rxState waiting).port = .rx ∧ (rxState waiting).rx.ready = true ∧ waiting.phase = .waitForLow) ∧
    ((after (.rxPush 20#8 2350#32) (rxState receiving)).rx.phase = .done ∧
      650 ≤ sdiff 2350#32 (after (.rxPush 20#8 2350#32) (rxState receiving)).rx.runStart) ∧
    ((after (.rxPush 20#8 2349#32) (rxState receiving)).rx.phase = .receiving ∧
      sdiff 2349#32 receiving.origin < 60000) ∧
    ((after (.rxPush 220#8 61500#32) (rxState receiving)).rx.res.cause = .timeout ∧
      60000 ≤ sdiff 61500#32 receiving.origin) ∧
    sdiff 61499#32 receiving.origin < 60000 ∧ received.phase = .done ∧ RxSession.reset.phase = .idle := by
  decide

/-- `DoneIsTerminal`: a push on a session in DONE (S10). -/
theorem witness_DoneIsTerminal :
    ∃ t : State, (rxState received).rx.phase = .done ∧ (Instr.rxPush 220#8 4320#32).op ≠ .rxReset ∧
      exec (.rxPush 220#8 4320#32) (rxState received) = .next t :=
  ⟨_, by decide, by decide, exec_after _ _⟩

/-- `DoneIsTerminal`, steps: a push that stays in DONE, and `RX_RESET` and the reset input, which leave it. -/
theorem witness_DoneIsTerminal_step :
    (∃ s t : State, s.rx.phase = .done ∧ step s = .next t ∧ t.rx.phase = .done) ∧
    (∃ s t : State, s.rx.phase = .done ∧ step s = .next t ∧ s.pending = [.command .rx 0x0200000000000000#64] ∧
      decode .rx 0x0200000000000000#64 = .ok .rxReset ∧ t.rx.phase = .idle) ∧
    (∃ s t : State, s.rx.phase = .done ∧ step s = .next t ∧ s.pending = [.hardReset] ∧ t.rx.phase = .idle) :=
  ⟨⟨{ rxState received with pending := [.command .rx 0x010000DC000010E0#64] }, _, rfl,
      exec_after (.rxPush 220#8 4320#32) (rxState received), by decide⟩,
    ⟨{ rxState received with pending := [.command .rx 0x0200000000000000#64] }, _, rfl,
      exec_after .rxReset (rxState received), rfl, by decide, by decide⟩,
    ⟨{ rxState received with pending := [.hardReset] }, _, rfl, rfl, rfl, by decide⟩⟩

/-- `ResetAndReadyCommands`. -/
theorem witness_ResetAndReadyCommands : (rxState received).port = .rx := by
  decide

/-- `ResultHoldsTheRecoveredBits`: the push of S3 that enters DONE. -/
theorem witness_ResultHoldsTheRecoveredBits :
    ∃ t : State, (rxState receiving).port = .rx ∧ (rxState receiving).rx.phase = .receiving ∧
      exec (.rxPush 20#8 2350#32) (rxState receiving) = .next t ∧ t.rx.phase = .done :=
  ⟨_, by decide, by decide, exec_after _ _, by decide⟩

/-- `RoundingBoundaries`: both ends of the shortest run and of two bits. -/
theorem witness_RoundingBoundaries :
    ((80 : Int) ≤ 80 ∧ (80 : Int) ≤ 299) ∧ ((80 : Int) ≤ 299 ∧ (299 : Int) ≤ 299) ∧ 2 ≤ 2 := by
  decide

/-- `RunsWithinToleranceReconstruct`: three runs of 1, 2 and 1 bits, displaced by 99 ms at both ends. -/
theorem witness_RunsWithinToleranceReconstruct :
    let es : List Edge := [⟨0#32, false⟩, ⟨101#32, true⟩, ⟨600#32, false⟩]
    let ms := [1, 2, 1]
    es ≠ [] ∧ ms.length = es.length ∧
    (∀ (i m : Nat) (e : Edge), ms[i]? = some m → es[i]? = some e →
      1 ≤ m ∧ e.lvl = decide (i % 2 = 1) ∧
      (200 * m - 99 : Int) ≤ ((es[i + 1]?.map Edge.t).getD 899#32).toInt - e.t.toInt ∧
      ((es[i + 1]?.map Edge.t).getD 899#32).toInt - e.t.toInt ≤ 200 * m + 99) ∧
    ms.sum ≤ 4096 := by
  refine ⟨by decide, by decide, fun i m e hm he => ?_, by decide⟩
  match i, hm, he with
  | 0, hm, he => cases hm; cases he; decide
  | 1, hm, he => cases hm; cases he; decide
  | 2, hm, he => cases hm; cases he; decide
  | i + 3, hm, he => simp at hm

/-- `RxRegisterViews`: a session in its frame, and the first index of each gap of the map. -/
theorem witness_RxRegisterViews :
    (rxState receiving).port = .rx ∧ RxInv (rxState receiving).rx ∧
      (0x12#16).toNat ∉ (rxRegisterTable (rxState receiving).rx).map Prod.fst ∧
      (0x26#16).toNat ∉ (rxRegisterTable (rxState receiving).rx).map Prod.fst :=
  ⟨rfl, receiving_RxInv, by decide, by decide⟩

/-- `RxRegisterViews`: a session that holds a result. -/
theorem witness_RxRegisterViews_done : RxInv received ∧ received.phase = .done :=
  ⟨⟨by decide, by decide, by decide, by decide, by decide, by decide, by decide, by decide, by decide⟩, rfl⟩

/-- `RxRegisterViews`: a session in each state before the frame. -/
theorem witness_RxRegisterViews_before :
    (RxInv RxSession.reset ∧ RxSession.reset.phase = .idle) ∧ (RxInv waiting ∧ waiting.phase = .waitForLow) :=
  ⟨⟨⟨by decide, by decide, by decide, by decide, by decide, by decide, by decide, by decide, by decide⟩, rfl⟩,
    ⟨⟨by decide, by decide, by decide, by decide, by decide, by decide, by decide, by decide, by decide⟩, rfl⟩⟩

/-- `WindowAndEdgesAreRead`: the last entries and the indices past them. -/
theorem witness_WindowAndEdgesAreRead :
    (rxState { receiving with win := [20#8, 220#8] }).port = .rx ∧
    { receiving with win := [20#8, 220#8] }.win[(1#16).toNat]? = some 220#8 ∧
    { receiving with win := [20#8, 220#8] }.win.length ≤ (2#16).toNat ∧
    receiving.edges[(2#16).toNat]? = some ⟨200#32, false⟩ ∧ receiving.edges.length ≤ (3#16).toNat := by
  decide

/-- `ResultIsRead`: the last bit and group of a result, the indices past them, and no result. -/
theorem witness_ResultIsRead :
    (rxState received).port = .rx ∧ received.res.valid = true ∧ received.res.bits[(9#16).toNat]? = some false ∧
    received.res.bits.length ≤ (10#16).toNat ∧ (0#16).toNat < received.res.bits.length / 10 ∧
    received.res.bits.length / 10 ≤ (1#16).toNat ∧ RxSession.reset.res.valid = false := by
  decide

/-- R340, R90: TX_BUSY and TX_FULL as §1.9 and X6 write their responses. -/
theorem test_response_words :
    response .txBusy 0#48 = 0x0400000000000000#64 ∧ response .txFull 0#48 = 0x0500000000000000#64 := by
  decide

/-- `ConstantsAreHardwired`: the last constant and the first index past it. -/
theorem witness_ConstantsAreHardwired :
    ([200, 800, 900, 480, 650, 80, 30, 12, 150, 12, 10, 128, 60000, 1024, 4096, 4096] : List Nat)[(15#16).toNat]? =
        some 4096 ∧ 16 ≤ (16#16).toNat := by
  decide

end Sys2Proof.Tests
end

section
/-! What a step can do to one unit, said once: an invariant of a unit that holds at reset and that every effect keeps
is kept by every step. -/

namespace Sys2Proof.Machine

/-- The four cases of a step (20_memory.md R67, 30_encoding.md R84). -/
theorem step_cases {s t : State} (h : step s = .next t) :
    (s.pending = [] ∧ t = s) ∨
    (∃ rest, s.pending = .hardReset :: rest ∧ t = hardReset (takeReset rest s)) ∨
    (∃ p w rest st, s.pending = .command p w :: rest ∧ decode p w = .error st ∧
      t = reply ⟨response st 0#48, []⟩ (takeCommand p rest s)) ∨
    (∃ p w rest i, s.pending = .command p w :: rest ∧ decode p w = .ok i ∧
      exec i (takeCommand p rest s) = .next t) := by
  unfold step at h
  split at h
  · next hp => injection h with h; exact .inl ⟨hp, h.symm⟩
  · next rest hp => injection h with h; exact .inr (.inl ⟨rest, hp, h.symm⟩)
  · next p w rest hp =>
    split at h
    · next st hd => injection h with h; exact .inr (.inr (.inl ⟨p, w, rest, st, hp, hd, h.symm⟩))
    · next i hd => exact .inr (.inr (.inr ⟨p, w, rest, i, hp, hd, h⟩))

/-- A command leaves both units, or has its effect on each, on a port that admits it. -/
theorem exec_units {i : Instr} {s t : State} (h : exec i s = .next t) :
    (t.rx = s.rx ∧ t.tx = s.tx) ∨
    (i.op.admits s.port = true ∧ t.rx = rxEffect i s.rx ∧ t.tx = txEffect i s.tx) := by
  rcases exec_cases h with ⟨-, rfl⟩ | ⟨ha, rfl⟩
  · exact .inl ⟨reply_rx .., reply_tx ..⟩
  · exact .inr ⟨ha, reply_rx .., reply_tx ..⟩

/-- What holds of the RX session after reset and is kept by every effect is kept by every step. -/
theorem step_keeps_rx {P : RxSession → Prop} (hreset : P RxSession.reset)
    (heffect : ∀ i r, P r → P (rxEffect i r)) {s t : State} (hs : P s.rx) (h : step s = .next t) : P t.rx := by
  rcases step_cases h with ⟨-, rfl⟩ | ⟨rest, -, rfl⟩ | ⟨p, w, rest, st, -, -, rfl⟩ | ⟨p, w, rest, i, -, -, he⟩
  · exact hs
  · exact hreset
  · rw [reply_rx]; exact hs
  · rcases exec_units he with ⟨hrx, -⟩ | ⟨-, hrx, -⟩ <;> rw [hrx]
    · exact hs
    · exact heffect i _ hs

/-- What holds of the TX unit after reset and is kept by every effect is kept by every step. -/
theorem step_keeps_tx {P : TxUnit → Prop} (hreset : P TxUnit.reset)
    (heffect : ∀ i t, P t → P (txEffect i t)) {s t : State} (hs : P s.tx) (h : step s = .next t) : P t.tx := by
  rcases step_cases h with ⟨-, rfl⟩ | ⟨rest, -, rfl⟩ | ⟨p, w, rest, st, -, -, rfl⟩ | ⟨p, w, rest, i, -, -, he⟩
  · exact hs
  · exact hreset
  · rw [reply_tx]; exact hs
  · rcases exec_units he with ⟨-, htx⟩ | ⟨-, -, htx⟩ <;> rw [htx]
    · exact hs
    · exact heffect i _ hs

end Sys2Proof.Machine
end

section
/-! What the run tracker and the state machine can do, said once with the guard of each case (44_receive.md R225 to
R235). -/

namespace Sys2Proof.Machine

/-- The cases of an accepted transition (R227): recorded, dropped at EDGE_CAP, or outside RECEIVING. -/
theorem acceptTransition_cases (lvl : Bool) (now : Time) (r : RxSession) :
    (r.phase = .receiving ∧ r.edges.length < Config.edgeCap ∧ acceptTransition lvl now r =
      { r with edges := r.edges ++ [⟨sdiffPattern now r.origin, lvl⟩], runLvl := lvl, runStart := now }) ∨
    (r.phase = .receiving ∧ Config.edgeCap ≤ r.edges.length ∧ acceptTransition lvl now r =
      { r with edgeOvf := true, runLvl := lvl, runStart := now }) ∨
    (r.phase ≠ .receiving ∧ acceptTransition lvl now r = { r with runLvl := lvl, runStart := now }) := by
  unfold acceptTransition
  by_cases hp : r.phase = .receiving
  · by_cases hl : r.edges.length < Config.edgeCap
    · exact .inl ⟨hp, hl, by rw [if_pos hp, if_pos hl]⟩
    · exact .inr (.inl ⟨hp, by omega, by rw [if_pos hp, if_neg hl]⟩)
  · exact .inr (.inr ⟨hp, by rw [if_neg hp]⟩)

/-- The cases of the run tracker (R225 to R228): the first run opens, the run is kept, or a transition is accepted. -/
theorem trackRun_cases (lvl : Bool) (now : Time) (r : RxSession) :
    (r.runOpen = false ∧ trackRun lvl now r = { r with runOpen := true, runLvl := lvl, runStart := now }) ∨
    (r.runOpen = true ∧ (lvl = r.runLvl ∨ sdiff now r.runStart < Config.minRun) ∧ trackRun lvl now r = r) ∨
    (r.runOpen = true ∧ lvl ≠ r.runLvl ∧ (Config.minRun : Int) ≤ sdiff now r.runStart ∧
      trackRun lvl now r = acceptTransition lvl now r) := by
  cases ho : r.runOpen
  · exact .inl ⟨rfl, trackRun_opens ho lvl now⟩
  · by_cases hk : lvl = r.runLvl ∨ sdiff now r.runStart < Config.minRun
    · exact .inr (.inl ⟨rfl, hk, trackRun_keeps ho hk⟩)
    · obtain ⟨hl, hd⟩ := not_or.1 hk
      exact .inr (.inr ⟨rfl, hl, not_lt.1 hd, trackRun_accepts ho hl (not_lt.1 hd)⟩)

/-- RECEIVING ends with the decode at some stop time, or stays (R233, R234). -/
theorem stepReceiving_cases (lvl : Bool) (now : Time) (rd : Int) (r : RxSession) :
    (∃ stop cause, (stepReceiving lvl now rd r).1 = decodeSession stop cause { r with phase := .done }) ∨
    (stepReceiving lvl now rd r).1 = r := by
  unfold stepReceiving
  split
  · exact .inl ⟨_, _, rfl⟩
  · split
    · exact .inl ⟨_, _, rfl⟩
    · exact .inr rfl

/-- The cases of the state machine (R231 to R235): it arms, starts the frame, enters DONE with the decode, or stays; in
WAIT_FOR_LOW it stays only on a HIGH sample. -/
theorem stepState_cases (lvl : Bool) (now : Time) (rd : Int) (r : RxSession) :
    (r.phase = .idle ∧ lvl = true ∧ (Config.startTrigger : Int) ≤ rd ∧
      (stepState lvl now rd r).1 = { r with phase := .waitForLow }) ∨
    (r.phase = .waitForLow ∧ lvl = false ∧ (stepState lvl now rd r).1 =
      { r with phase := .receiving, origin := now, edges := [⟨0#32, false⟩], edgeOvf := false }) ∨
    (r.phase = .receiving ∧ ∃ stop cause,
      (stepState lvl now rd r).1 = decodeSession stop cause { r with phase := .done }) ∨
    ((r.phase = .waitForLow → lvl = true) ∧ (stepState lvl now rd r).1 = r) := by
  unfold stepState
  cases hp : r.phase
  case idle =>
    by_cases hg : lvl = true ∧ (Config.startTrigger : Int) ≤ rd ∧ confident r = true
    · exact .inl ⟨rfl, hg.1, hg.2.1, if_pos hg⟩
    · exact .inr (.inr (.inr ⟨by simp, if_neg hg⟩))
  case waitForLow =>
    cases lvl
    · exact .inr (.inl ⟨rfl, rfl, rfl⟩)
    · exact .inr (.inr (.inr ⟨fun _ => rfl, rfl⟩))
  case receiving =>
    rcases stepReceiving_cases lvl now rd r with h | h
    · exact .inr (.inr (.inl ⟨rfl, h⟩))
    · exact .inr (.inr (.inr ⟨by simp, h⟩))
  case done => exact .inr (.inr (.inr ⟨by simp, rfl⟩))

/-- Steps 1 and 2 of a push are the threshold step and the sample counter (R221, R222). -/
theorem feedSession_eq (b : Byte) (now : Time) (r : RxSession) :
    feedSession b now r = countSample now (tePush b r) := rfl

/-- An accepted transition leaves the phase. -/
@[simp] theorem acceptTransition_phase (lvl : Bool) (now : Time) (r : RxSession) :
    (acceptTransition lvl now r).phase = r.phase := by
  rcases acceptTransition_cases lvl now r with ⟨-, -, h⟩ | ⟨-, -, h⟩ | ⟨-, h⟩ <;> rw [h]

end Sys2Proof.Machine
end

section
/-! R36 (a) to (d): every step keeps the invariants of the RX session. Each step of a push keeps them; the state
machine needs the run open, which the run tracker sees to. -/

namespace Sys2Proof.Machine

theorem RxInv.reset : RxInv RxSession.reset where
  win_le := by decide
  thr2_le := by decide
  p10_le_p90 := by decide
  swing_eq := rfl
  before_frame _ := ⟨rfl, rfl, rfl⟩
  in_frame h := by simp [RxSession.reset] at h
  valid_iff_done := by decide
  edges_le := by decide
  bits_le := by decide

/-- The threshold selected from two bytes is at most twice the largest calibrated level (43_threshold.md R194). -/
theorem selectThr2_le (cal : Bool) (baseline p10 p90 swing : Byte) :
    (selectThr2 cal baseline p10 p90 swing).toNat ≤ 570 := by
  have hb := byte_toNat_lt baseline
  have h10 := byte_toNat_lt p10
  have h90 := byte_toNat_lt p90
  rw [selectThr2_toNat]
  simp only [Config.calOffset, Config.defaultThreshold]
  split
  · omega
  · split <;> omega

theorem RxInv.tePush {r : RxSession} (h : RxInv r) (b : Byte) : RxInv (tePush b r) := by
  have hwin := windowPush_length_le (b := b) h.win_le
  rcases Nat.lt_or_ge (windowPush b r.win).length Config.winMin with hw | hw
  · rw [tePush_warm_up hw]
    exact { h with win_le := hwin }
  · rw [tePush_recompute hw]
    exact { h with
      win_le := hwin
      thr2_le := selectThr2_le ..
      p10_le_p90 := percentile10_le_percentile90 hw
      swing_eq := rfl }

theorem RxInv.countSample {r : RxSession} (h : RxInv r) (now : Time) : RxInv (countSample now r) :=
  { h with }

theorem RxInv.acceptTransition {r : RxSession} (h : RxInv r) (lvl : Bool) (now : Time) :
    RxInv (acceptTransition lvl now r) := by
  rcases acceptTransition_cases lvl now r with ⟨hp, hl, e⟩ | ⟨hp, -, e⟩ | ⟨-, e⟩ <;> rw [e]
  · obtain ⟨hhead, hopen⟩ := h.in_frame (.inl hp)
    exact { h with
      before_frame := fun hb => by simp [hp] at hb
      in_frame := fun _ => ⟨by simp [List.head?_append, hhead], hopen⟩
      edges_le := by simpa using hl }
  · exact { h with before_frame := fun hb => by simp [hp] at hb }
  · exact { h with }

theorem RxInv.trackRun {r : RxSession} (h : RxInv r) (lvl : Bool) (now : Time) : RxInv (trackRun lvl now r) := by
  rcases trackRun_cases lvl now r with ⟨-, e⟩ | ⟨-, -, e⟩ | ⟨-, -, -, e⟩ <;> rw [e]
  · exact { h with in_frame := fun hf => ⟨(h.in_frame hf).1, rfl⟩ }
  · exact h
  · exact h.acceptTransition lvl now

theorem RxInv.stepState {r : RxSession} (h : RxInv r) (hopen : r.runOpen = true) (lvl : Bool) (now : Time)
    (rd : Int) : RxInv (stepState lvl now rd r).1 := by
  rcases stepState_cases lvl now rd r with ⟨hp, -, -, e⟩ | ⟨hp, -, e⟩ | ⟨hp, stop, cause, e⟩ | ⟨-, e⟩ <;> rw [e]
  · have hb := h.before_frame (.inl hp)
    exact { h with
      before_frame := fun _ => hb
      in_frame := fun hf => by simp at hf
      valid_iff_done := by simp [hb.2.2] }
  · have hb := h.before_frame (.inr hp)
    exact { h with
      before_frame := fun hb => by simp at hb
      in_frame := fun _ => ⟨rfl, hopen⟩
      valid_iff_done := by simp [hb.2.2]
      edges_le := by simp }
  · exact { h with
      before_frame := fun hb => by simp at hb
      in_frame := fun _ => h.in_frame (.inl hp)
      valid_iff_done := by simp
      bits_le := expandRuns_length_le _ _ (by decide) }
  · exact h

theorem RxInv.pushSession {r : RxSession} (h : RxInv r) (b : Byte) (now : Time) : RxInv (pushSession b now r).1 := by
  have hfeed : RxInv (feedSession b now r) := (h.tePush b).countSample now
  cases hr : r.ready
  · rw [pushSession_of_not_ready hr]; exact hfeed
  · rw [pushSession_of_ready hr]
    exact (hfeed.trackRun _ now).stepState (trackRun_runOpen ..) _ now _

theorem RxInv.rxEffect {r : RxSession} (h : RxInv r) (i : Instr) : RxInv (rxEffect i r) := by
  cases i with
  | rxPush b now => exact h.pushSession b now
  | rxReset => exact RxInv.reset
  | rxCalibrate =>
    simp only [Machine.rxEffect]
    split
    · exact h
    · exact { h with }
  | rxMarkReady => exact { h with }
  | rxMarkNotReady => exact { h with }
  | _ => exact h

/-- Settles O20: each step of a push keeps the invariants, and no other command writes what they speak of. -/
theorem stepKeepsRxInvariants : Obligations.StepKeepsRxInvariants := by
  unfold Obligations.StepKeepsRxInvariants
  intro s t hs h
  exact step_keeps_rx RxInv.reset (fun i r hr => hr.rxEffect i) hs h

end Sys2Proof.Machine
end

section
/-! R36 (e): with timestamps in order the edge list follows the run. The proof follows a push: the sample's timestamp
becomes the latest one, the run tracker brings the run to the sample's level where it is old enough, and the state
machine reads level and run. -/

namespace Sys2Proof.Machine

theorem EdgeInv.reset : EdgeInv RxSession.reset where
  run_open h := absurd rfl h
  run_past h := by simp [RxSession.reset] at h
  armed h := by simp [RxSession.reset] at h
  edges h := by simp [RxSession.reset] at h
  full h := by simp [RxSession.reset] at h
  last_edge h := by simp [RxSession.reset] at h

/-- The part of `EdgeInv` about the edge list: it is in order, and in RECEIVING it ends with the current run, unless
edges were dropped, when it is full. -/
structure EdgesFollowRun (r : RxSession) : Prop where
  edges : r.phase = .receiving ∨ r.phase = .done → EdgesInOrder r.edges
  full : r.phase = .receiving → r.edgeOvf = true → Config.edgeCap ≤ r.edges.length
  last_edge : r.phase = .receiving → r.edgeOvf = false →
    r.edges.getLast? = some ⟨sdiffPattern r.runStart r.origin, r.runLvl⟩ ∧ 0 ≤ sdiff r.runStart r.origin

theorem EdgeInv.edgesFollowRun {r : RxSession} (h : EdgeInv r) : EdgesFollowRun r :=
  ⟨h.edges, h.full, h.last_edge⟩

/-- What holds between the run tracker and the state machine of a push with level `lvl` at `now`. -/
structure RunAtSample (lvl : Bool) (now : Time) (r : RxSession) : Prop where
  run_open : r.runOpen = true
  run_past : 0 ≤ sdiff now r.runStart
  run_lvl : (Config.minRun : Int) ≤ sdiff now r.runStart → r.runLvl = lvl
  armed_high : r.phase = .waitForLow → lvl = true → (Config.startTrigger : Int) ≤ sdiff now r.runStart
  armed_low : r.phase = .waitForLow → lvl = false → r.runLvl = false ∧ r.runStart = now

/-- An edge of the other level at least MIN_RUN after the last one keeps the list in order. -/
theorem EdgesInOrder.append {es : List Edge} {e f : Edge} (h : EdgesInOrder es) (hlast : es.getLast? = some e)
    (hlvl : f.lvl = !e.lvl) (ht : (Config.minRun : Int) ≤ f.t.toInt - e.t.toInt) : EdgesInOrder (es ++ [f]) := by
  refine List.IsChain.append h (List.isChain_singleton f) fun x hx y hy => ?_
  rw [hlast] at hx
  obtain rfl : e = x := by simpa using hx
  obtain rfl : f = y := by simpa using hy
  exact ⟨hlvl, ht⟩

/-- The accepted transition records the new run as the last edge, at least MIN_RUN after the one before (R227). -/
theorem EdgesFollowRun.acceptTransition {r : RxSession} (h : EdgesFollowRun r) {lvl : Bool} {now : Time}
    (hl : lvl ≠ r.runLvl) (hd : (Config.minRun : Int) ≤ sdiff now r.runStart)
    (ho : r.phase = .receiving → 0 ≤ sdiff now r.origin) : EdgesFollowRun (acceptTransition lvl now r) := by
  rcases acceptTransition_cases lvl now r with ⟨hp, hlen, e⟩ | ⟨hp, hlen, e⟩ | ⟨hp, e⟩ <;> rw [e]
  · have hov : r.edgeOvf = false := by
      cases hov : r.edgeOvf
      · rfl
      · have := h.full hp hov; omega
    obtain ⟨hlast, hstart⟩ := h.last_edge hp hov
    have hgap : sdiff now r.origin - sdiff r.runStart r.origin = sdiff now r.runStart :=
      sdiff_sub_of_nonneg (ho hp) hstart
    refine ⟨fun _ => (h.edges (.inl hp)).append hlast ?_ ?_, fun _ hov' => ?_, fun _ _ => ⟨by simp, ho hp⟩⟩
    · exact Bool.eq_not_iff.2 hl
    · rw [sdiffPattern_toInt, sdiffPattern_toInt, hgap]; exact hd
    · exact absurd (hov.symm.trans hov') (by decide)
  · exact ⟨h.edges, fun _ _ => hlen, fun _ hov => by simp at hov⟩
  · exact ⟨h.edges, fun hr => absurd hr hp, fun hr => absurd hr hp⟩

theorem EdgesFollowRun.trackRun {r : RxSession} (h : EdgesFollowRun r) (hopen : r.phase ≠ .idle → r.runOpen = true)
    {now : Time} (ho : r.phase = .receiving → 0 ≤ sdiff now r.origin) (lvl : Bool) :
    EdgesFollowRun (trackRun lvl now r) := by
  rcases trackRun_cases lvl now r with ⟨hc, e⟩ | ⟨-, -, e⟩ | ⟨-, hl, hd, e⟩ <;> rw [e]
  · have hidle : r.phase = .idle := by
      by_contra hne
      exact absurd (hc.symm.trans (hopen hne)) (by decide)
    exact ⟨by simp [hidle], by simp [hidle], by simp [hidle]⟩
  · exact h
  · exact h.acceptTransition hl hd ho

/-- An accepted transition restarts the run at the sample (R227). -/
theorem acceptTransition_run (lvl : Bool) (now : Time) (r : RxSession) :
    (acceptTransition lvl now r).runLvl = lvl ∧ (acceptTransition lvl now r).runStart = now := by
  rcases acceptTransition_cases lvl now r with ⟨-, -, e⟩ | ⟨-, -, e⟩ | ⟨-, e⟩ <;> rw [e] <;> exact ⟨rfl, rfl⟩

/-- Where the run tracker restarts the run at the sample, state machine and run agree on the sample; in WAIT_FOR_LOW
this is a LOW sample. -/
theorem RunAtSample.of_restart {lvl : Bool} {now : Time} {r : RxSession} (hopen : r.runOpen = true)
    (hlvl : r.runLvl = lvl) (hstart : r.runStart = now) (harmed : r.phase = .waitForLow → lvl = false) :
    RunAtSample lvl now r where
  run_open := hopen
  run_past := by rw [hstart, sdiff_self]
  run_lvl _ := hlvl
  armed_high hp hl := absurd (hl.symm.trans (harmed hp)) (by decide)
  armed_low _ hl := ⟨hlvl.trans hl, hstart⟩

/-- The run tracker brings the run to the sample (R225 to R228): a run of at least START_TRIGGER, as WAIT_FOR_LOW has,
is not too short for a transition. -/
theorem EdgeInv.runAtSample_trackRun {r : RxSession} (h : EdgeInv r) {now : Time} (hlast : r.lastTs = now)
    (lvl : Bool) : RunAtSample lvl now (trackRun lvl now r) := by
  subst hlast
  have hrun := trackRun_runOpen lvl r.lastTs r
  rcases trackRun_cases lvl r.lastTs r with ⟨hc, e⟩ | ⟨hopen, hk, e⟩ | ⟨-, hl, -, e⟩ <;> rw [e] at hrun ⊢
  · refine .of_restart hrun rfl rfl fun hp => ?_
    exact absurd (hc.symm.trans (h.run_open (by rw [hp]; decide))) (by decide)
  · have hlvl : (Config.minRun : Int) ≤ sdiff r.lastTs r.runStart → r.runLvl = lvl := fun hd =>
      hk.elim Eq.symm fun hlt => absurd hd (not_le.2 hlt)
    refine ⟨hopen, h.run_past hopen, hlvl, fun hp _ => (h.armed hp).2, fun hp hf => ?_⟩
    obtain ⟨hhigh, hlong⟩ := h.armed hp
    have := hlvl (by simp only [Config.startTrigger, Config.minRun] at *; omega)
    rw [hhigh, hf] at this
    exact absurd this (by decide)
  · obtain ⟨hlvl, hstart⟩ := acceptTransition_run lvl r.lastTs r
    refine .of_restart hrun hlvl hstart fun hp => ?_
    rw [acceptTransition_phase] at hp
    simpa [(h.armed hp).1] using hl

/-- The state machine after the run tracker keeps R36 (e): it arms on a HIGH run of START_TRIGGER, and the first LOW
sample seeds the list with the run it has just started. -/
theorem RunAtSample.edgeInv_stepState {lvl : Bool} {now : Time} {r : RxSession} (h : RunAtSample lvl now r)
    (hlast : r.lastTs = now) (hes : EdgesFollowRun r) : EdgeInv (stepState lvl now (sdiff now r.runStart) r).1 := by
  subst hlast
  obtain ⟨hopen, hpast, hlvl, hhigh, hlow⟩ := h
  rcases stepState_cases lvl r.lastTs (sdiff r.lastTs r.runStart) r with
    ⟨-, hl, hd, e⟩ | ⟨hp, hl, e⟩ | ⟨hp, stop, cause, e⟩ | ⟨hstay, e⟩ <;> rw [e]
  · have hrun : r.runLvl = true :=
      (hlvl (by simp only [Config.startTrigger, Config.minRun] at *; omega)).trans hl
    exact ⟨fun _ => hopen, fun _ => hpast, fun _ => ⟨hrun, hd⟩, by simp, by simp, by simp⟩
  · obtain ⟨hrl, hrs⟩ := hlow hp hl
    refine ⟨fun _ => hopen, fun _ => hpast, by simp, fun _ => List.isChain_singleton _, by simp, fun _ _ => ?_⟩
    simp [hrl, hrs, sdiffPattern]
  · exact ⟨fun _ => hopen, fun _ => hpast, by simp, fun _ => hes.edges (.inl hp), by simp, by simp⟩
  · refine ⟨fun _ => hopen, fun _ => hpast, fun hp => ?_, hes.edges, hes.full, hes.last_edge⟩
    have hlong := hhigh hp (hstay hp)
    exact ⟨(hlvl (by simp only [Config.startTrigger, Config.minRun] at *; omega)).trans (hstay hp), hlong⟩

/-- Steps 1 and 2 of a push (R221, R222) leave all that R36 (e) speaks of, but the latest timestamp. -/
theorem EdgeInv.feedSession {r : RxSession} (h : EdgeInv r) (b : Byte) {now : Time} (hnow : PushInOrder now r) :
    EdgeInv (feedSession b now r) := by
  obtain ⟨win, p10, p90, swing, thr2, e⟩ := tePush_eq b r
  have hrun : r.runOpen = true → 0 ≤ sdiff now r.lastTs ∧ 0 ≤ sdiff now r.runStart := hnow.1
  rw [feedSession_eq, e]
  refine { h with run_past := fun ho => (hrun ho).2, armed := fun hp => ?_ }
  obtain ⟨hlast, hstart⟩ := hrun (h.run_open (by rw [show r.phase = .waitForLow from hp]; decide))
  obtain ⟨hlvl, hlong⟩ := h.armed hp
  exact ⟨hlvl, sdiff_le_trans hlast hlong (by decide) hstart⟩

theorem EdgeInv.pushSession {r : RxSession} (h : EdgeInv r) (b : Byte) {now : Time} (hnow : PushInOrder now r) :
    EdgeInv (pushSession b now r).1 := by
  have hfeed := h.feedSession b hnow
  cases hr : r.ready
  · rw [pushSession_of_not_ready hr]; exact hfeed
  · rw [pushSession_of_ready hr]
    have horigin : (Machine.feedSession b now r).phase = .receiving →
        0 ≤ sdiff now (Machine.feedSession b now r).origin := by
      simpa [feedSession_eq] using hnow.2
    exact (hfeed.runAtSample_trackRun rfl _).edgeInv_stepState (trackRun_lastTs ..)
      (hfeed.edgesFollowRun.trackRun hfeed.run_open horigin _)

theorem EdgeInv.rxEffect {r : RxSession} (h : EdgeInv r) {i : Instr}
    (hnow : ∀ b now, i = .rxPush b now → PushInOrder now r) : EdgeInv (rxEffect i r) := by
  cases i with
  | rxPush b now => exact h.pushSession b (hnow b now rfl)
  | rxReset => exact EdgeInv.reset
  | rxCalibrate =>
    simp only [Machine.rxEffect]
    split
    · exact h
    · exact { h with }
  | rxMarkReady => exact { h with }
  | rxMarkNotReady => exact { h with }
  | _ => exact h

/-- Settles O22: the run tracker and the state machine keep R36 (e) together; no other command writes what it speaks
of. -/
theorem orderedPushesKeepEdgesInOrder : Obligations.OrderedPushesKeepEdgesInOrder := by
  unfold Obligations.OrderedPushesKeepEdgesInOrder
  intro i s t hs hnow h
  rcases exec_units h with ⟨hrx, -⟩ | ⟨-, hrx, -⟩ <;> rw [hrx]
  · exact hs
  · exact hs.rxEffect hnow

end Sys2Proof.Machine
end

section
/-! R48: every step keeps the invariants of the TX state. The tick is the one command with a loop: one round either
leaves the state, ends the transmission or performs an entry, and each keeps the invariants. -/

namespace Sys2Proof.Machine

theorem TxInv.reset : TxInv TxUnit.reset where
  buf_le := by decide
  k_le h := by simp [TxUnit.reset] at h
  idle_off _ := rfl
  busy_none h := by simp [TxUnit.reset] at h
  act_first h := by simp [TxUnit.reset] at h
  act_last h := by simp [TxUnit.reset] at h

/-- An idle unit with the actuator OFF keeps R48 whatever else it holds. -/
theorem TxInv.of_idle {t : TxUnit} (hbuf : t.buf.length ≤ Config.txCap) (hb : t.busy = false)
    (hact : t.act = false) : TxInv t where
  buf_le := hbuf
  k_le h := absurd (hb.symm.trans h) (by decide)
  idle_off _ := hact
  busy_none h := absurd (hb.symm.trans h) (by decide)
  act_first h := absurd (hb.symm.trans h) (by decide)
  act_last h := absurd (hb.symm.trans h) (by decide)

/-- The unit after performing an entry of level `l` (R164). -/
def performEntry (l : Bool) (t : TxUnit) : TxUnit :=
  { t with act := l, k := t.k + 1#13 }

/-- The unit after the completion entry (R164). -/
def completeTransmission (t : TxUnit) : TxUnit :=
  { t with busy := false, outcome := .ok }

@[simp] theorem performEntry_buf (l : Bool) (t : TxUnit) : (performEntry l t).buf = t.buf := rfl
@[simp] theorem performEntry_t0 (l : Bool) (t : TxUnit) : (performEntry l t).t0 = t.t0 := rfl
@[simp] theorem performEntry_busy (l : Bool) (t : TxUnit) : (performEntry l t).busy = t.busy := rfl
@[simp] theorem performEntry_outcome (l : Bool) (t : TxUnit) : (performEntry l t).outcome = t.outcome := rfl
@[simp] theorem performEntry_act (l : Bool) (t : TxUnit) : (performEntry l t).act = l := rfl

/-- In a busy unit that keeps its invariants TX_K is the index of an entry; it has no level only as the completion. -/
theorem TxInv.current_entry {t : TxUnit} (h : TxInv t) (hb : t.busy = true) :
    ∃ e, scheduleEntry t.buf t.t0 t.k.toNat = some e ∧ (e.level = none ↔ t.k.toNat = t.buf.length + 3) :=
  scheduleEntry_exists (h.k_le hb) t.t0

theorem TxInv.performEntry_k {t : TxUnit} (h : TxInv t) (hb : t.busy = true) (l : Bool) :
    (performEntry l t).k.toNat = t.k.toNat + 1 :=
  next_k_toNat h.buf_le (h.k_le hb)

theorem TxInv.performEntry {t : TxUnit} (h : TxInv t) (hb : t.busy = true) {e : ScheduleEntry} {l : Bool}
    (he : scheduleEntry t.buf t.t0 t.k.toNat = some e) (hl : e.level = some l) : TxInv (performEntry l t) := by
  have hk := h.performEntry_k hb l
  obtain ⟨e', he', hnone⟩ := h.current_entry hb
  obtain rfl : e = e' := Option.some.inj (he.symm.trans he')
  have hne : t.k.toNat ≠ t.buf.length + 3 := fun hend => by simp [hnone.2 hend] at hl
  have hle := h.k_le hb
  refine ⟨h.buf_le, fun _ => ?_, fun hi => absurd (hb.symm.trans hi) (by decide), fun _ => h.busy_none hb,
    fun _ hz => ?_, fun _ _ => ⟨e, ?_, hl⟩⟩
  · rw [hk, performEntry_buf]; omega
  · omega
  · rw [hk]; exact he

/-- The completion entry comes right after the STOP entry, which has left the actuator OFF (R143, R146). -/
theorem TxInv.completeTransmission {t : TxUnit} (h : TxInv t) (hb : t.busy = true)
    (hk : t.k.toNat = t.buf.length + 3) : TxInv (completeTransmission t) := by
  obtain ⟨e, he, hl⟩ := h.act_last hb (by omega)
  rw [show t.k.toNat - 1 = t.buf.length + 2 by omega, scheduleEntry_stop] at he
  obtain rfl := Option.some.inj he
  exact .of_idle h.buf_le rfl (Option.some.inj hl).symm

/-- The cases of one round of the tick loop in a busy unit: the current entry is not due, is the completion, or is
performed (R164). -/
theorem TxInv.tickLoop_cases {t : TxUnit} (h : TxInv t) (hb : t.busy = true) (now : Time) (fuel : Nat)
    (evs : List ActEvent) :
    ∃ e, scheduleEntry t.buf t.t0 t.k.toNat = some e ∧
      ((sdiff now e.target < 0 ∧ tickLoop now (fuel + 1) t evs = (t, evs)) ∨
        (0 ≤ sdiff now e.target ∧ e.level = none ∧ t.k.toNat = t.buf.length + 3 ∧
          tickLoop now (fuel + 1) t evs = (Machine.completeTransmission t, evs)) ∨
        (0 ≤ sdiff now e.target ∧ t.k.toNat < t.buf.length + 3 ∧ ∃ l, e.level = some l ∧
          tickLoop now (fuel + 1) t evs =
            tickLoop now fuel (Machine.performEntry l t) (evs ++ [⟨l, .event t.k.toNat e.target⟩]))) := by
  obtain ⟨e, he, hnone⟩ := h.current_entry hb
  refine ⟨e, he, ?_⟩
  rcases lt_or_ge (sdiff now e.target) 0 with hd | hd
  · exact .inl ⟨hd, tickLoop_not_due he (by simpa [entryDue] using hd) _ _⟩
  · have hdue : entryDue now e = true := by simpa [entryDue] using hd
    cases hl : e.level with
    | none => exact .inr (.inl ⟨hd, rfl, hnone.1 hl, tickLoop_completion hb he hdue hl fuel evs⟩)
    | some l =>
      have hne : t.k.toNat ≠ t.buf.length + 3 := fun hend => by simp [hnone.2 hend] at hl
      exact .inr (.inr ⟨hd, lt_of_le_of_ne (h.k_le hb) hne, l, rfl, tickLoop_perform hb he hdue hl fuel evs⟩)

theorem TxInv.tickLoop {t : TxUnit} (h : TxInv t) (now : Time) (fuel : Nat) (evs : List ActEvent) :
    TxInv (tickLoop now fuel t evs).1 := by
  induction fuel generalizing t evs with
  | zero => exact h
  | succ fuel ih =>
    cases hb : t.busy
    · rw [tickLoop_idle hb]; exact h
    · obtain ⟨e, he, ⟨-, heq⟩ | ⟨-, -, hk, heq⟩ | ⟨-, -, l, hl, heq⟩⟩ := h.tickLoop_cases hb now fuel evs <;> rw [heq]
      · exact h
      · exact h.completeTransmission hb hk
      · exact ih (h.performEntry hb he hl) _

theorem TxInv.appended {t : TxUnit} (h : TxInv t) (bs : Bits) : TxInv (appended bs t) := by
  unfold Machine.appended
  split
  · exact h
  · next hroom =>
    obtain ⟨hb, hlen⟩ := not_or.1 hroom
    have hb : t.busy = false := by simpa using hb
    exact .of_idle (by simpa using hlen) hb (h.idle_off hb)

theorem TxInv.txEffect {t : TxUnit} (h : TxInv t) (i : Instr) : TxInv (txEffect i t) := by
  cases i with
  | txClear =>
    cases hb : t.busy <;> simp only [Machine.txEffect, hb]
    · exact .of_idle (Nat.zero_le _) rfl (h.idle_off hb)
    · exact h
  | txAppendByte b => exact h.appended _
  | txAppendBit v => exact h.appended _
  | txStart now =>
    cases hb : t.busy <;> simp only [Machine.txEffect, hb]
    · exact ⟨h.buf_le, fun _ => Nat.zero_le _, by simp, fun _ => rfl, fun _ _ => h.idle_off hb, by simp⟩
    · exact h
  | txTick now => exact h.tickLoop now _ _
  | txActFail =>
    cases hb : t.busy <;> simp only [Machine.txEffect, hb]
    · exact h
    · exact .of_idle h.buf_le rfl rfl
  | _ => exact h

/-- Settles O21: each round of a tick keeps the invariants, and the other commands write the TX state of an idle unit
only, or leave it idle with the actuator OFF. -/
theorem stepKeepsTxInvariants : Obligations.StepKeepsTxInvariants := by
  unfold Obligations.StepKeepsTxInvariants
  intro s t hs h
  exact step_keeps_tx TxInv.reset (fun i t ht => ht.txEffect i) hs h

end Sys2Proof.Machine
end

section
/-! R164: what a whole tick does. `TickPerforms` is the rule's account of it; one entry more keeps the account, so it
holds of the loop by induction on the rounds left. -/

namespace Sys2Proof.Machine

/-- A tick at `now` takes the busy unit `t` to `u` and emits `evs`: one event for each due entry from TX_K on, and the
reason it stops (R164). -/
structure TickPerforms (now : Time) (t u : TxUnit) (evs : List ActEvent) : Prop where
  buf : u.buf = t.buf
  t0 : u.t0 = t.t0
  k : u.k.toNat = t.k.toNat + evs.length
  event_of_entry : ∀ j ev, evs[j]? = some ev → ∃ e l, scheduleEntry t.buf t.t0 (t.k.toNat + j) = some e ∧
    e.level = some l ∧ 0 ≤ sdiff now e.target ∧ ev = ⟨l, .event (t.k.toNat + j) e.target⟩
  act_kept : evs = [] → u.act = t.act
  act_last : ∀ ev, evs.getLast? = some ev → u.act = ev.level
  stops : ∃ e, scheduleEntry t.buf t.t0 u.k.toNat = some e ∧
    ((sdiff now e.target < 0 ∧ u.busy = true ∧ u.outcome = t.outcome) ∨
      (0 ≤ sdiff now e.target ∧ e.level = none ∧ u.busy = false ∧ u.outcome = .ok))

variable {now : Time} {t u : TxUnit} {e : ScheduleEntry} {evs : List ActEvent}

/-- A tick stops at an entry that is not due. -/
theorem TickPerforms.of_not_due (hb : t.busy = true) (he : scheduleEntry t.buf t.t0 t.k.toNat = some e)
    (hd : sdiff now e.target < 0) : TickPerforms now t t [] where
  buf := rfl
  t0 := rfl
  k := rfl
  event_of_entry j ev h := by simp at h
  act_kept _ := rfl
  act_last ev h := by simp at h
  stops := ⟨e, he, .inl ⟨hd, hb, rfl⟩⟩

/-- A tick stops at the completion entry. -/
theorem TickPerforms.of_completion (he : scheduleEntry t.buf t.t0 t.k.toNat = some e) (hd : 0 ≤ sdiff now e.target)
    (hl : e.level = none) : TickPerforms now t (completeTransmission t) [] where
  buf := rfl
  t0 := rfl
  k := rfl
  event_of_entry j ev h := by simp at h
  act_kept _ := rfl
  act_last ev h := by simp at h
  stops := ⟨e, he, .inr ⟨hd, hl, rfl, rfl⟩⟩

/-- A tick performs a due entry, then goes on as from the unit that has performed it. -/
theorem TickPerforms.cons (hinv : TxInv t) (hb : t.busy = true)
    (he : scheduleEntry t.buf t.t0 t.k.toNat = some e) {l : Bool} (hl : e.level = some l)
    (hd : 0 ≤ sdiff now e.target) (h : TickPerforms now (performEntry l t) u evs) :
    TickPerforms now t u (⟨l, .event t.k.toNat e.target⟩ :: evs) where
  buf := h.buf
  t0 := h.t0
  k := by rw [h.k, hinv.performEntry_k hb, List.length_cons]; omega
  event_of_entry j ev hj := by
    cases j with
    | zero => exact ⟨e, l, he, hl, hd, (Option.some.inj hj).symm⟩
    | succ j =>
      have := h.event_of_entry j ev hj
      rwa [hinv.performEntry_k hb, Nat.add_assoc, Nat.add_comm 1 j] at this
  act_kept hnil := by simp at hnil
  act_last ev hev := by
    cases evs with
    | nil =>
      obtain rfl : _ = ev := by simpa using hev
      exact h.act_kept rfl
    | cons ev' evs => exact h.act_last ev (by simpa using hev)
  stops := h.stops

/-- The loop with a round for every entry left performs the due entries, after the events emitted before. -/
theorem TxInv.tickPerforms_tickLoop (h : TxInv t) (hb : t.busy = true) (now : Time) {fuel : Nat}
    (hfuel : t.buf.length + 3 < t.k.toNat + fuel) (evs : List ActEvent) :
    ∃ u new, Machine.tickLoop now fuel t evs = (u, evs ++ new) ∧ TickPerforms now t u new := by
  induction fuel generalizing t evs with
  | zero => have := h.k_le hb; omega
  | succ fuel ih =>
    obtain ⟨e, he, ⟨hd, heq⟩ | ⟨hd, hl, -, heq⟩ | ⟨hd, -, l, hl, heq⟩⟩ := h.tickLoop_cases hb now fuel evs
    · exact ⟨t, [], by rw [heq, List.append_nil], .of_not_due hb he hd⟩
    · exact ⟨_, [], by rw [heq, List.append_nil], .of_completion he hd hl⟩
    · have hk := h.performEntry_k hb l
      obtain ⟨u, new, hrun, hspec⟩ := ih (h.performEntry hb he hl) hb (by rw [hk, performEntry_buf]; omega)
        (evs ++ [⟨l, .event t.k.toNat e.target⟩])
      exact ⟨u, _, by rw [heq, hrun, List.append_assoc]; rfl, hspec.cons h hb he hl hd⟩

/-- A tick has rounds enough for the whole schedule (R143). -/
theorem TxInv.tickPerforms_tick (h : TxInv t) (hb : t.busy = true) (now : Time) :
    TickPerforms now t (tick now t).1 (tick now t).2 := by
  obtain ⟨u, new, hrun, hspec⟩ := h.tickPerforms_tickLoop hb now (fuel := tickFuel t)
    (by unfold tickFuel; omega) []
  rw [tick, hrun]
  exact hspec

/-- A tick while idle does nothing (R164). -/
theorem tick_idle (hb : t.busy = false) (now : Time) : tick now t = (t, []) :=
  tickLoop_idle hb now _ _

/-- `TX_TICK` on the TX port answers what its loop left and emitted (R164). -/
theorem exec_txTick {s : State} (hp : s.port = .tx) (now : Time) :
    exec (.txTick now) s =
      .next (reply ⟨response .ok (tickFlags (tick now s.tx).1 (tick now s.tx).2.length), (tick now s.tx).2⟩
        { s with tx := (tick now s.tx).1 }) :=
  exec_eq (by simp [Instr.op, Op.admits, hp])

end Sys2Proof.Machine
end

section
/-! R164 as the obligation states it, from the account of a whole tick. -/

namespace Sys2Proof.Machine

/-- Settles O33: an idle tick does nothing, and a busy one performs the due entries by `TickPerforms`. -/
theorem tickPerformsTheDueEntries : Obligations.TickPerformsTheDueEntries := by
  unfold Obligations.TickPerformsTheDueEntries
  intro s now hp hinv
  refine ⟨(tick now s.tx).1, (tick now s.tx).2, outcomeCode (tick now s.tx).1.outcome, fun h => by rw [h]; rfl,
    fun h => by rw [h]; rfl, fun h => by rw [h]; rfl, exec_txTick hp now, ?_⟩
  cases hb : s.tx.busy
  · rw [tick_idle hb]
    exact ⟨rfl, rfl, fun _ => ⟨rfl, rfl⟩, by simp⟩
  · have h := hinv.tickPerforms_tick hb now
    exact ⟨h.buf, h.t0, by simp, fun _ => ⟨h.k, h.event_of_entry, h.act_kept, h.act_last, h.stops⟩⟩

end Sys2Proof.Machine
end

section
/-! Which elements a command can change. Of the RX commands only `RX_PUSH` has steps to follow; the tick is the one TX
command with a loop. -/

namespace Sys2Proof.Machine

/-- A push writes none of READY, CAL and BASELINE (10_state.md R21, R26, R27). -/
theorem pushSession_settings (b : Byte) (now : Time) (r : RxSession) :
    (pushSession b now r).1.ready = r.ready ∧ (pushSession b now r).1.cal = r.cal ∧
      (pushSession b now r).1.baseline = r.baseline := by
  cases hr : r.ready
  · rw [pushSession_of_not_ready hr]
    simp [feedSession_eq, hr]
  · rw [pushSession_of_ready hr]
    simp [feedSession_eq, hr]

/-- A tick writes neither TXBUF nor TX_T0 (R40, R43). -/
theorem tickLoop_frame (now : Time) (fuel : Nat) (t : TxUnit) (evs : List ActEvent) :
    (tickLoop now fuel t evs).1.buf = t.buf ∧ (tickLoop now fuel t evs).1.t0 = t.t0 := by
  induction fuel generalizing t evs with
  | zero => exact ⟨rfl, rfl⟩
  | succ fuel ih =>
    unfold tickLoop
    split
    · split
      · exact ⟨rfl, rfl⟩
      · split
        · split
          · exact ⟨rfl, rfl⟩
          · exact ih _ _
        · exact ⟨rfl, rfl⟩
    · exact ⟨rfl, rfl⟩

/-- An append writes the buffer only. -/
theorem appended_eq (bs : Bits) (t : TxUnit) : ∃ buf, appended bs t = { t with buf := buf } := by
  unfold appended
  split
  · exact ⟨t.buf, rfl⟩
  · exact ⟨_, rfl⟩

/-- The writers of READY (R21). -/
theorem rxEffect_ready (i : Instr) (r : RxSession) :
    i.op ∈ [Op.rxMarkReady, .rxMarkNotReady, .rxReset] ∨ (rxEffect i r).ready = r.ready := by
  cases i with
  | rxMarkReady | rxMarkNotReady | rxReset => exact .inl (by decide)
  | rxPush b now => exact .inr (pushSession_settings b now r).1
  | rxCalibrate => exact .inr (by simp only [rxEffect]; split <;> rfl)
  | _ => exact .inr rfl

/-- The writers of CAL and BASELINE (R26, R27). -/
theorem rxEffect_calibration (i : Instr) (r : RxSession) :
    i.op ∈ [Op.rxCalibrate, .rxReset] ∨
      (rxEffect i r).cal = r.cal ∧ (rxEffect i r).baseline = r.baseline := by
  cases i with
  | rxCalibrate | rxReset => exact .inl (by decide)
  | rxPush b now => exact .inr (pushSession_settings b now r).2
  | _ => exact .inr ⟨rfl, rfl⟩

/-- The writers of every other element of the session (R20 to R34). -/
theorem rxEffect_rest (i : Instr) (r : RxSession) :
    i.op ∈ [Op.rxPush, .rxReset] ∨
      { rxEffect i r with ready := r.ready, cal := r.cal, baseline := r.baseline } = r := by
  cases i with
  | rxPush b now => exact .inl (by simp [Instr.op])
  | rxReset => exact .inl (by decide)
  | rxCalibrate => exact .inr (by simp only [rxEffect]; split <;> rfl)
  | _ => exact .inr rfl

/-- The writers of TXBUF (R40). -/
theorem txEffect_buf (i : Instr) (t : TxUnit) :
    i.op ∈ [Op.txClear, .txAppendByte, .txAppendBit] ∨ (txEffect i t).buf = t.buf := by
  cases i with
  | txClear | txAppendByte b | txAppendBit v => exact .inl (by simp [Instr.op])
  | txStart now => exact .inr (by simp only [txEffect]; split <;> rfl)
  | txTick now => exact .inr (tickLoop_frame now _ t []).1
  | txActFail => exact .inr (by simp only [txEffect]; split <;> rfl)
  | _ => exact .inr rfl

/-- The writer of TX_T0 (R43). -/
theorem txEffect_t0 (i : Instr) (t : TxUnit) : i.op = .txStart ∨ (txEffect i t).t0 = t.t0 := by
  cases i with
  | txStart now => exact .inl rfl
  | txTick now => exact .inr (tickLoop_frame now _ t []).2
  | txClear | txActFail => exact .inr (by simp only [txEffect]; split <;> rfl)
  | txAppendByte b | txAppendBit v =>
    obtain ⟨buf, h⟩ := appended_eq _ t
    exact .inr (by rw [txEffect, h])
  | _ => exact .inr rfl

/-- The writers of TX_K (R44). -/
theorem txEffect_k (i : Instr) (t : TxUnit) : i.op ∈ [Op.txStart, .txTick] ∨ (txEffect i t).k = t.k := by
  cases i with
  | txStart now | txTick now => exact .inl (by simp [Instr.op])
  | txClear | txActFail => exact .inr (by simp only [txEffect]; split <;> rfl)
  | txAppendByte b | txAppendBit v =>
    obtain ⟨buf, h⟩ := appended_eq _ t
    exact .inr (by rw [txEffect, h])
  | _ => exact .inr rfl

/-- The writers of TX_BUSY and TX_OUTCOME (R41, R42). -/
theorem txEffect_status (i : Instr) (t : TxUnit) :
    i.op ∈ [Op.txStart, .txTick, .txActFail] ∨
      (txEffect i t).busy = t.busy ∧ (txEffect i t).outcome = t.outcome := by
  cases i with
  | txStart now | txTick now | txActFail => exact .inl (by simp [Instr.op])
  | txClear => exact .inr (by simp only [txEffect]; split <;> exact ⟨rfl, rfl⟩)
  | txAppendByte b | txAppendBit v =>
    obtain ⟨buf, h⟩ := appended_eq _ t
    exact .inr (by rw [txEffect, h]; exact ⟨rfl, rfl⟩)
  | _ => exact .inr ⟨rfl, rfl⟩

/-- The writers of TX_ACT (R45). -/
theorem txEffect_act (i : Instr) (t : TxUnit) : i.op ∈ [Op.txTick, .txActFail] ∨ (txEffect i t).act = t.act := by
  cases i with
  | txTick now | txActFail => exact .inl (by simp [Instr.op])
  | txClear | txStart now => exact .inr (by simp only [txEffect]; split <;> rfl)
  | txAppendByte b | txAppendBit v =>
    obtain ⟨buf, h⟩ := appended_eq _ t
    exact .inr (by rw [txEffect, h])
  | _ => exact .inr rfl

/-- Settles O18: element by element, a command that is none of its writers leaves it. -/
theorem elementsHaveOnlyTheirWriters : Obligations.ElementsHaveOnlyTheirWriters := by
  unfold Obligations.ElementsHaveOnlyTheirWriters
  intro i s t h
  rcases exec_units h with ⟨hrx, htx⟩ | ⟨-, hrx, htx⟩ <;> rw [hrx, htx]
  · simp
  · exact ⟨(rxEffect_ready i s.rx).resolve_right,
      fun hc => (rxEffect_calibration i s.rx).resolve_right fun hk => hc.elim (· hk.1) (· hk.2),
      (rxEffect_rest i s.rx).resolve_right, (txEffect_buf i s.tx).resolve_right,
      (txEffect_t0 i s.tx).resolve_right, (txEffect_k i s.tx).resolve_right,
      fun hc => (txEffect_status i s.tx).resolve_right fun hk => hc.elim (· hk.1) (· hk.2),
      (txEffect_act i s.tx).resolve_right⟩

end Sys2Proof.Machine
end

section
/-! DONE is terminal (44_receive.md R235). -/

namespace Sys2Proof.Machine

/-- The session `r'` is in DONE, with the result, the edge list and the origin of `r`. -/
def KeepsDone (r r' : RxSession) : Prop :=
  r'.phase = .done ∧ r'.res = r.res ∧ r'.edges = r.edges ∧ r'.edgeOvf = r.edgeOvf ∧ r'.origin = r.origin

theorem KeepsDone.refl {r : RxSession} (h : r.phase = .done) : KeepsDone r r :=
  ⟨h, rfl, rfl, rfl, rfl⟩

/-- In DONE the state machine makes no transition (R235). -/
theorem stepState_of_done {r : RxSession} (h : r.phase = .done) (lvl : Bool) (now : Time) (rd : Int) :
    stepState lvl now rd r = (r, false) := by
  simp [stepState, h]

theorem KeepsDone.pushSession {r : RxSession} (h : r.phase = .done) (b : Byte) (now : Time) :
    KeepsDone r (pushSession b now r).1 := by
  have hfeed : (feedSession b now r).phase = .done := by rw [feedSession_eq]; simpa using h
  cases hr : r.ready
  · rw [pushSession_of_not_ready hr]
    simp [KeepsDone, feedSession_eq, h]
  · rw [pushSession_of_ready hr, stepState_of_done (by rw [trackRun_phase]; exact hfeed)]
    obtain ⟨hes, hov⟩ := trackRun_edges_of_not_receiving (r := feedSession b now r) (by rw [hfeed]; decide)
      (classify b (feedSession b now r)) now
    refine ⟨?_, ?_, hes.trans ?_, hov.trans ?_, ?_⟩ <;> simp [feedSession_eq, h]

/-- No effect but that of `RX_RESET` leaves DONE or changes its result. -/
theorem KeepsDone.rxEffect {r : RxSession} (h : r.phase = .done) {i : Instr} (hi : i.op ≠ .rxReset) :
    KeepsDone r (rxEffect i r) := by
  cases i with
  | rxPush b now => exact .pushSession h b now
  | rxReset => exact absurd rfl hi
  | rxCalibrate =>
    simp only [Machine.rxEffect]
    split <;> exact .refl h
  | _ => exact .refl h

theorem KeepsDone.exec {i : Instr} {s t : State} (hdone : s.rx.phase = .done) (hi : i.op ≠ .rxReset)
    (h : exec i s = .next t) : KeepsDone s.rx t.rx := by
  rcases exec_units h with ⟨hrx, -⟩ | ⟨-, hrx, -⟩ <;> rw [hrx]
  · exact .refl hdone
  · exact .rxEffect hdone hi

/-- A word that decodes to `RX_RESET` is on the RX port (30_encoding.md R83, R84). -/
theorem port_of_decode_rxReset {p : Port} {w : Word} (h : decode p w = .ok .rxReset) : p = .rx := by
  obtain ⟨op, -, hadmits, -, hop⟩ := decode_ok h
  have : op = .rxReset := by rw [← instr_op op w, ← hop]; rfl
  rw [this] at hadmits
  simpa [Op.admits] using hadmits

theorem op_eq_rxReset {i : Instr} (h : i.op = .rxReset) : i = .rxReset := by
  cases i with
  | rxReset => rfl
  | _ => exact absurd h (by simp [Instr.op])

/-- Settles O48: of the commands only `RX_RESET` has another effect in DONE, and of the other inputs only the reset
input writes the session. -/
theorem doneIsTerminal : Obligations.DoneIsTerminal := by
  unfold Obligations.DoneIsTerminal
  refine ⟨fun i s t hdone hi h => KeepsDone.exec hdone hi h, fun s t hdone h => ?_⟩
  rcases step_cases h with ⟨-, rfl⟩ | ⟨rest, hp, -⟩ | ⟨p, w, rest, st, -, -, rfl⟩ | ⟨p, w, rest, i, hp, hd, he⟩
  · exact .inr (.inr (KeepsDone.refl hdone))
  · exact .inr (.inl ⟨rest, hp⟩)
  · rw [reply_rx]
    exact .inr (.inr (KeepsDone.refl hdone))
  · by_cases hi : i.op = .rxReset
    · obtain rfl := op_eq_rxReset hi
      obtain rfl := port_of_decode_rxReset hd
      exact .inl ⟨w, rest, hp, hd⟩
    · exact .inr (.inr (KeepsDone.exec (s := takeCommand p rest s) hdone hi he))

/-- Settles O8: the reset input writes the reset value of every element, and the replies stay. -/
theorem hardResetSetsEveryElement : Obligations.HardResetSetsEveryElement := by
  unfold Obligations.HardResetSetsEveryElement
  intro s rest hp
  refine ⟨hardReset (takeReset rest s), ?_, rfl, rfl, rfl, rfl, rfl, rfl⟩
  unfold step
  rw [hp]

/-- Settles O19: the reset values meet the invariants of both units. -/
theorem resetMeetsTheInvariants : Obligations.ResetMeetsTheInvariants :=
  ⟨⟨RxInv.reset, TxInv.reset⟩, EdgeInv.reset⟩

end Sys2Proof.Machine
end

section
/-! The register views of the TX unit and the constants (46_readout.md R310, R320). -/

namespace Sys2Proof.Machine

/-- A count that its field holds is answered as it is (20_memory.md R65). -/
theorem countData_eq {n v : Nat} (hv : v < 2 ^ n) : countData n v = BitVec.ofNat 48 v := by
  refine BitVec.eq_of_toNat_eq ?_
  rw [countData, BitVec.toNat_setWidth, BitVec.toNat_ofNat, BitVec.toNat_ofNat, Nat.mod_eq_of_lt hv]

/-- TX_STATUS: BUSY in bit 0 and the code of TX_OUTCOME above it (R310). -/
theorem txStatus_eq (t : TxUnit) :
    (outcomeCode t.outcome ++ BitVec.ofBool t.busy).setWidth 48 =
      BitVec.ofNat 48 (2 * (outcomeCode t.outcome).toNat + t.busy.toNat) := by
  cases t.outcome <;> cases t.busy <;> rfl

/-- TX_NEXT_TARGET at an entry of the schedule, and beyond the last one (R310). -/
theorem nextTarget_of_entry {t : TxUnit} {e : ScheduleEntry} (h : scheduleEntry t.buf t.t0 t.k.toNat = some e) :
    nextTarget t = e.target := by
  simp [nextTarget, h]

theorem nextTarget_beyond {t : TxUnit} (h : t.buf.length + 3 < t.k.toNat) : nextTarget t = 0#32 := by
  simp [nextTarget, scheduleEntry_beyond h]

/-- The TX register file has six views (R310). -/
theorem txRegister_beyond {idx : BitVec 16} (h : 5 < idx.toNat) (t : TxUnit) : txRegister t idx = none := by
  obtain ⟨n, hn⟩ : ∃ n, idx.toNat = n + 6 := ⟨idx.toNat - 6, by omega⟩
  rw [txRegister, hn]
  rfl

theorem exec_txReadReg {s : State} (hp : s.port = .tx) (idx : BitVec 16) :
    exec (.txReadReg idx) s = respondIndexed (txRegister s.tx idx) s :=
  onPort_of_admits (by simp [Op.admits, hp]) _

/-- `TX_READ_REG` answers the view that its index names. -/
theorem exec_txReadReg_some {s : State} (hp : s.port = .tx) {idx : BitVec 16} {d : Data}
    (h : txRegister s.tx idx = some d) : exec (.txReadReg idx) s = .next (reply ⟨response .ok d, []⟩ s) := by
  rw [exec_txReadReg hp, h, respondIndexed_some]

/-- Settles O38: view by view, and BAD_INDEX from index 6 on. -/
theorem txRegisterViews : Obligations.TxRegisterViews := by
  unfold Obligations.TxRegisterViews
  intro s hp hbuf
  have hstatus : txRegister s.tx 0#16 =
      some (BitVec.ofNat 48 (2 * (outcomeCode s.tx.outcome).toNat + s.tx.busy.toNat)) :=
    congrArg some (txStatus_eq s.tx)
  have hlen : txRegister s.tx 1#16 = some (BitVec.ofNat 48 s.tx.buf.length) :=
    congrArg some (countData_eq (by omega))
  refine ⟨fun h => ?_, fun h => ?_, fun h => ?_, exec_txReadReg_some hp hlen, exec_txReadReg_some hp rfl,
    exec_txReadReg_some hp rfl, exec_txReadReg_some hp rfl, fun e he => ?_, fun hk => ?_, fun idx hidx => ?_⟩
  · rw [exec_txReadReg_some hp hstatus, h]; rfl
  · rw [exec_txReadReg_some hp hstatus, h]; rfl
  · rw [exec_txReadReg_some hp hstatus, h]; rfl
  · exact exec_txReadReg_some hp (congrArg (fun a : Time => some (a.setWidth 48)) (nextTarget_of_entry he))
  · exact exec_txReadReg_some hp (congrArg (fun a : Time => some (a.setWidth 48)) (nextTarget_beyond hk))
  · rw [exec_txReadReg hp, txRegister_beyond hidx, respondIndexed_none]

/-- The constants in the order of their indices (10_state.md R47, R320). -/
def constants : List Nat :=
  [200, 800, 900, 480, 650, 80, 30, 12, 150, 12, 10, 128, 60000, 1024, 4096, 4096]

/-- The constant register file is the list of constants. -/
theorem constRegister_eq (idx : BitVec 16) : constRegister idx = constants[idx.toNat]?.map (BitVec.ofNat 48) := by
  unfold constRegister
  generalize idx.toNat = n
  rcases Nat.lt_or_ge n 16 with h | h
  · interval_cases n <;> rfl
  · obtain ⟨m, rfl⟩ : ∃ m, n = m + 16 := ⟨n - 16, by omega⟩
    rfl

theorem exec_constRead (s : State) (idx : BitVec 16) :
    exec (.constRead idx) s = respondIndexed (constRegister idx) s :=
  onPort_of_admits (op := .constRead) (s := s) rfl _

/-- Settles O56: in every state a read answers the entry of the list of constants. -/
theorem constantsAreHardwired : Obligations.ConstantsAreHardwired := by
  unfold Obligations.ConstantsAreHardwired
  intro s idx
  refine ⟨fun c hc => ?_, fun hidx => ?_⟩ <;> rw [exec_constRead, constRegister_eq]
  · rw [show constants[idx.toNat]? = some c from hc]
    exact respondIndexed_some _ s
  · rw [List.getElem?_eq_none hidx]
    exact respondIndexed_none s

end Sys2Proof.Machine
end

section
/-! R63: the eight bytes of a word and the word of eight bytes undo each other. -/

namespace Sys2Proof

/-- The bytes of a word, least significant first (20_memory.md R63). -/
theorem bytesOfWord_eq (w : Word) :
    bytesOfWord w = [w.extractLsb' 0 8, w.extractLsb' 8 8, w.extractLsb' 16 8, w.extractLsb' 24 8,
      w.extractLsb' 32 8, w.extractLsb' 40 8, w.extractLsb' 48 8, w.extractLsb' 56 8] := rfl

/-- Joined from the most significant byte down, the bytes of a word are the word. -/
theorem wordOfBytes_bytesOfWord (w : Word) : wordOfBytes (bytesOfWord w) = some w := by
  have hjoin (a b m n : Nat) (h : b = a + m) :
      w.extractLsb' b n ++ w.extractLsb' a m = w.extractLsb' a (n + m) :=
    BitVec.extractLsb'_append_extractLsb'_eq_extractLsb' h
  rw [bytesOfWord_eq, wordOfBytes, hjoin, hjoin, hjoin, hjoin, hjoin, hjoin, hjoin]
  · exact congrArg some BitVec.extractLsb'_eq_self
  all_goals rfl

/-- The lowest byte comes first, then the bytes above it. -/
theorem bytes_append {n : Nat} (x : BitVec n) (b : BitVec 8) (k : Nat) :
    (List.range (k + 1)).map (fun i => (x ++ b).extractLsb' (8 * i) 8) =
      b :: (List.range k).map fun i => x.extractLsb' (8 * i) 8 := by
  have hlow : (x ++ b).extractLsb' (8 * 0) 8 = b := by
    rw [BitVec.extractLsb'_append_eq_of_add_le (by omega)]; exact BitVec.extractLsb'_eq_self
  have hhigh (i : Nat) : (x ++ b).extractLsb' (8 * (i + 1)) 8 = x.extractLsb' (8 * i) 8 := by
    rw [BitVec.extractLsb'_append_eq_of_le (by omega), show 8 * (i + 1) - 8 = 8 * i by omega]
  simp only [List.range_succ_eq_map, List.map_cons, List.map_map, Function.comp_def, hlow, hhigh]

/-- Each of eight joined bytes is read back at its place. -/
theorem bytesOfWord_append (b0 b1 b2 b3 b4 b5 b6 b7 : BitVec 8) :
    bytesOfWord (b7 ++ b6 ++ b5 ++ b4 ++ b3 ++ b2 ++ b1 ++ b0) = [b0, b1, b2, b3, b4, b5, b6, b7] := by
  have htop : (List.range 1).map (fun i => b7.extractLsb' (8 * i) 8) = [b7] :=
    congrArg (· :: []) BitVec.extractLsb'_eq_self
  rw [← htop, ← bytes_append, ← bytes_append, ← bytes_append, ← bytes_append, ← bytes_append, ← bytes_append,
    ← bytes_append]
  rfl

/-- Only the bytes of a word make that word. -/
theorem eq_bytesOfWord {bs : List Byte} {w : Word} (h : wordOfBytes bs = some w) : bs = bytesOfWord w := by
  unfold wordOfBytes at h
  split at h
  · obtain rfl := Option.some.inj h
    exact (bytesOfWord_append ..).symm
  · cases h

/-- Settles O5: a word has its eight bytes by definition, and they and the word determine each other. -/
theorem transportIsLittleEndian : Obligations.TransportIsLittleEndian := by
  unfold Obligations.TransportIsLittleEndian
  refine fun w => ⟨rfl, fun i hi => ?_, wordOfBytes_bytesOfWord w, fun bs h => eq_bytesOfWord h⟩
  simp [bytesOfWord, hi]

end Sys2Proof
end

section
/-! R66, R67, R300: the step of a command that decodes, and the commands that leave both units as they are. -/

namespace Sys2Proof.Machine

/-- The step of a command that decodes is `exec` of it where it is taken up (R67, R84). -/
theorem step_decoded {s : State} {p : Port} {w : Word} {rest : List Input} {i : Instr}
    (hp : s.pending = .command p w :: rest) (hd : decode p w = .ok i) : step s = exec i (takeCommand p rest s) := by
  simp only [step, hp, hd]

/-- Settles O6: the step by cases of its oldest input and of the decoder. -/
theorem stepRunsDecodedCommand : Obligations.StepRunsDecodedCommand := by
  unfold Obligations.StepRunsDecodedCommand
  exact fun s p w rest i hp hd => step_decoded hp hd

/-- The read commands and the codec commands (R66, R300). -/
def pureOps : List Op :=
  [.rxReadReg, .rxReadWin, .rxReadEdge, .rxReadResBit, .rxReadResByte, .txReadReg, .txReadBuf, .txReadEvent,
    .constRead, .codecEncByte, .codecDecSym, .codecDecTen]

/-- A read or codec command has no effect on either unit and its answer carries no event. -/
theorem pure_effects {i : Instr} (h : i.op ∈ pureOps) (r : RxSession) (t : TxUnit) :
    rxEffect i r = r ∧ txEffect i t = t ∧ (answer i r t).events = [] := by
  cases i with
  | rxReadReg _ | rxReadWin _ | rxReadEdge _ | rxReadResBit _ | rxReadResByte _ | txReadReg _ | txReadBuf _
  | txReadEvent _ _ | constRead _ => exact ⟨rfl, rfl, readAnswer_events _⟩
  | codecEncByte _ | codecDecSym _ | codecDecTen _ => exact ⟨rfl, rfl, rfl⟩
  | _ => exact absurd h (by simp [Instr.op, pureOps])

/-- Settles O13: on its port such a command is an answer without event and no effect, elsewhere ILLEGAL_OPCODE. -/
theorem readersAndCodecsArePure : Obligations.ReadersAndCodecsArePure := by
  unfold Obligations.ReadersAndCodecsArePure
  intro i s hi
  cases ha : i.op.admits s.port
  · exact ⟨_, exec_of_not_admits ha⟩
  · obtain ⟨hrx, htx, hev⟩ := pure_effects hi s.rx s.tx
    exact ⟨_, by rw [exec_eq ha, hrx, htx, Answer.reply, hev]⟩

end Sys2Proof.Machine
end

section
/-! R66: what a command does the second time. -/

namespace Sys2Proof.Machine

/-- The last reply is the one a command has just given. -/
@[simp] theorem lastReply_reply (r : Reply) (s : State) : lastReply (reply r s) = some r := by
  cases hp : s.port <;> simp [lastReply, reply, hp]

/-- After a tick the unit is idle or its next entry is not due, so a tick at the same time does nothing (R164). -/
theorem TxInv.tick_tick {t : TxUnit} (h : TxInv t) (now : Time) :
    Machine.tick now (tick now t).1 = ((tick now t).1, []) := by
  cases hb : t.busy
  · rw [tick_idle hb, tick_idle hb]
  · have ht := h.tickPerforms_tick hb now
    obtain ⟨e, he, ⟨hd, -, -⟩ | ⟨-, -, hidle, -⟩⟩ := ht.stops
    · rw [← ht.buf, ← ht.t0] at he
      exact tickLoop_not_due he (by simpa [entryDue] using hd) _ _
    · exact tick_idle hidle now

/-- Given again after its own effects, the command has no effect and its answer carries no event. -/
def ChangesNothingMore (i : Instr) (r : RxSession) (t : TxUnit) : Prop :=
  rxEffect i (rxEffect i r) = rxEffect i r ∧ txEffect i (txEffect i t) = txEffect i t ∧
    (answer i (rxEffect i r) (txEffect i t)).events = []

/-- A second calibration takes the median of the same window (R198). -/
theorem changesNothingMore_rxCalibrate (r : RxSession) (t : TxUnit) : ChangesNothingMore .rxCalibrate r t := by
  by_cases hw : r.win.length < Config.calMin <;> simp [ChangesNothingMore, rxEffect, txEffect, answer, hw]

/-- A second clear finds the buffer empty, or the unit still busy (R160). -/
theorem changesNothingMore_txClear (r : RxSession) (t : TxUnit) : ChangesNothingMore .txClear r t := by
  cases hb : t.busy <;> simp [ChangesNothingMore, rxEffect, txEffect, answer, hb]

theorem changesNothingMore_txTick {t : TxUnit} (h : TxInv t) (now : Time) (r : RxSession) :
    ChangesNothingMore (.txTick now) r t := by
  simp [ChangesNothingMore, rxEffect, txEffect, answer, h.tick_tick]

/-- On its port a command that changes nothing more leaves both units and emits nothing the second time; elsewhere it
is ILLEGAL_OPCODE both times. -/
theorem ChangesNothingMore.exec_exec {i : Instr} {s t u : State} (h : ChangesNothingMore i s.rx s.tx)
    (ht : exec i s = .next t) (hu : exec i t = .next u) :
    u.rx = t.rx ∧ u.tx = t.tx ∧ ∀ r, lastReply u = some r → r.events = [] := by
  obtain ⟨hrx, htx, hev⟩ := h
  rcases exec_cases ht with ⟨ha, rfl⟩ | ⟨ha, rfl⟩
  · rw [exec_of_not_admits (by rwa [reply_port])] at hu
    obtain rfl := Host.Outcome.next.inj hu
    simp [Answer.reply]
  · rw [exec_eq (by rwa [reply_port])] at hu
    obtain rfl := Host.Outcome.next.inj hu
    simp [Answer.reply, hrx, htx, hev]

/-- Settles O14: command by command, the second time has no effect and no event. -/
theorem repeatedCommandsChangeNothingMore : Obligations.RepeatedCommandsChangeNothingMore := by
  unfold Obligations.RepeatedCommandsChangeNothingMore
  intro i s t u hi
  refine ChangesNothingMore.exec_exec ?_
  obtain rfl | rfl | rfl | rfl | rfl | ⟨⟨now, rfl⟩, hinv⟩ := hi
  · exact ⟨rfl, rfl, rfl⟩
  · exact ⟨rfl, rfl, rfl⟩
  · exact ⟨rfl, rfl, rfl⟩
  · exact changesNothingMore_rxCalibrate _ _
  · exact changesNothingMore_txClear _ _
  · exact changesNothingMore_txTick hinv now _

end Sys2Proof.Machine
end

section
/-! R68: a command on a port is a function of that port's unit and writes only that unit and the port's replies. From
it follow what a command writes, what it reads, and that the two ports' streams do not disturb each other. -/

namespace Sys2Proof.Machine

/-- What a command on the RX port does to the session and what it answers. The TX unit does not matter
(`answer_of_port`), so the reset one stands for it. -/
def rxCommand (i : Instr) (r : RxSession) : RxSession × Reply :=
  if i.op.admits .rx then (rxEffect i r, (answer i r TxUnit.reset).reply)
  else (r, (errAnswer .illegalOpcode).reply)

/-- What a command on the TX port does to the unit and what it answers. The RX session does not matter
(`answer_of_port`), so the reset one stands for it. -/
def txCommand (i : Instr) (t : TxUnit) : TxUnit × Reply :=
  if i.op.admits .tx then (txEffect i t, (answer i RxSession.reset t).reply)
  else (t, (errAnswer .illegalOpcode).reply)

theorem exec_on_rx {i : Instr} {s : State} (hp : s.port = .rx) :
    exec i s = .next { s with rx := (rxCommand i s.rx).1, rxReplies := s.rxReplies ++ [(rxCommand i s.rx).2] } := by
  cases ha : i.op.admits .rx
  · rw [exec_of_not_admits (by rwa [hp])]
    simp [rxCommand, ha, reply, hp]
  · rw [exec_eq (by rwa [hp]), (effect_of_port ha s.rx s.tx).1 rfl,
      (answer_of_port ha s.rx s.rx s.tx TxUnit.reset).1 rfl]
    simp [rxCommand, ha, reply, hp]

theorem exec_on_tx {i : Instr} {s : State} (hp : s.port = .tx) :
    exec i s = .next { s with tx := (txCommand i s.tx).1, txReplies := s.txReplies ++ [(txCommand i s.tx).2] } := by
  cases ha : i.op.admits .tx
  · rw [exec_of_not_admits (by rwa [hp])]
    simp [txCommand, ha, reply, hp]
  · rw [exec_eq (by rwa [hp]), (effect_of_port ha s.rx s.tx).2 rfl,
      (answer_of_port ha s.rx RxSession.reset s.tx s.tx).2 rfl]
    simp [txCommand, ha, reply, hp]

/-- Settles O15: on each port `exec` writes one unit and the replies of the port. -/
theorem eachPortWritesItsOwnUnit : Obligations.EachPortWritesItsOwnUnit := by
  unfold Obligations.EachPortWritesItsOwnUnit
  refine fun i s t h => ⟨fun hp => ?_, fun hp => ?_⟩
  · rw [exec_on_rx hp] at h
    obtain rfl := Host.Outcome.next.inj h
    exact ⟨rfl, rfl⟩
  · rw [exec_on_tx hp] at h
    obtain rfl := Host.Outcome.next.inj h
    exact ⟨rfl, rfl⟩

/-- Settles O16: on each port what `exec` writes and answers is a function of one unit. -/
theorem eachPortReadsItsOwnUnit : Obligations.EachPortReadsItsOwnUnit := by
  unfold Obligations.EachPortReadsItsOwnUnit
  refine fun i s s' t t' hport h h' => ⟨fun hp hunit => ?_, fun hp hunit => ?_⟩
  · rw [exec_on_rx hp] at h
    rw [exec_on_rx (hport ▸ hp), ← hunit] at h'
    obtain rfl := Host.Outcome.next.inj h
    obtain rfl := Host.Outcome.next.inj h'
    simp [lastReply, ← hport, hp]
  · rw [exec_on_tx hp] at h
    rw [exec_on_tx (hport ▸ hp), ← hunit] at h'
    obtain rfl := Host.Outcome.next.inj h
    obtain rfl := Host.Outcome.next.inj h'
    simp [lastReply, ← hport, hp]

/-- The RX session and the replies on its port. -/
def rxSide (s : State) : RxSession × List Reply := (s.rx, s.rxReplies)

/-- The TX unit and the replies on its port. -/
def txSide (s : State) : TxUnit × List Reply := (s.tx, s.txReplies)

/-- What an input of the RX port's stream does to the RX side: the decoder's status or the command. -/
def rxTurn (v : RxSession × List Reply) : Input → RxSession × List Reply
  | .command _ w =>
    match decode .rx w with
    | .error st => (v.1, v.2 ++ [⟨response st 0#48, []⟩])
    | .ok i => ((rxCommand i v.1).1, v.2 ++ [(rxCommand i v.1).2])
  | .hardReset => v

/-- What an input of the TX port's stream does to the TX side. -/
def txTurn (v : TxUnit × List Reply) : Input → TxUnit × List Reply
  | .command _ w =>
    match decode .tx w with
    | .error st => (v.1, v.2 ++ [⟨response st 0#48, []⟩])
    | .ok i => ((txCommand i v.1).1, v.2 ++ [(txCommand i v.1).2])
  | .hardReset => v

/-- The step of a word on the RX port takes the turn on the RX side and leaves the TX side. -/
theorem step_on_rx {s : State} {w : Word} {rest : List Input} (hp : s.pending = .command .rx w :: rest) :
    ∃ t, step s = .next t ∧ t.pending = rest ∧ rxSide t = rxTurn (rxSide s) (.command .rx w) ∧
      txSide t = txSide s := by
  cases hd : decode .rx w with
  | error st =>
    exact ⟨reply ⟨response st 0#48, []⟩ (takeCommand .rx rest s), by simp only [step, hp, hd, raise_eq], rfl,
      by simp only [rxTurn, hd]; rfl, rfl⟩
  | ok i =>
    exact ⟨_, (step_decoded hp hd).trans (exec_on_rx (takeCommand_port ..)), rfl,
      by simp only [rxTurn, hd]; rfl, rfl⟩

theorem step_on_tx {s : State} {w : Word} {rest : List Input} (hp : s.pending = .command .tx w :: rest) :
    ∃ t, step s = .next t ∧ t.pending = rest ∧ rxSide t = rxSide s ∧
      txSide t = txTurn (txSide s) (.command .tx w) := by
  cases hd : decode .tx w with
  | error st =>
    exact ⟨reply ⟨response st 0#48, []⟩ (takeCommand .tx rest s), by simp only [step, hp, hd, raise_eq], rfl, rfl,
      by simp only [txTurn, hd]; rfl⟩
  | ok i =>
    exact ⟨_, (step_decoded hp hd).trans (exec_on_tx (takeCommand_port ..)), rfl, rfl,
      by simp only [txTurn, hd]; rfl⟩

theorem run_succ {s t : State} (h : step s = .next t) (n : Nat) :
    Sys2Proof.core.run (n + 1) s = Sys2Proof.core.run n t := by
  have hstep : Sys2Proof.core.step s = .next t := h
  simp only [Host.Core.run, hstep]

/-- A run over a list of commands leaves each side as the turns of its own port's stream leave it. -/
theorem run_commands {cs : List Input} (hcs : ∀ c ∈ cs, c.isCommand = true) {s : State} (hp : s.pending = cs) :
    ∃ t, Sys2Proof.core.run cs.length s = .next t ∧ t.pending = [] ∧
      rxSide t = (onlyPort .rx cs).foldl rxTurn (rxSide s) ∧
      txSide t = (onlyPort .tx cs).foldl txTurn (txSide s) := by
  induction cs generalizing s with
  | nil => exact ⟨s, rfl, hp, rfl, rfl⟩
  | cons c cs ih =>
    have hrest : ∀ c ∈ cs, c.isCommand = true := fun c hc => hcs c (List.mem_cons_of_mem _ hc)
    match c with
    | .hardReset => exact absurd (hcs _ List.mem_cons_self) (by decide)
    | .command .rx w =>
      obtain ⟨t, hstep, hpend, hrx, htx⟩ := step_on_rx hp
      rw [← htx, List.length_cons, run_succ hstep]
      simpa [onlyPort, hrx] using ih hrest hpend
    | .command .tx w =>
      obtain ⟨t, hstep, hpend, hrx, htx⟩ := step_on_tx hp
      rw [← hrx, List.length_cons, run_succ hstep]
      simpa [onlyPort, htx] using ih hrest hpend

/-- Settles O17: each side is left by its own port's stream, and the two lists have the same streams. -/
theorem everyInterleavingAgrees : Obligations.EveryInterleavingAgrees := by
  unfold Obligations.EveryInterleavingAgrees
  intro s cs cs' hcs hcs' hrxs htxs
  obtain ⟨t, hrun, hpend, hrx, htx⟩ := run_commands hcs (s := { s with pending := cs }) rfl
  obtain ⟨t', hrun', hpend', hrx', htx'⟩ := run_commands hcs' (s := { s with pending := cs' }) rfl
  obtain ⟨hr, hrr⟩ := Prod.mk.inj (hrx.trans ((congrArg _ hrxs).trans hrx'.symm))
  obtain ⟨ht, htr⟩ := Prod.mk.inj (htx.trans ((congrArg _ htxs).trans htx'.symm))
  exact ⟨t, t', hrun, hrun', hpend, hpend', hr, ht, hrr, htr⟩

end Sys2Proof.Machine
end

section
/-! R62: the value of a group of bits, and its bits in order; the byte append (R161) and the result readers (R306,
R307) rest on it. -/

namespace Sys2Proof.Machine

/-- The bits of a group written out, `g[9]` first (20_memory.md R62). -/
theorem bitsOfGroup_eq (g : Group) :
    bitsOfGroup g = [g.getLsbD 9, g.getLsbD 8, g.getLsbD 7, g.getLsbD 6, g.getLsbD 5, g.getLsbD 4, g.getLsbD 3,
      g.getLsbD 2, g.getLsbD 1, g.getLsbD 0] := rfl

/-- An append of `bs` on an idle unit with room (R161, R162). -/
theorem append_fits {bs : Bits} {t : TxUnit} (hb : t.busy = false) (h : t.buf.length + bs.length ≤ Config.txCap) :
    appended bs t = { t with buf := t.buf ++ bs } ∧
      appendAnswer bs t = okAnswer (BitVec.ofNat 48 (t.buf.length + bs.length)) := by
  simp [appended, appendAnswer, hb, Nat.not_lt.2 h]

/-- An append of `bs` on an idle unit without room for it (R161, R162). -/
theorem append_full {bs : Bits} {t : TxUnit} (hb : t.busy = false) (h : Config.txCap < t.buf.length + bs.length) :
    appended bs t = t ∧ appendAnswer bs t = errAnswer .txFull := by
  simp [appended, appendAnswer, hb, h]

theorem exec_txAppendByte {s : State} (hp : s.port = .tx) (b : Byte) :
    exec (.txAppendByte b) s = .next (reply (appendAnswer (bitsOfGroup (encodeByte b)) s.tx).reply
      { s with tx := appended (bitsOfGroup (encodeByte b)) s.tx }) :=
  exec_eq (by simp [Instr.op, Op.admits, hp])

/-- Settles O30: the append of the ten bits of the byte's group, with and without room. -/
theorem appendByteWhileIdle : Obligations.AppendByteWhileIdle := by
  unfold Obligations.AppendByteWhileIdle
  intro s b hp hb
  refine ⟨fun hroom => ⟨encodeByte b, rfl, ?_⟩, fun hfull => ?_⟩
  · obtain ⟨heffect, hanswer⟩ := append_fits (bs := bitsOfGroup (encodeByte b)) hb (by rwa [bitsOfGroup_length])
    rw [exec_txAppendByte hp, heffect, hanswer, bitsOfGroup_length, bitsOfGroup_eq]
    rfl
  · obtain ⟨heffect, hanswer⟩ := append_full (bs := bitsOfGroup (encodeByte b)) hb (by rwa [bitsOfGroup_length])
    rw [exec_txAppendByte hp, heffect, hanswer]
    rfl

/-- The value of a list of bits, the first the most significant (20_memory.md R62). -/
def bitsValue (bs : Bits) : Nat :=
  ((List.range bs.length).map fun i => (bs.getD i false).toNat * 2 ^ (bs.length - 1 - i)).sum

theorem bitsValue_cons (b : Bool) (bs : Bits) : bitsValue (b :: bs) = b.toNat * 2 ^ bs.length + bitsValue bs := by
  simp [bitsValue, List.range_succ_eq_map, Function.comp_def, Nat.sub_sub, Nat.add_comm 1]

/-- One more bit doubles the value of a group that has room for it, and adds the bit. -/
theorem shiftIn_toNat {g : BitVec 10} (hg : g.toNat < 512) (b : Bool) :
    ((g <<< 1) ||| (BitVec.ofBool b).setWidth 10).toNat = 2 * g.toNat + b.toNat := by
  have hdisj : (g <<< 1) &&& (BitVec.ofBool b).setWidth 10 = 0#10 := by
    ext i hi; cases i <;> simp
  rw [← BitVec.add_eq_or_of_and_eq_zero _ _ hdisj, BitVec.toNat_add, BitVec.toNat_shiftLeft]
  cases b <;> simp [Nat.shiftLeft_eq] <;> omega

/-- Bits read into a group that has room for them. -/
theorem foldl_bits_toNat (bs : Bits) {g : Group} (hg : g.toNat * 2 ^ bs.length + 2 ^ bs.length ≤ 1024) :
    (bs.foldl (fun (g : Group) b => (g <<< 1) ||| (BitVec.ofBool b).setWidth 10) g).toNat =
      g.toNat * 2 ^ bs.length + bitsValue bs := by
  induction bs generalizing g with
  | nil => simp [bitsValue]
  | cons b bs ih =>
    rw [List.length_cons, pow_succ] at hg
    have hpow : 1 ≤ 2 ^ bs.length := Nat.one_le_two_pow
    have hstep := shiftIn_toNat (g := g) (by nlinarith) b
    rw [List.foldl_cons, ih, hstep, bitsValue_cons, List.length_cons, pow_succ]
    · ring
    · rw [hstep]
      cases b <;> simp only [Bool.toNat_true, Bool.toNat_false] <;> nlinarith

/-- A group of ten bits has their value (R62). -/
theorem groupOfBits_toNat {bs : Bits} (h : bs.length = 10) : (groupOfBits bs).toNat = bitsValue bs := by
  rw [groupOfBits, foldl_bits_toNat bs (by simp [h])]
  simp

/-- Group `j` of the recovered bits has the value of the bits from `10 j` on (R276). -/
theorem resultGroup_toNat {q : ResultRecord} {j : Nat} (h : j < q.bits.length / 10) :
    (resultGroup q j).toNat =
      ((List.range 10).map fun i => (q.bits.getD (10 * j + i) false).toNat * 2 ^ (9 - i)).sum := by
  have hlen : ((q.bits.drop (10 * j)).take 10).length = 10 := by
    rw [List.length_take, List.length_drop]; omega
  rw [resultGroup, groupOfBits_toNat hlen, bitsValue, hlen]
  refine congrArg List.sum (List.map_congr_left fun i hi => ?_)
  have hi : i < 10 := List.mem_range.1 hi
  simp [List.getD_eq_getElem?_getD, hi]

theorem exec_rxReadResBit {s : State} (hp : s.port = .rx) (idx : BitVec 16) :
    exec (.rxReadResBit idx) s = respondIndexed (resultBit s.rx.res idx) s :=
  onPort_of_admits (by simp [Op.admits, hp]) _

theorem exec_rxReadResByte {s : State} (hp : s.port = .rx) (idx : BitVec 16) :
    exec (.rxReadResByte idx) s = respondIndexed (resultByte s.rx.res idx) s :=
  onPort_of_admits (by simp [Op.admits, hp]) _

theorem exec_codecDecTen (g : Group) (s : State) :
    exec (.codecDecTen g) s = .next (reply ⟨response .ok ((tenData g).setWidth 48), []⟩ s) :=
  onPort_of_admits (op := .codecDecTen) (s := s) rfl _

/-- Nothing is read without a result, nor past the last bit (R306). -/
theorem resultBit_beyond {q : ResultRecord} {idx : BitVec 16} (h : q.valid = false ∨ q.bits.length ≤ idx.toNat) :
    resultBit q idx = none := by
  rcases h with h | h <;> simp [resultBit, h]

/-- Nothing is read without a result, nor past the last group (R307). -/
theorem resultByte_beyond {q : ResultRecord} {idx : BitVec 16} (h : q.valid = false ∨ q.bits.length / 10 ≤ idx.toNat) :
    resultByte q idx = none := by
  refine if_neg fun ⟨hv, hidx⟩ => ?_
  rcases h with h | h
  · exact absurd (hv.symm.trans h) (by decide)
  · exact absurd hidx (Nat.not_lt.2 h)

/-- Settles O55: the bit at its index; the group with the value of its ten bits beside its decode; else BAD_INDEX. -/
theorem resultIsRead : Obligations.ResultIsRead := by
  unfold Obligations.ResultIsRead
  intro s idx hp
  refine ⟨fun hv v hbit => ?_, fun hbeyond => ?_, fun hv hidx => ?_, fun hbeyond => ?_⟩
  · rw [exec_rxReadResBit hp, resultBit, if_pos hv, hbit]
    rfl
  · rw [exec_rxReadResBit hp, resultBit_beyond hbeyond, respondIndexed_none]
  · refine ⟨resultGroup s.rx.res idx.toNat, tenData (resultGroup s.rx.res idx.toNat), resultGroup_toNat hidx,
      exec_codecDecTen _ s, ?_⟩
    rw [exec_rxReadResByte hp, resultByte, if_pos ⟨hv, hidx⟩]
    rfl
  · rw [exec_rxReadResByte hp, resultByte_beyond hbeyond, respondIndexed_none]

end Sys2Proof.Machine
end

section
/-! R80 to R85: decoding and encoding undo each other on the words a port admits, and which words those are. -/

namespace Sys2Proof

/-! With an admitted opcode the must-be-zero bits decide (R84). -/

theorem decode_of_mbz_clear {p : Port} {w : Word} {op : Op} (hc : op.code = fieldOp w) (ha : op.admits p = true)
    (hz : w &&& op.mbz = 0#64) : decode p w = .ok (op.instr w) := by
  rw [decode_assigned hc ha, if_neg (not_not.2 hz)]

theorem decode_of_mbz_set {p : Port} {w : Word} {op : Op} (hc : op.code = fieldOp w) (ha : op.admits p = true)
    (hz : w &&& op.mbz ≠ 0#64) : decode p w = .error .reservedField := by
  rw [decode_assigned hc ha, if_pos hz]

/-! The word of a command is read back (R81, R83). -/

/-- Every command's word has its unused bits zero and gives its operands back: the family `EncodedForm`. -/
theorem encodedForm (i : Instr) : Laws.EncodedForm.Statement i := by
  cases i with
  | rxPush b t => exact Laws.EncodedForm.rxPush b t
  | rxReset => exact Laws.EncodedForm.rxReset
  | rxCalibrate => exact Laws.EncodedForm.rxCalibrate
  | rxMarkReady => exact Laws.EncodedForm.rxMarkReady
  | rxMarkNotReady => exact Laws.EncodedForm.rxMarkNotReady
  | rxReadReg idx => exact Laws.EncodedForm.rxReadReg idx
  | rxReadWin idx => exact Laws.EncodedForm.rxReadWin idx
  | rxReadEdge idx => exact Laws.EncodedForm.rxReadEdge idx
  | rxReadResBit idx => exact Laws.EncodedForm.rxReadResBit idx
  | rxReadResByte idx => exact Laws.EncodedForm.rxReadResByte idx
  | txClear => exact Laws.EncodedForm.txClear
  | txAppendByte b => exact Laws.EncodedForm.txAppendByte b
  | txAppendBit v => exact Laws.EncodedForm.txAppendBit v
  | txStart t => exact Laws.EncodedForm.txStart t
  | txTick t => exact Laws.EncodedForm.txTick t
  | txActFail => exact Laws.EncodedForm.txActFail
  | txReadReg idx => exact Laws.EncodedForm.txReadReg idx
  | txReadBuf idx => exact Laws.EncodedForm.txReadBuf idx
  | txReadEvent k t => exact Laws.EncodedForm.txReadEvent k t
  | codecEncByte b => exact Laws.EncodedForm.codecEncByte b
  | codecDecSym c => exact Laws.EncodedForm.codecDecSym c
  | codecDecTen g => exact Laws.EncodedForm.codecDecTen g
  | constRead idx => exact Laws.EncodedForm.constRead idx

theorem decode_encode {p : Port} {i : Instr} (ha : i.op.admits p = true) : decode p (encode i) = .ok i := by
  obtain ⟨hA, hT, hread⟩ := encodedForm i
  have hz : encode i &&& i.op.mbz = 0#64 := by
    rw [mbz_clear_iff, fieldRsv_encode, fieldA_encode, fieldT_encode]
    exact ⟨rfl, hA, hT⟩
  rw [decode_of_mbz_clear (fieldOp_encode i).symm ha hz, hread _ (fieldA_encode i) (fieldT_encode i)]

/-- Settles O1: the encoded command has its opcode and clear must-be-zero bits, and its operands are read back. -/
theorem decodeOfEncode : Obligations.DecodeOfEncode := by
  unfold Obligations.DecodeOfEncode
  exact fun p i h => decode_encode h

/-! A word with clear must-be-zero bits is the word of the command it makes (R84). -/

/-- A field whose every bit must be zero is zero. -/
theorem eq_zero_of_and_mask {n : Nat} {x m : BitVec n} (hm : m = BitVec.allOnes n) (h : x &&& m = 0#n) : x = 0#n := by
  rwa [hm, BitVec.and_allOnes] at h

/-- A field A whose bits from `n` up must be zero is its operand of `n` bits. -/
theorem operand_write_back (n : Nat) {x m : BitVec 16} (hm : ∀ i, i < 16 → n ≤ i → m.getLsbD i = true)
    (h : x &&& m = 0#16) : (x.extractLsb' 0 n).setWidth 16 = x := by
  refine BitVec.eq_of_getLsbD_eq fun i hi => ?_
  have hbit : (x.getLsbD i && m.getLsbD i) = false := by rw [← BitVec.getLsbD_and, h, BitVec.getLsbD_zero]
  by_cases hn : i < n
  · simp [hi, hn]
  · rw [hm i hi (by omega), Bool.and_true] at hbit
    simp [hn, hbit]

theorem ofBool_getLsbD_zero (x : BitVec 16) : BitVec.ofBool (x.getLsbD 0) = x.extractLsb' 0 1 := by
  ext i hi
  obtain rfl : i = 0 := by omega
  simp

theorem fieldA_instr {op : Op} {w : Word} (h : fieldA w &&& op.maskA = 0#16) : (op.instr w).fieldA = fieldA w := by
  cases op with
  | rxPush | txAppendByte | codecEncByte => exact operand_write_back 8 (by decide) h
  | codecDecSym => exact operand_write_back 5 (by decide) h
  | codecDecTen => exact operand_write_back 10 (by decide) h
  | txAppendBit =>
    have hbit := operand_write_back 1 (by decide) h
    rwa [← ofBool_getLsbD_zero] at hbit
  | rxReadReg | rxReadWin | rxReadEdge | rxReadResBit | rxReadResByte | txReadReg | txReadBuf | txReadEvent
  | constRead => rfl
  | rxReset | rxCalibrate | rxMarkReady | rxMarkNotReady | txClear | txStart | txTick | txActFail =>
    exact (eq_zero_of_and_mask (by decide) h).symm

theorem fieldT_instr {op : Op} {w : Word} (h : fieldT w &&& op.maskT = 0#32) : (op.instr w).fieldT = fieldT w := by
  cases op with
  | rxPush | txStart | txTick | txReadEvent => rfl
  | _ => exact (eq_zero_of_and_mask (by decide) h).symm

theorem encode_instr {op : Op} {w : Word} (hc : op.code = fieldOp w) (hz : w &&& op.mbz = 0#64) :
    encode (op.instr w) = w := by
  obtain ⟨hR, hA, hT⟩ := (mbz_clear_iff op w).1 hz
  apply word_ext
  · rw [fieldOp_encode, instr_op, hc]
  · rw [fieldRsv_encode, hR]
  · rw [fieldA_encode, fieldA_instr hA]
  · rw [fieldT_encode, fieldT_instr hT]

/-- The decoder reads a command from exactly the word of that command, on the ports that admit it. -/
theorem decode_eq_ok_iff {p : Port} {w : Word} {i : Instr} :
    decode p w = .ok i ↔ i.op.admits p = true ∧ encode i = w := by
  constructor
  · intro h
    obtain ⟨op, hc, ha, hz, rfl⟩ := decode_ok h
    exact ⟨by rwa [instr_op], encode_instr hc hz⟩
  · rintro ⟨ha, rfl⟩
    exact decode_encode ha

/-- Mask and pattern of an admitted opcode select exactly the words that decode to its commands. -/
theorem mask_pattern_iff_decode {p : Port} {op : Op} (ha : op.admits p = true) (w : Word) :
    w &&& op.mask = op.pattern ↔ ∃ i, decode p w = .ok i ∧ i.op = op := by
  rw [mask_pattern_iff]
  constructor
  · rintro ⟨hc, hz⟩
    exact ⟨_, decode_of_mbz_clear hc.symm ha hz, instr_op op w⟩
  · rintro ⟨i, hd, rfl⟩
    obtain ⟨op, hc, -, hz, rfl⟩ := decode_ok hd
    rw [instr_op]
    exact ⟨hc.symm, hz⟩

/-- Settles O2: the decoder by cases of the opcode byte and of the must-be-zero bits. -/
theorem decodeFollowsRule84 : Obligations.DecodeFollowsRule84 := by
  unfold Obligations.DecodeFollowsRule84
  refine fun p w => ⟨decode_unassigned, fun op hc ha => ⟨decode_of_mbz_set hc ha, fun hz => ?_⟩,
    fun op ha => mask_pattern_iff_decode ha w⟩
  exact ⟨op.instr w, decode_of_mbz_clear hc ha hz, instr_op op w, encode_instr hc hz⟩

/-! Which opcode bytes are legal (R82, R85). -/

/-- Without an admitted opcode a word is illegal; with one it decodes, or has a must-be-zero bit set. -/
theorem decode_cases (p : Port) (w : Word) :
    ((∀ op : Op, op.code = fieldOp w → op.admits p = false) ∧ decode p w = .error .illegalOpcode) ∨
    (∃ op : Op, op.code = fieldOp w ∧ op.admits p = true ∧
      (decode p w = .error .reservedField ∨ decode p w = .ok (op.instr w))) := by
  by_cases h : ∃ op : Op, op.code = fieldOp w ∧ op.admits p = true
  · obtain ⟨op, hc, ha⟩ := h
    refine .inr ⟨op, hc, ha, ?_⟩
    by_cases hz : w &&& op.mbz = 0#64
    · exact .inr (decode_of_mbz_clear hc ha hz)
    · exact .inl (decode_of_mbz_set hc ha hz)
  · have hno : ∀ op : Op, op.code = fieldOp w → op.admits p = false := by simpa using h
    exact .inl ⟨hno, decode_unassigned hno⟩

theorem decode_illegal_iff {p : Port} {w : Word} :
    decode p w = .error .illegalOpcode ↔ ∀ op : Op, op.code = fieldOp w → op.admits p = false := by
  refine ⟨fun h => ?_, decode_unassigned⟩
  obtain ⟨hno, -⟩ | ⟨op, -, -, hd | hd⟩ := decode_cases p w
  · exact hno
  · exact absurd (hd.symm.trans h) (by simp)
  · exact absurd (hd.symm.trans h) (by simp)

theorem decode_error_cases {p : Port} {w : Word} {st : Status} (h : decode p w = .error st) :
    st = .illegalOpcode ∨ st = .reservedField := by
  obtain ⟨-, hd⟩ | ⟨op, -, -, hd | hd⟩ := decode_cases p w
  · exact .inl (Except.error.inj (h.symm.trans hd))
  · exact .inr (Except.error.inj (h.symm.trans hd))
  · exact absurd (h.symm.trans hd) (by simp)

/-- The opcodes in the order of R83. -/
def allOps : List Op :=
  [.rxPush, .rxReset, .rxCalibrate, .rxMarkReady, .rxMarkNotReady, .rxReadReg, .rxReadWin, .rxReadEdge,
    .rxReadResBit, .rxReadResByte, .txClear, .txAppendByte, .txAppendBit, .txStart, .txTick, .txActFail, .txReadReg,
    .txReadBuf, .txReadEvent, .codecEncByte, .codecDecSym, .codecDecTen, .constRead]

theorem mem_allOps (op : Op) : op ∈ allOps := by
  cases op <;> decide

/-- The opcode values legal on a port, in ascending order (R85). -/
def legalCodes (p : Port) : List Nat :=
  (allOps.filter fun op => op.admits p).map fun op => op.code.toNat

theorem mem_legalCodes {p : Port} {c : BitVec 8} :
    c.toNat ∈ legalCodes p ↔ ∃ op : Op, op.code = c ∧ op.admits p = true := by
  simp [legalCodes, mem_allOps, BitVec.toNat_inj, and_comm]

theorem decode_illegal_iff_notMem {p : Port} {w : Word} :
    decode p w = .error .illegalOpcode ↔ (fieldOp w).toNat ∉ legalCodes p := by
  simp [decode_illegal_iff, mem_legalCodes]

/-- Settles O3: a word is illegal where no admitted opcode has its byte, and the admitted opcodes have the listed
codes. -/
theorem legalOpcodesOfEachPort : Obligations.LegalOpcodesOfEachPort := by
  unfold Obligations.LegalOpcodesOfEachPort
  exact ⟨fun w => decode_illegal_iff_notMem (p := .rx), fun w => decode_illegal_iff_notMem (p := .tx),
    fun p w st h => decode_error_cases h⟩

/-- Settles O4: seven of the words are the words of their commands; of the two others the first has an opcode its port
does not admit, the second a must-be-zero bit of T set. -/
theorem specWordsDecode : Obligations.SpecWordsDecode := by
  unfold Obligations.SpecWordsDecode
  simp only [decode_eq_ok_iff]
  refine ⟨by decide, by decide, by decide, by decide, by decide, by decide, by decide, ?_, ?_⟩
  · exact decode_illegal_iff_notMem.2 (by decide)
  · exact decode_of_mbz_set (op := .rxReadReg) (by decide) rfl (by decide)

end Sys2Proof
end

section
/-! R82, R90, R341: every input is performed, a command answers once on its own port, and a word that does not decode
there answers its error. -/

namespace Sys2Proof.Machine

/-! The response word as a number (R90, R340). -/

theorem response_toNat (st : Status) (d : Data) :
    (response st d).toNat = (statusCode st).toNat * 2 ^ 56 + d.toNat := by
  unfold response
  rw [BitVec.toNat_append, BitVec.toNat_append, ← Nat.shiftLeft_add_eq_or_of_lt d.isLt,
    ← Nat.shiftLeft_add_eq_or_of_lt (0#8).isLt, Nat.shiftLeft_eq, Nat.shiftLeft_eq, BitVec.toNat_ofNat]
  omega

/-- The status codes of R340. -/
def statusTable : List (Status × Nat) :=
  [(.ok, 0), (.illegalOpcode, 1), (.reservedField, 2), (.badIndex, 3), (.txBusy, 4), (.txFull, 5)]

theorem statusCode_of_mem_statusTable :
    ∀ p ∈ statusTable, (statusCode p.1).toNat = p.2 ∧ statusCode p.1 = BitVec.ofNat 8 p.2 := by
  decide

/-- Settles O57: the fields of a response word, and the codes row by row. -/
theorem responseWordsCarryTheStatusCodes : Obligations.ResponseWordsCarryTheStatusCodes := by
  unfold Obligations.ResponseWordsCarryTheStatusCodes
  intro d p hp
  obtain ⟨hnat, hcode⟩ := statusCode_of_mem_statusTable p hp
  rw [response_toNat, response_status, response_reserved, response_data]
  exact ⟨by rw [hnat], hcode, rfl, rfl⟩

/-! A word that does not decode (R84, R341). -/

/-- The step of a command that does not decode is one reply with the decoder's status. -/
theorem step_undecoded {s : State} {p : Port} {w : Word} {rest : List Input} {st : Status}
    (hp : s.pending = .command p w :: rest) (hd : decode p w = .error st) :
    step s = .next (reply ⟨response st 0#48, []⟩ (takeCommand p rest s)) := by
  simp only [step, hp, hd, raise_eq]

/-- Settles O7: the step by cases of its oldest input and of the decoder. -/
theorem stepAnswersDecodeErrors : Obligations.StepAnswersDecodeErrors := by
  unfold Obligations.StepAnswersDecodeErrors
  exact fun s p w rest st hp hd => step_undecoded hp hd

theorem response_illegalOpcode : response .illegalOpcode 0#48 = 0x0100000000000000#64 := by
  decide

/-- Settles O10: the admission check of `exec` and that of the decoder answer alike. -/
theorem wrongPortIsIllegal : Obligations.WrongPortIsIllegal := by
  unfold Obligations.WrongPortIsIllegal
  rw [← response_illegalOpcode]
  exact ⟨fun i s h => exec_of_not_admits h, fun s p w rest hp hno => step_undecoded hp (decode_unassigned hno)⟩

/-! Every command answers (R82, R90). -/

/-- A command leaves one reply, to which only the two units may have changed, with data only where it is OK. -/
theorem exec_replies (i : Instr) (s : State) : ∃ (a : Answer) (r : RxSession) (t : TxUnit),
    exec i s = .next (reply a.reply { s with rx := r, tx := t }) ∧ (a.status ≠ .ok → a.data = 0#48) := by
  cases ha : i.op.admits s.port
  · exact ⟨_, s.rx, s.tx, exec_of_not_admits ha, fun _ => errAnswer_data _⟩
  · refine ⟨_, _, _, exec_eq ha, fun h => ?_⟩
    obtain ⟨-, -, hdata, -⟩ := answer_error h
    exact hdata

/-- Settles O9: each of the four cases of a step gives a next state. -/
theorem everyStepCompletes : Obligations.EveryStepCompletes := by
  unfold Obligations.EveryStepCompletes
  refine fun s => ⟨?_, fun hp => by simp only [step, hp]⟩
  match hp : s.pending with
  | [] => exact ⟨s, by simp only [step, hp]⟩
  | .hardReset :: rest => exact ⟨hardReset (takeReset rest s), by simp only [step, hp]⟩
  | .command p w :: rest =>
    match hd : decode p w with
    | .error st => exact ⟨_, step_undecoded hp hd⟩
    | .ok i =>
      obtain ⟨_, _, _, he, -⟩ := exec_replies i (takeCommand p rest s)
      exact ⟨_, (step_decoded hp hd).trans he⟩

/-- Settles O11: the reply is appended on the command's port, and its fields are those of the answer. -/
theorem oneResponseOnTheOwnPort : Obligations.OneResponseOnTheOwnPort := by
  unfold Obligations.OneResponseOnTheOwnPort
  intro i s
  obtain ⟨a, r, t, he, hdata⟩ := exec_replies i s
  refine ⟨_, a.reply, he, reply_port .., reply_pending .., fun hp => ?_, fun hp => ?_, response_reserved .., ?_, ?_⟩
  · simp [reply_rxReplies_of_rx, reply_txReplies_of_rx, hp]
  · simp [reply_rxReplies_of_tx, reply_txReplies_of_tx, hp]
  · rw [Answer.reply, response_status]
    exact statusCode_le_five _
  · rw [Answer.reply, response_status, response_data, ne_eq, statusCode_eq_zero_iff]
    exact hdata

end Sys2Proof.Machine
end

section
/-! R110 to R114, R120 to R122: a symbol decodes to the nibble it is the code of, and the three codec commands answer
so. -/

namespace Sys2Proof.Machine

/-! The symbol decoder inverts the table (R112). -/

theorem decodeSymbol_symbolCode (n : BitVec 4) : decodeSymbol (symbolCode n) = some n := by
  revert n; decide

theorem decodeSymbol_eq_some {c : Symbol} {n : BitVec 4} (h : symbolCode n = c) : decodeSymbol c = some n :=
  h ▸ decodeSymbol_symbolCode n

/-- The patterns of no nibble, as R112 lists them. -/
def invalidSymbols : List Symbol :=
  [0b00000#5, 0b00001#5, 0b00010#5, 0b00011#5, 0b00100#5, 0b00101#5, 0b00110#5, 0b00111#5, 0b01000#5, 0b01100#5,
    0b01101#5, 0b10000#5, 0b10001#5, 0b11000#5, 0b11001#5, 0b11111#5]

theorem decodeSymbol_eq_none_iff_mem (c : Symbol) : decodeSymbol c = none ↔ c ∈ invalidSymbols := by
  revert c; decide

/-- What the decoder answers is in the table. -/
theorem symbolCode_of_decodeSymbol {c : Symbol} {n : BitVec 4} : decodeSymbol c = some n → symbolCode n = c := by
  revert c n; decide

theorem decodeSymbol_eq_none_iff (c : Symbol) : decodeSymbol c = none ↔ ∀ n, symbolCode n ≠ c := by
  rw [Option.eq_none_iff_forall_ne_some]
  exact forall_congr' fun n => not_congr ⟨symbolCode_of_decodeSymbol, decodeSymbol_eq_some⟩

/-! `CODEC_DEC_SYM` (R121). -/

theorem exec_codecDecSym (c : Symbol) (s : State) :
    exec (.codecDecSym c) s = .next (reply ⟨response .ok (symData c), []⟩ s) :=
  onPort_of_admits (op := .codecDecSym) (s := s) rfl _

theorem symData_of_code {c : Symbol} {n : BitVec 4} (h : symbolCode n = c) : symData c = n.setWidth 48 := by
  simp [symData, decodeSymbol_eq_some h]

theorem symData_of_no_code {c : Symbol} (h : ∀ n, symbolCode n ≠ c) : symData c = 0x10#48 := by
  simp [symData, (decodeSymbol_eq_none_iff c).2 h]

/-- Settles O25: the decoder inverts the table, and fails exactly on the listed patterns. -/
theorem symbolDecodeInvertsTable : Obligations.SymbolDecodeInvertsTable := by
  unfold Obligations.SymbolDecodeInvertsTable
  refine fun s c => ⟨fun n h => ?_, fun h => ?_, ?_⟩
  · rw [exec_codecDecSym, symData_of_code h]
  · rw [exec_codecDecSym, symData_of_no_code h]
  · rw [← decodeSymbol_eq_none_iff, decodeSymbol_eq_none_iff_mem, invalidSymbols]

/-- Settles O23: the table row by row; the decoder inverts it. -/
theorem symbolTable : Obligations.SymbolTable := by
  unfold Obligations.SymbolTable
  intro s p hp
  have hcode : symbolCode p.1 = p.2 := by
    fin_cases hp <;> rfl
  exact ⟨hcode, by rw [exec_codecDecSym, symData_of_code hcode]⟩

/-! `CODEC_ENC_BYTE` and `CODEC_DEC_TEN` (R120, R122). -/

theorem exec_codecEncByte (b : Byte) (s : State) :
    exec (.codecEncByte b) s = .next (reply ⟨response .ok ((encodeByte b).setWidth 48), []⟩ s) :=
  onPort_of_admits (op := .codecEncByte) (s := s) rfl _

theorem encodeByte_high (b : Byte) : (encodeByte b).extractLsb' 5 5 = symbolCode (b.extractLsb' 4 4) :=
  BitVec.extractLsb'_append_eq_left

theorem encodeByte_low (b : Byte) : (encodeByte b).extractLsb' 0 5 = symbolCode (b.extractLsb' 0 4) :=
  BitVec.extractLsb'_append_eq_right

/-- A group of the codes of a byte's nibbles decodes to the byte (R113). -/
theorem decodeTenBits_of_codes {g : Group} {b : Byte} (hhi : symbolCode (b.extractLsb' 4 4) = g.extractLsb' 5 5)
    (hlo : symbolCode (b.extractLsb' 0 4) = g.extractLsb' 0 5) : decodeTenBits g = some b := by
  have hjoin : b.extractLsb' 4 4 ++ b.extractLsb' 0 4 = b := BitVec.extractLsb'_append_extractLsb'
  simp only [decodeTenBits, highNibble, lowNibble, decodeSymbol_eq_some hhi, decodeSymbol_eq_some hlo, hjoin]

theorem decodeTenBits_of_invalid {g : Group} (h : (hiInvalid g || loInvalid g) = true) : decodeTenBits g = none := by
  rw [decodeTenBits]
  split
  next hhi hlo => simp [hiInvalid, loInvalid, hhi, hlo] at h
  next => rfl

theorem tenData_of_byte {g : Group} {b : Byte} (h : decodeTenBits g = some b) :
    (tenData g).setWidth 48 = b.setWidth 48 := by
  apply BitVec.eq_of_toNat_eq
  simp [tenData, h]

theorem tenData_of_invalid {g : Group} (h : (hiInvalid g || loInvalid g) = true) :
    tenData g = BitVec.ofBool (loInvalid g) ++ BitVec.ofBool (hiInvalid g) ++ 1#1 ++ 0#8 := by
  rw [tenData, decodeTenBits_of_invalid h]
  rfl

theorem hiInvalid_iff (g : Group) : hiInvalid g = true ↔ ∀ n, symbolCode n ≠ g.extractLsb' 5 5 := by
  rw [hiInvalid, Option.isNone_iff_eq_none, highNibble, decodeSymbol_eq_none_iff]

theorem loInvalid_iff (g : Group) : loInvalid g = true ↔ ∀ n, symbolCode n ≠ g.extractLsb' 0 5 := by
  rw [loInvalid, Option.isNone_iff_eq_none, lowNibble, decodeSymbol_eq_none_iff]

/-- `CODEC_DEC_TEN` of a byte's group answers the byte (R114, R122). -/
theorem exec_codecDecTen_of_codes {g : Group} {b : Byte} (s : State)
    (hhi : symbolCode (b.extractLsb' 4 4) = g.extractLsb' 5 5)
    (hlo : symbolCode (b.extractLsb' 0 4) = g.extractLsb' 0 5) :
    exec (.codecDecTen g) s = .next (reply ⟨response .ok (b.setWidth 48), []⟩ s) := by
  rw [exec_codecDecTen, tenData_of_byte (decodeTenBits_of_codes hhi hlo)]

/-- Settles O24: the group is the encoded byte, whose halves are the two codes. -/
theorem encodedByteDecodesBack : Obligations.EncodedByteDecodesBack := by
  unfold Obligations.EncodedByteDecodesBack
  exact fun s b => ⟨encodeByte b, encodeByte_high b, encodeByte_low b, exec_codecEncByte b s,
    exec_codecDecTen_of_codes s (encodeByte_high b).symm (encodeByte_low b).symm⟩

/-- Settles O26: two codes give the byte; otherwise the flags are those of the halves that are no code. -/
theorem groupDecodeReportsEachHalf : Obligations.GroupDecodeReportsEachHalf := by
  unfold Obligations.GroupDecodeReportsEachHalf
  refine fun s g => ⟨fun b hhi hlo => exec_codecDecTen_of_codes s hhi hlo, fun hi lo hhi hlo hinvalid => ?_⟩
  obtain rfl : hi = hiInvalid g := Bool.eq_iff_iff.2 (hhi.trans (hiInvalid_iff g).symm)
  obtain rfl : lo = loInvalid g := Bool.eq_iff_iff.2 (hlo.trans (loInvalid_iff g).symm)
  rw [exec_codecDecTen, tenData_of_invalid hinvalid]

end Sys2Proof.Machine
end

section
/-! R115: the bits of a message are those of its symbols in order, and a run across two symbols is a trailing and a
leading one. -/

namespace Sys2Proof.Machine

/-- A block of more than `p` bits: at most `p` bits `v` lead it, at most `q` trail it, and no run of them in it is longer than `p + q`. -/
structure RunsWithin (v : Bool) (p q : Nat) (xs : Bits) : Prop where
  long : p < xs.length
  lead : ¬ List.replicate (p + 1) v <+: xs
  trail : ¬ List.replicate (q + 1) v <:+ xs
  inner : ¬ List.replicate (p + q + 1) v <:+: xs

theorem replicate_prefix_of_le {v : Bool} {m n : Nat} {xs : Bits} (hmn : m ≤ n) (h : List.replicate n v <+: xs) :
    List.replicate m v <+: xs :=
  (List.prefix_replicate_iff.2 (by simpa using hmn)).trans h

theorem replicate_suffix_of_le {v : Bool} {m n : Nat} {xs : Bits} (hmn : m ≤ n) (h : List.replicate n v <:+ xs) :
    List.replicate m v <:+ xs :=
  (List.suffix_replicate_iff.2 (by simpa using hmn)).trans h

section
variable {v : Bool} {p q : Nat}

theorem RunsWithin.lead_append {xs : Bits} (h : RunsWithin v p q xs) (ys : Bits) :
    ¬ List.replicate (p + 1) v <+: xs ++ ys := by
  intro hrun
  have hlen : (List.replicate (p + 1) v).length ≤ xs.length := by simpa using h.long
  exact h.lead (List.prefix_of_prefix_length_le hrun (List.prefix_append xs ys) hlen)

/-- A run across the joint is made of the bits that trail the block and those that lead the rest. -/
theorem RunsWithin.inner_append {xs ys : Bits} (h : RunsWithin v p q xs) (hlead : ¬ List.replicate (p + 1) v <+: ys)
    (hinner : ¬ List.replicate (p + q + 1) v <:+: ys) : ¬ List.replicate (p + q + 1) v <:+: xs ++ ys := by
  rw [List.infix_append_iff]
  rintro (hxs | hys | ⟨l, r, hsplit, hl, hr⟩)
  · exact h.inner hxs
  · exact hinner hys
  · obtain ⟨hlen, hlv, hrv⟩ := List.replicate_eq_append_iff.1 hsplit
    rw [hlv] at hl
    rw [hrv] at hr
    by_cases hq : q < l.length
    · exact h.trail (replicate_suffix_of_le hq hl)
    · exact hlead (replicate_prefix_of_le (by omega) hr)

/-- Blocks in a row have no longer run than the two parts of one joint. -/
theorem runs_of_blocks {α : Type} {f : α → Bits} (hf : ∀ x, RunsWithin v p q (f x)) (l : List α) :
    ¬ List.replicate (p + 1) v <+: l.flatMap f ∧ ¬ List.replicate (p + q + 1) v <:+: l.flatMap f := by
  induction l with
  | nil => simp
  | cons x l ih =>
    rw [List.flatMap_cons]
    exact ⟨(hf x).lead_append _, (hf x).inner_append ih.1 ih.2⟩

end

/-- The five bits on the line for a nibble, the most significant first (R110). -/
def nibbleBits (n : BitVec 4) : Bits :=
  [(symbolCode n).getLsbD 4, (symbolCode n).getLsbD 3, (symbolCode n).getLsbD 2, (symbolCode n).getLsbD 1,
    (symbolCode n).getLsbD 0]

theorem bitsOfGroup_encodeByte (b : Byte) :
    bitsOfGroup (encodeByte b) = [b.extractLsb' 4 4, b.extractLsb' 0 4].flatMap nibbleBits := by
  simp only [bitsOfGroup_eq, encodeByte, BitVec.getLsbD_append]
  rfl

/-- The bits of a message are those of its nibbles, the high one of each byte first (R111, R140). -/
theorem messageBits_eq (bs : List Byte) :
    messageBits bs = (bs.flatMap fun b => [b.extractLsb' 4 4, b.extractLsb' 0 4]).flatMap nibbleBits := by
  rw [List.flatMap_assoc]
  exact congrArg bs.flatMap (funext bitsOfGroup_encodeByte)

/-- At most one 0 leads a code and at most two trail it. -/
theorem nibbleBits_zeros (n : BitVec 4) : RunsWithin false 1 2 (nibbleBits n) where
  long := by simp [nibbleBits]
  lead := by revert n; decide
  trail := by revert n; decide
  inner := by revert n; decide

/-- At most four 1s lead a code and at most four trail it. -/
theorem nibbleBits_ones (n : BitVec 4) : RunsWithin true 4 4 (nibbleBits n) where
  long := by simp [nibbleBits]
  lead := by revert n; decide
  trail := by revert n; decide
  inner := by revert n; decide

/-- Settles O27: the message is its nibbles' codes in a row, and a run spans at most one joint. -/
theorem messageRunsAreBounded : Obligations.MessageRunsAreBounded := by
  unfold Obligations.MessageRunsAreBounded
  intro bs
  rw [messageBits_eq]
  exact ⟨(runs_of_blocks nibbleBits_zeros _).2, (runs_of_blocks nibbleBits_ones _).2⟩

end Sys2Proof.Machine
end

section
/-! R144: a tick as an equation on the unit, with no rounds left to count: it stops at the current entry, ends the
transmission, or performs the entry and goes on as a tick of the unit after it. -/

namespace Sys2Proof.Machine

variable {now : Time} {t : TxUnit} {e : ScheduleEntry}

/-- The loop appends to the events emitted before and does not read them. -/
theorem tickLoop_events (now : Time) (fuel : Nat) (t : TxUnit) (evs : List ActEvent) :
    tickLoop now fuel t evs = ((tickLoop now fuel t []).1, evs ++ (tickLoop now fuel t []).2) := by
  induction fuel generalizing t evs with
  | zero => simp [tickLoop]
  | succ fuel ih =>
    unfold tickLoop
    split
    · split
      · simp
      · split
        · split
          · simp
          · rw [ih _ (evs ++ _), ih _ ([] ++ _)]
            simp
        · simp
    · simp

/-- A round more than the entries left changes nothing. -/
theorem TxInv.tickLoop_succ (h : TxInv t) (hb : t.busy = true) {fuel : Nat}
    (hfuel : t.buf.length + 3 < t.k.toNat + fuel) (now : Time) (evs : List ActEvent) :
    Machine.tickLoop now (fuel + 1) t evs = Machine.tickLoop now fuel t evs := by
  induction fuel generalizing t evs with
  | zero => have := h.k_le hb; omega
  | succ fuel ih =>
    obtain ⟨e, he, -⟩ := h.current_entry hb
    cases hd : entryDue now e with
    | false => rw [tickLoop_not_due he hd, tickLoop_not_due he hd]
    | true =>
      cases hl : e.level with
      | none => rw [tickLoop_completion hb he hd hl, tickLoop_completion hb he hd hl]
      | some l =>
        rw [tickLoop_perform hb he hd hl, tickLoop_perform hb he hd hl]
        have hk := h.performEntry_k hb l
        exact ih (h.performEntry hb he hl) hb (by rw [hk, performEntry_buf]; omega) _

theorem entryDue_eq_true (hd : 0 ≤ sdiff now e.target) : entryDue now e = true := by
  simpa [entryDue] using hd

theorem tick_not_due (he : scheduleEntry t.buf t.t0 t.k.toNat = some e) (hd : sdiff now e.target < 0) :
    tick now t = (t, []) :=
  tickLoop_not_due he (by simpa [entryDue] using hd) _ _

theorem tick_completion (hb : t.busy = true) (he : scheduleEntry t.buf t.t0 t.k.toNat = some e)
    (hd : 0 ≤ sdiff now e.target) (hl : e.level = none) : tick now t = (completeTransmission t, []) :=
  tickLoop_completion hb he (entryDue_eq_true hd) hl _ _

theorem TxInv.tick_perform (h : TxInv t) (hb : t.busy = true) (he : scheduleEntry t.buf t.t0 t.k.toNat = some e)
    (hd : 0 ≤ sdiff now e.target) {l : Bool} (hl : e.level = some l) :
    tick now t = ((tick now (Machine.performEntry l t)).1,
      ⟨l, .event t.k.toNat e.target⟩ :: (tick now (Machine.performEntry l t)).2) := by
  have hk := h.performEntry_k hb l
  calc tick now t
      = Machine.tickLoop now (t.buf.length + 3) (Machine.performEntry l t) [⟨l, .event t.k.toNat e.target⟩] :=
        tickLoop_perform hb he (entryDue_eq_true hd) hl _ _
    _ = Machine.tickLoop now (t.buf.length + 3 + 1) (Machine.performEntry l t) [⟨l, .event t.k.toNat e.target⟩] :=
        ((h.performEntry hb he hl).tickLoop_succ hb (by rw [hk, performEntry_buf]; omega) now _).symm
    _ = _ := tickLoop_events now _ _ _

theorem TxInv.tick (h : TxInv t) (now : Time) : TxInv (tick now t).1 :=
  h.tickLoop now _ _

/-- Where what is due at `now₁` is due at `now₂`, a tick at `now₂` is a tick at `now₁` and then one at `now₂` (R144). -/
theorem TxInv.tick_eq_tick_tick {now₁ now₂ : Time} (h : TxInv t)
    (hdue : ∀ k e, scheduleEntry t.buf t.t0 k = some e → 0 ≤ sdiff now₁ e.target → 0 ≤ sdiff now₂ e.target) :
    Machine.tick now₂ t = ((Machine.tick now₂ (Machine.tick now₁ t).1).1,
      (Machine.tick now₁ t).2 ++ (Machine.tick now₂ (Machine.tick now₁ t).1).2) := by
  cases hb : t.busy with
  | false => simp [tick_idle hb]
  | true =>
    obtain ⟨n, hn⟩ : ∃ n, t.buf.length + 3 < t.k.toNat + n := ⟨t.buf.length + 4, by omega⟩
    induction n generalizing t with
    | zero => have := h.k_le hb; omega
    | succ n ih =>
      obtain ⟨e, he, -⟩ := h.current_entry hb
      rcases lt_or_ge (sdiff now₁ e.target) 0 with hd₁ | hd₁
      · simp [tick_not_due he hd₁]
      · have hd₂ := hdue _ e he hd₁
        cases hl : e.level with
        | none =>
          rw [tick_completion hb he hd₁ hl, tick_completion hb he hd₂ hl, tick_idle rfl]
          rfl
        | some l =>
          have hk := h.performEntry_k hb l
          have hrest := ih (h.performEntry hb he hl) hdue hb (by rw [hk, performEntry_buf]; omega)
          rw [h.tick_perform hb he hd₁ hl, h.tick_perform hb he hd₂ hl, hrest]
          rfl

/-- What `TX_TICK` leaves on the TX port: the unit after the tick, and one reply more, with its events. -/
theorem exec_txTick_leaves {s : State} (hp : s.port = .tx) (now : Time) :
    ∃ t w, exec (.txTick now) s = .next t ∧ t.port = .tx ∧ t.tx = (Machine.tick now s.tx).1 ∧
      t.txReplies = s.txReplies ++ [⟨w, (Machine.tick now s.tx).2⟩] :=
  ⟨_, _, exec_txTick hp now, (reply_port ..).trans hp, reply_tx ..,
    reply_txReplies_of_tx (s := { s with tx := (Machine.tick now s.tx).1 }) hp _⟩

/-- Settles O34: the tick at the later time is the two ticks, one after the other. -/
theorem earlierTicksDoNotShiftLaterOnes : Obligations.EarlierTicksDoNotShiftLaterOnes := by
  unfold Obligations.EarlierTicksDoNotShiftLaterOnes
  intro s now₁ now₂ hp hinv hdue
  obtain ⟨t₁, w₁, hexec₁, hp₁, htx₁, hreplies₁⟩ := exec_txTick_leaves hp now₁
  obtain ⟨t₂, w₂, hexec₂, -, htx₂, hreplies₂⟩ := exec_txTick_leaves hp₁ now₂
  obtain ⟨t, w, hexec, -, htx, hreplies⟩ := exec_txTick_leaves hp now₂
  rw [htx₁] at htx₂ hreplies₂
  rw [hinv.tick_eq_tick_tick hdue] at htx hreplies
  refine ⟨t₁, t₂, t, w₁, w₂, w, _, _, hexec₁, hexec₂, hexec, htx₂.trans htx.symm, ?_, hreplies⟩
  rw [hreplies₂, hreplies₁, List.append_assoc]
  rfl

end Sys2Proof.Machine
end

section
/-! R145: after a tick the actuator is at the level of the light, because the entries shown are those before TX_K. -/

namespace Sys2Proof.Machine

variable {now : Time} {t : TxUnit} {e : ScheduleEntry}

/-- Where the actuation entries due at `now` are those before entry `k`, they are the entries shown. -/
theorem entriesShown_eq {buf : Bits} {t0 : Time} {k : Nat} (hk : k ≤ buf.length + 3)
    (hbefore : ∀ j e, j < k → scheduleEntry buf t0 j = some e → 0 ≤ sdiff now e.target)
    (hfrom : ∀ j e, k ≤ j → j < buf.length + 3 → scheduleEntry buf t0 j = some e → sdiff now e.target < 0) :
    entriesShown buf t0 now = (List.range k).filterMap (scheduleEntry buf t0) := by
  obtain ⟨n, hn⟩ : ∃ n, buf.length + 3 = k + n := ⟨buf.length + 3 - k, by omega⟩
  rw [entriesShown, hn, List.range_add, List.filterMap_append, List.filter_append, List.filter_eq_self.2,
    List.filter_eq_nil_iff.2, List.append_nil]
  · intro e he
    obtain ⟨j, hj, he⟩ := List.mem_filterMap.1 he
    obtain ⟨i, hi, rfl⟩ := List.mem_map.1 hj
    have hi := List.mem_range.1 hi
    have := hfrom (k + i) e (by omega) (by omega) he
    simpa [entryDue] using this
  · intro e he
    obtain ⟨j, hj, he⟩ := List.mem_filterMap.1 he
    exact entryDue_eq_true (hbefore j e (List.mem_range.1 hj) he)

/-- The light is OFF while no entry is shown. -/
theorem lightAt_of_none_shown {buf : Bits} {t0 : Time} (h : entriesShown buf t0 now = []) :
    lightAt buf t0 now = false := by
  simp [lightAt, h]

/-- The light has the level of the last entry shown. -/
theorem lightAt_of_last_shown {buf : Bits} {t0 : Time} {k : Nat} {l : Bool}
    (h : entriesShown buf t0 now = (List.range (k + 1)).filterMap (scheduleEntry buf t0))
    (he : scheduleEntry buf t0 k = some e) (hl : e.level = some l) : lightAt buf t0 now = l := by
  simp [lightAt, h, List.range_succ, he, hl]

/-- Where a tick stops, the entries before TX_K are due, if those it did not have to perform are. -/
theorem TickPerforms.due_before {u : TxUnit} {evs : List ActEvent} (h : TickPerforms now t u evs)
    (hpast : ∀ j e, j < t.k.toNat → scheduleEntry t.buf t.t0 j = some e → 0 ≤ sdiff now e.target) {j : Nat}
    (hj : j < u.k.toNat) (he : scheduleEntry t.buf t.t0 j = some e) : 0 ≤ sdiff now e.target := by
  rcases Nat.lt_or_ge j t.k.toNat with hlt | hge
  · exact hpast j e hlt he
  · obtain ⟨i, rfl⟩ : ∃ i, j = t.k.toNat + i := ⟨j - t.k.toNat, by omega⟩
    have hi : i < evs.length := by have := h.k; omega
    obtain ⟨e', l, he', -, hd, -⟩ := h.event_of_entry i _ (List.getElem?_eq_getElem hi)
    rwa [Option.some.inj (he.symm.trans he')]

/-- A tick leaves the actuator at the level of the light (R145): at the completion both are OFF, by the STOP entry;
before it TX_ACT is the level of the last entry performed, OFF if there is none (10_state.md R45). -/
theorem TxInv.tick_act_eq_lightAt (h : TxInv t) (hb : t.busy = true)
    (hprefix : ∀ j k e f, j ≤ k → scheduleEntry t.buf t.t0 j = some e → scheduleEntry t.buf t.t0 k = some f →
      0 ≤ sdiff now f.target → 0 ≤ sdiff now e.target)
    (hpast : ∀ j e, j < t.k.toNat → scheduleEntry t.buf t.t0 j = some e → 0 ≤ sdiff now e.target) :
    (Machine.tick now t).1.act = lightAt t.buf t.t0 now := by
  have ht := h.tickPerforms_tick hb now
  have hu := h.tick now
  generalize (Machine.tick now t).1 = u at ht hu
  obtain ⟨e, he, hstop⟩ := ht.stops
  have hbefore : ∀ j f, j < u.k.toNat → scheduleEntry t.buf t.t0 j = some f → 0 ≤ sdiff now f.target :=
    fun j f hj hf => ht.due_before hpast hj hf
  have hle : u.k.toNat ≤ t.buf.length + 3 := by
    by_contra hgt
    rw [scheduleEntry_beyond (not_le.1 hgt)] at he
    exact absurd he (by simp)
  rcases hstop with ⟨hd, hbusy, -⟩ | ⟨-, hl, hidle, -⟩
  · have hshown := entriesShown_eq hle hbefore fun j f hj _ hf =>
      lt_of_not_ge fun hdue => absurd (hprefix _ j e f hj he hf hdue) (not_le.2 hd)
    cases hk : u.k.toNat with
    | zero =>
      rw [hk] at hshown
      rw [lightAt_of_none_shown hshown, hu.act_first hbusy hk]
    | succ k =>
      rw [hk] at hshown
      obtain ⟨f, hf, hfl⟩ := hu.act_last hbusy (by omega)
      rw [ht.buf, ht.t0, hk, Nat.add_sub_cancel] at hf
      exact (lightAt_of_last_shown hshown hf hfl).symm
  · obtain ⟨e', he', hnone⟩ := scheduleEntry_exists hle t.t0
    obtain rfl := Option.some.inj (he.symm.trans he')
    have hk := hnone.1 hl
    have hshown := entriesShown_eq hle hbefore fun j f hj hlt _ => absurd hlt (by omega)
    rw [hk] at hshown
    rw [hu.idle_off hidle, lightAt_of_last_shown hshown (scheduleEntry_stop ..) rfl]

/-- Settles O35: the unit after the tick drives the level of the light. -/
theorem tickDrivesTheLightOfTheSchedule : Obligations.TickDrivesTheLightOfTheSchedule := by
  unfold Obligations.TickDrivesTheLightOfTheSchedule
  intro s t now hp hinv hb hprefix hpast h
  obtain ⟨t', w, hexec, -, htx, -⟩ := exec_txTick_leaves hp now
  obtain rfl := Host.Outcome.next.inj (h.symm.trans hexec)
  rw [htx, hinv.tick_act_eq_lightAt hb hprefix hpast]

end Sys2Proof.Machine
end

section
/-! R146, R151, R165: what ends a transmission. -/

namespace Sys2Proof.Machine

/-- An effect that ends a transmission is that of a tick or of an actuator failure. -/
theorem txEffect_ends_transmission {t : TxUnit} (h : TxInv t) (hb : t.busy = true) {i : Instr}
    (hend : (txEffect i t).busy = false) :
    (txEffect i t).act = false ∧ (txEffect i t).buf = t.buf ∧
      (((∃ now, i = .txTick now) ∧ (txEffect i t).outcome = .ok) ∨
        (i = .txActFail ∧ (txEffect i t).outcome = .failed)) := by
  refine ⟨(h.txEffect i).idle_off hend, ?_⟩
  rcases txEffect_status i t with hi | ⟨hbusy, -⟩
  · cases i with
    | txTick now =>
      have ht := h.tickPerforms_tick hb now
      obtain ⟨e, -, ⟨-, hbusy, -⟩ | ⟨-, -, -, hok⟩⟩ := ht.stops
      · exact absurd (hend.symm.trans hbusy) (by decide)
      · exact ⟨ht.buf, .inl ⟨⟨now, rfl⟩, hok⟩⟩
    | txActFail => simp [txEffect, hb]
    | txStart now => simp [txEffect, hb] at hend
    | _ => simp [Instr.op] at hi
  · rw [hend, hb] at hbusy
    exact absurd hbusy (by decide)

/-- A command that ends a transmission is a tick or an actuator failure. -/
theorem exec_ends_transmission {i : Instr} {s t : State} (h : TxInv s.tx) (hb : s.tx.busy = true)
    (hexec : exec i s = .next t) (hend : t.tx.busy = false) :
    t.tx.act = false ∧ t.tx.buf = s.tx.buf ∧
      (((∃ now, i = .txTick now) ∧ t.tx.outcome = .ok) ∨ (i = .txActFail ∧ t.tx.outcome = .failed)) := by
  rcases exec_units hexec with ⟨-, htx⟩ | ⟨-, -, htx⟩ <;> rw [htx] at hend ⊢
  · exact absurd (hb.symm.trans hend) (by decide)
  · exact txEffect_ends_transmission h hb hend

/-- A port that decodes a word to a tick or an actuator failure is the TX port (30_encoding.md R82, R83). -/
theorem port_of_decode_txOp {p : Port} {w : Word} {i : Instr} (h : decode p w = .ok i)
    (hi : i.op = .txTick ∨ i.op = .txActFail) : p = .tx := by
  have ha := (decode_eq_ok_iff.1 h).1
  rcases hi with hi | hi <;> rw [hi] at ha <;> simpa [Op.admits] using ha

/-- Settles O37: a command ends a transmission by its effect, and of the other steps only the reset input writes the TX
unit. -/
theorem transmissionEndsWithActuatorOff : Obligations.TransmissionEndsWithActuatorOff := by
  unfold Obligations.TransmissionEndsWithActuatorOff
  refine ⟨fun i s t h hb hexec hend => exec_ends_transmission h hb hexec hend, fun s t h hb hstep hend => ?_⟩
  rcases step_cases hstep with ⟨-, rfl⟩ | ⟨rest, hp, rfl⟩ | ⟨p, w, rest, st, -, -, rfl⟩ | ⟨p, w, rest, i, hp, hd, he⟩
  · exact absurd (hb.symm.trans hend) (by decide)
  · exact ⟨rfl, .inr (.inr ⟨rest, hp, rfl⟩)⟩
  · rw [reply_tx] at hend
    exact absurd (hb.symm.trans hend) (by decide)
  · obtain ⟨hact, -, ⟨⟨now, rfl⟩, hok⟩ | ⟨rfl, hfailed⟩⟩ :=
      exec_ends_transmission (s := takeCommand p rest s) h hb he hend
    · obtain rfl := port_of_decode_txOp hd (.inl rfl)
      exact ⟨hact, .inl ⟨w, rest, now, hp, hd, hok⟩⟩
    · obtain rfl := port_of_decode_txOp hd (.inr rfl)
      exact ⟨hact, .inr (.inl ⟨w, rest, hp, hd, hfailed⟩)⟩

/-- Settles O36: both branches of the failure's meaning (R165). -/
theorem actuatorFailureForcesOff : Obligations.ActuatorFailureForcesOff := by
  unfold Obligations.ActuatorFailureForcesOff
  intro s hp
  have hexec : exec .txActFail s = perform .txActFail s := by
    rw [exec_eq_perform, onPort_of_admits (by simp [Instr.op, Op.admits, hp])]
  refine ⟨fun hb => ?_, fun hb => ?_⟩ <;> rw [hexec, perform, hb]
  · exact respondWith_eq ..
  · exact respond_eq ..

end Sys2Proof.Machine
end

section
/-! R147, R160 to R163: the four buffer commands, refused during a transmission. -/

namespace Sys2Proof.Machine

/-- On the TX port the four buffer commands act behind the check that no transmission is active. -/
theorem exec_bufferOp {i : Instr} {s : State} (hp : s.port = .tx)
    (hi : i.op ∈ [Op.txStart, .txClear, .txAppendByte, .txAppendBit]) :
    ∃ k, exec i s = whileIdle s k := by
  rw [exec_eq_perform]
  cases i with
  | txClear | txAppendByte b | txAppendBit v | txStart now =>
    exact ⟨_, onPort_of_admits (by simp [Instr.op, Op.admits, hp]) _⟩
  | _ => simp [Instr.op] at hi

/-- Settles O32: the check refuses them. -/
theorem busyTransmitterRefuses : Obligations.BusyTransmitterRefuses := by
  unfold Obligations.BusyTransmitterRefuses
  intro i s hp hb hi
  obtain ⟨k, hexec⟩ := exec_bufferOp hp hi
  rw [hexec, whileIdle_of_busy hb, raise_eq]

/-- Settles O29: both commands on a unit that the check lets pass. -/
theorem clearAndStartWhileIdle : Obligations.ClearAndStartWhileIdle := by
  unfold Obligations.ClearAndStartWhileIdle
  intro s t hp hb
  constructor <;>
    rw [exec_eq_perform, onPort_of_admits (by simp [Instr.op, Op.admits, hp]), perform,
      whileIdle_of_idle hb, respond_eq]

theorem exec_txAppendBit {s : State} (hp : s.port = .tx) (v : Bool) :
    exec (.txAppendBit v) s =
      .next (reply (appendAnswer [v] s.tx).reply { s with tx := appended [v] s.tx }) :=
  exec_eq (by simp [Instr.op, Op.admits, hp])

/-- Settles O31: the append of one bit, with and without room. -/
theorem appendBitWhileIdle : Obligations.AppendBitWhileIdle := by
  unfold Obligations.AppendBitWhileIdle
  intro s v hp hb
  refine ⟨fun hroom => ?_, fun hfull => ?_⟩ <;> rw [exec_txAppendBit hp]
  · obtain ⟨heffect, hanswer⟩ := append_fits (bs := [v]) hb hroom
    rw [heffect, hanswer]
    rfl
  · obtain ⟨heffect, hanswer⟩ := append_full (bs := [v]) hb hfull
    rw [heffect, hanswer]
    rfl

end Sys2Proof.Machine
end

section
/-! R143, R312: `TX_READ_EVENT` reads the schedule. -/

namespace Sys2Proof.Machine

/-- `TX_READ_EVENT` on the TX port answers the entry its index names, if there is one. -/
theorem exec_txReadEvent {s : State} (hp : s.port = .tx) {k : BitVec 16} {n : Nat} (hk : k.toNat = n) (t : Time) :
    exec (.txReadEvent k t) s = respondIndexed ((scheduleEntry s.tx.buf t n).map entryData) s := by
  rw [exec_eq_perform, onPort_of_admits (by simp [Instr.op, Op.admits, hp]), perform, hk]

/-- Settles O28: the reader gives each row of the schedule table. -/
theorem scheduleTableIsRead : Obligations.ScheduleTableIsRead := by
  unfold Obligations.ScheduleTableIsRead
  intro s k t hp
  refine ⟨fun hk => ?_, fun hk => ?_, fun i v hv hk => ?_, fun hk => ?_, fun hk => ?_, fun hk => ?_⟩
  · rw [exec_txReadEvent hp hk, scheduleEntry_zero]
    rfl
  · rw [exec_txReadEvent hp hk, scheduleEntry_one]
    rfl
  · rw [exec_txReadEvent hp hk, scheduleEntry_bit hv]
    rfl
  · rw [exec_txReadEvent hp hk, scheduleEntry_stop]
    rfl
  · rw [exec_txReadEvent hp hk, scheduleEntry_completion]
    rfl
  · rw [exec_txReadEvent hp rfl, scheduleEntry_beyond hk]
    rfl

end Sys2Proof.Machine
end

section
/-! R190 to R199: a push leaves the estimator as its threshold step does; `RX_CALIBRATE` writes the baseline and CAL. -/

namespace Sys2Proof.Machine

/-- P10, P90, SWING and THR2 are those of the window and the calibration (R192 to R194). -/
structure Estimated (r : RxSession) : Prop where
  p10 : r.p10 = percentile10 r.win
  p90 : r.p90 = percentile90 r.win
  swing : r.swing = r.p90 - r.p10
  thr2 : r.thr2 = selectThr2 r.cal r.baseline r.p10 r.p90 r.swing

theorem recompute_estimated (r : RxSession) : Estimated (recompute r) := ⟨rfl, rfl, rfl, rfl⟩

theorem Estimated.p10_le_p90 {r : RxSession} (h : Estimated r) (hw : Config.winMin ≤ r.win.length) :
    r.p10.toNat ≤ r.p90.toNat := by
  rw [h.p10, h.p90]
  exact percentile10_le_percentile90 hw

/-- The swing is the difference of the percentiles as integers (R193). -/
theorem Estimated.swing_toNat {r : RxSession} (h : Estimated r) (hw : Config.winMin ≤ r.win.length) :
    r.swing.toNat = r.p90.toNat - r.p10.toNat := by
  rw [h.swing, BitVec.toNat_sub_of_le (h.p10_le_p90 hw)]

theorem Estimated.thr2_toNat {r : RxSession} (h : Estimated r) :
    r.thr2.toNat =
      if r.cal then 2 * (r.baseline.toNat + Config.calOffset)
      else if Config.swingFloor ≤ r.swing.toNat then r.p10.toNat + r.p90.toNat
      else 2 * Config.defaultThreshold := by
  rw [h.thr2, selectThr2_toNat]

/-- With contrast and no calibration the doubled threshold is P10 + P90 (R199). -/
theorem Estimated.thr2_between {r : RxSession} (h : Estimated r) (hw : Config.winMin ≤ r.win.length)
    (hcal : r.cal = false) (hswing : Config.swingFloor ≤ r.swing.toNat) :
    2 * r.p10.toNat ≤ r.thr2.toNat ∧ r.thr2.toNat ≤ 2 * r.p90.toNat := by
  have hle := h.p10_le_p90 hw
  rw [h.thr2_toNat, hcal, if_neg Bool.false_ne_true, if_pos hswing]
  omega

/-- The percentiles stand at their indices in the sorted window (R192). -/
theorem Estimated.percentiles_getElem? {r : RxSession} (h : Estimated r) (hw : Config.winMin ≤ r.win.length) :
    (sortSamples r.win)[r.win.length / 10]? = some r.p10 ∧
      (sortSamples r.win)[9 * r.win.length / 10]? = some r.p90 := by
  obtain ⟨h10, h90, -⟩ := percentile_index hw
  rw [h.p10, h.p90]
  exact ⟨sampleAt_eq (by rwa [sortSamples_length]), sampleAt_eq (by rwa [sortSamples_length])⟩

/-- After its threshold step a push leaves the window and the four values alone (R220). -/
theorem pushSession_estimate (b : Byte) (now : Time) (r : RxSession) :
    (pushSession b now r).1.win = (tePush b r).win ∧ (pushSession b now r).1.p10 = (tePush b r).p10 ∧
      (pushSession b now r).1.p90 = (tePush b r).p90 ∧ (pushSession b now r).1.swing = (tePush b r).swing ∧
      (pushSession b now r).1.thr2 = (tePush b r).thr2 := by
  cases hr : r.ready
  · rw [pushSession_of_not_ready hr]
    simp [feedSession_eq]
  · rw [pushSession_of_ready hr]
    simp [feedSession_eq]

theorem pushSession_win (b : Byte) (now : Time) (r : RxSession) :
    (pushSession b now r).1.win = windowPush b r.win := by
  rw [(pushSession_estimate b now r).1, tePush_win]

/-- With at least WIN_MIN samples a push estimates from the window it leaves (R190). -/
theorem pushSession_estimated {b : Byte} {now : Time} {r : RxSession}
    (hw : Config.winMin ≤ (pushSession b now r).1.win.length) : Estimated (pushSession b now r).1 := by
  rw [pushSession_win] at hw
  obtain ⟨hwin, h10, h90, hswing, hthr2⟩ := pushSession_estimate b now r
  obtain ⟨-, hcal, hbase⟩ := pushSession_settings b now r
  have h : Estimated (tePush b r) := by
    rw [tePush_recompute hw]
    exact recompute_estimated _
  exact {
    p10 := by rw [h10, hwin, h.p10]
    p90 := by rw [h90, hwin, h.p90]
    swing := by rw [hswing, h10, h90, h.swing]
    thr2 := by rw [hthr2, hcal, hbase, h10, h90, hswing, h.thr2, tePush_cal, tePush_baseline] }

/-- With fewer than WIN_MIN samples a push keeps the four values (R191). -/
theorem pushSession_warm_up {b : Byte} {now : Time} {r : RxSession}
    (hw : (pushSession b now r).1.win.length < Config.winMin) :
    (pushSession b now r).1.p10 = r.p10 ∧ (pushSession b now r).1.p90 = r.p90 ∧
      (pushSession b now r).1.swing = r.swing ∧ (pushSession b now r).1.thr2 = r.thr2 := by
  rw [pushSession_win] at hw
  obtain ⟨-, h⟩ := pushSession_estimate b now r
  rwa [tePush_warm_up hw] at h

theorem exec_rxPush {s : State} (hp : s.port = .rx) (b : Byte) (now : Time) :
    exec (.rxPush b now) s =
      .next (reply (answer (.rxPush b now) s.rx s.tx).reply { s with rx := (pushSession b now s.rx).1 }) :=
  exec_eq (by simp [Instr.op, Op.admits, hp])

/-- Settles O40: the sorted copy is `sortSamples` of the window the push leaves. -/
theorem pushUpdatesThreshold : Obligations.PushUpdatesThreshold := by
  unfold Obligations.PushUpdatesThreshold
  intro s b now hp
  obtain ⟨-, hcal, hbase⟩ := pushSession_settings b now s.rx
  refine ⟨_, exec_rxPush hp b now, ?_⟩
  rw [reply_rx]
  refine ⟨(pushSession_win b now s.rx).trans (windowPush_eq b s.rx.win), hcal, hbase, pushSession_warm_up, fun hw => ?_⟩
  have h : Estimated (pushSession b now s.rx).1 := pushSession_estimated hw
  obtain ⟨h10, h90⟩ := h.percentiles_getElem? hw
  exact ⟨sortSamples _, sortSamples_perm _, sortSamples_pairwise _, h10, h90, h.swing_toNat hw, h.p10_le_p90 hw,
    h.thr2_toNat⟩

/-- Settles O41: the percentiles are samples of the window, and the doubled threshold is their sum. -/
theorem thresholdLiesInTheWindow : Obligations.ThresholdLiesInTheWindow := by
  unfold Obligations.ThresholdLiesInTheWindow
  intro s t b now hp hexec hw hcal hswing
  rw [exec_rxPush hp] at hexec
  obtain rfl := Host.Outcome.next.inj hexec
  rw [reply_rx] at hw hcal hswing ⊢
  have h : Estimated (pushSession b now s.rx).1 := pushSession_estimated hw
  exact ⟨_, h.p10 ▸ percentile10_mem hw, _, h.p90 ▸ percentile90_mem hw, rfl, rfl, h.thr2_between hw hcal hswing⟩

/-- Settles O42: the median is the sample at index n div 2 of `sortSamples` of the window. -/
theorem calibrateTakesTheMedian : Obligations.CalibrateTakesTheMedian := by
  unfold Obligations.CalibrateTakesTheMedian
  intro s hp
  have hexec : exec .rxCalibrate s = perform .rxCalibrate s := by
    rw [exec_eq_perform, onPort_of_admits (by simp [Instr.op, Op.admits, hp])]
  refine ⟨fun hw => ?_, fun hw => ?_⟩
  · rw [hexec, perform, if_pos hw, respond_eq]
  · have hindex : s.rx.win.length / 2 < (sortSamples s.rx.win).length := by
      rw [sortSamples_length]
      omega
    refine ⟨sortSamples s.rx.win, _, sortSamples_perm _, sortSamples_pairwise _, sampleAt_eq hindex, ?_⟩
    rw [hexec, perform, if_neg (Nat.not_lt.2 hw), respond_eq]

end Sys2Proof.Machine
end

section
/-! R220 to R224: what a push answers and counts, and the gate. Behind the gate a push is the state machine on the
session the run tracker leaves. -/

namespace Sys2Proof.Machine

/-- Steps 1 and 2 of a push leave STATE, READY, the run, the frame and the result alone (R221, R222). -/
@[simp] theorem feedSession_frame (b : Byte) (now : Time) (r : RxSession) :
    (feedSession b now r).phase = r.phase ∧ (feedSession b now r).ready = r.ready ∧
      (feedSession b now r).runOpen = r.runOpen ∧ (feedSession b now r).runLvl = r.runLvl ∧
      (feedSession b now r).runStart = r.runStart ∧ (feedSession b now r).origin = r.origin ∧
      (feedSession b now r).edges = r.edges ∧ (feedSession b now r).edgeOvf = r.edgeOvf ∧
      (feedSession b now r).res = r.res := by
  simp [feedSession_eq]

/-- The level a push answers (R223). -/
def pushLevel (b : Byte) (now : Time) (r : RxSession) : Bool :=
  classify b (feedSession b now r)

/-- It compares the sample with the threshold the push leaves (R223). -/
theorem pushLevel_eq (b : Byte) (now : Time) (r : RxSession) :
    pushLevel b now r = decide ((pushSession b now r).1.thr2.toNat < 2 * b.toNat) := by
  obtain ⟨-, -, -, -, hthr2⟩ := pushSession_estimate b now r
  rw [hthr2, pushLevel, classify, feedSession_eq, countSample_thr2]

/-- A push keeps the count and the timestamps of its counting step (R222). -/
theorem pushSession_counts (b : Byte) (now : Time) (r : RxSession) :
    (pushSession b now r).1.sampleCnt = (feedSession b now r).sampleCnt ∧
      (pushSession b now r).1.firstTs = (feedSession b now r).firstTs ∧
      (pushSession b now r).1.lastTs = (feedSession b now r).lastTs := by
  cases hr : r.ready
  · rw [pushSession_of_not_ready hr]
    exact ⟨rfl, rfl, rfl⟩
  · rw [pushSession_of_ready hr]
    simp

/-- The push counter saturates (R222). -/
theorem feedSession_sampleCnt_toNat (b : Byte) (now : Time) (r : RxSession) :
    (feedSession b now r).sampleCnt.toNat = min (r.sampleCnt.toNat + 1) 4294967295 := by
  rw [feedSession_eq, countSample, tePush_sampleCnt, BitVec.toNat_ofNat]
  exact Nat.mod_eq_of_lt (by omega)

/-- The first timestamp is that of the push at count 0 (R222). -/
theorem feedSession_firstTs (b : Byte) (now : Time) (r : RxSession) :
    (feedSession b now r).firstTs = if r.sampleCnt.toNat = 0 then now else r.firstTs := by
  simp [feedSession_eq, countSample, ← BitVec.toNat_inj]

/-- The state machine produces a result exactly on entering DONE (R236). -/
theorem stepState_produced_iff (lvl : Bool) (now : Time) (rd : Int) (r : RxSession) :
    (stepState lvl now rd r).2 = true ↔ r.phase ≠ .done ∧ (stepState lvl now rd r).1.phase = .done := by
  cases hp : r.phase
  case idle =>
    simp only [stepState, hp, stepIdle]
    split <;> simp [hp]
  case waitForLow =>
    simp only [stepState, hp, stepWaitForLow]
    split <;> simp [hp]
  case receiving =>
    simp only [stepState, hp, stepReceiving]
    split
    · simp
    · split <;> simp [hp]
  case done => simp [stepState_of_done hp]

/-- A push produces a result exactly on entering DONE (R236). -/
theorem pushSession_produced_iff (b : Byte) (now : Time) (r : RxSession) :
    (pushSession b now r).2 = true ↔ r.phase ≠ .done ∧ (pushSession b now r).1.phase = .done := by
  cases hr : r.ready
  · rw [pushSession_of_not_ready hr]
    simp
  · rw [pushSession_of_ready hr, stepState_produced_iff]
    simp

/-- The whole next state of a push on the RX port (R220, R236). -/
theorem exec_rxPush_eq {s : State} (hp : s.port = .rx) (b : Byte) (now : Time) :
    exec (.rxPush b now) s = .next { s with
      rx := (pushSession b now s.rx).1
      rxReplies := s.rxReplies ++ [⟨response .ok (pushFlags (pushSession b now s.rx).1 (pushLevel b now s.rx)
        (pushSession b now s.rx).2), []⟩] } := by
  rw [exec_rxPush hp, reply, hp]
  rfl

/-- Settles O43: the answer is `pushFlags` of the session after the push; the counts are those of its counting step. -/
theorem pushAnswersAndCounts : Obligations.PushAnswersAndCounts := by
  unfold Obligations.PushAnswersAndCounts
  intro s b now hp
  obtain ⟨hready, -, -⟩ := pushSession_settings b now s.rx
  obtain ⟨hcnt, hfirst, hlast⟩ := pushSession_counts b now s.rx
  refine ⟨_, (pushSession b now s.rx).2, phaseCode (pushSession b now s.rx).1.phase, exec_rxPush_eq hp b now, ?_⟩
  refine ⟨fun h => by rw [h]; rfl, fun h => by rw [h]; rfl, fun h => by rw [h]; rfl, fun h => by rw [h]; rfl, ?_,
    pushSession_produced_iff b now s.rx, hfirst.trans (feedSession_firstTs ..), ?_, hlast, hready, rfl, rfl, rfl, rfl⟩
  · rw [← hready, ← pushLevel_eq]
    rfl
  · rw [hcnt, feedSession_sampleCnt_toNat]

/-- RESULT is bit 0 of the answer to a push (R220). -/
theorem pushFlags_produced (r : RxSession) (lvl produced : Bool) :
    (pushFlags r lvl produced).getLsbD 0 = produced := by
  rw [pushFlags, BitVec.getLsbD_setWidth, BitVec.getLsbD_append]
  simp

/-- Settles O44: a push that is not ready is its first two steps. -/
theorem gateStopsTheReceiver : Obligations.GateStopsTheReceiver := by
  unfold Obligations.GateStopsTheReceiver
  intro s b now hp hr
  refine ⟨_, _, exec_rxPush hp b now, lastReply_reply .., ?_, ?_⟩
  · refine (pushFlags_produced ..).trans ?_
    rw [pushSession_of_not_ready hr]
  · rw [reply_rx, pushSession_of_not_ready hr]
    simp

end Sys2Proof.Machine
end

section
/-! R225 to R237: the run tracker, the edge list and the state table, behind the gate. -/

namespace Sys2Proof.Machine

/-- The session a push hands from the run tracker to the state machine (R220). -/
def trackedSession (b : Byte) (now : Time) (r : RxSession) : RxSession :=
  trackRun (pushLevel b now r) now (feedSession b now r)

theorem trackedSession_eq (b : Byte) (now : Time) (r : RxSession) :
    trackedSession b now r = trackRun (pushLevel b now r) now (feedSession b now r) := rfl

@[simp] theorem trackedSession_phase (b : Byte) (now : Time) (r : RxSession) :
    (trackedSession b now r).phase = r.phase := by
  simp [trackedSession_eq]
@[simp] theorem trackedSession_origin (b : Byte) (now : Time) (r : RxSession) :
    (trackedSession b now r).origin = r.origin := by
  simp [trackedSession_eq]
@[simp] theorem trackedSession_res (b : Byte) (now : Time) (r : RxSession) :
    (trackedSession b now r).res = r.res := by
  simp [trackedSession_eq]

/-- Behind the gate a push is the state machine on the tracked session, with the run duration of R229. -/
theorem pushSession_eq_stepState {r : RxSession} (h : r.ready = true) (b : Byte) (now : Time) :
    pushSession b now r =
      stepState (pushLevel b now r) now (sdiff now (trackedSession b now r).runStart) (trackedSession b now r) :=
  pushSession_of_ready h b now

/-- A push behind the gate: its level, and the session it leaves. -/
theorem exec_rxPush_of_ready {s : State} (hp : s.port = .rx) (hr : s.rx.ready = true) (b : Byte) (now : Time) :
    ∃ t, exec (.rxPush b now) s = .next t ∧ pushLevel b now s.rx = decide (t.rx.thr2.toNat < 2 * b.toNat) ∧
      t.rx = (stepState (pushLevel b now s.rx) now (sdiff now (trackedSession b now s.rx).runStart)
        (trackedSession b now s.rx)).1 := by
  refine ⟨_, exec_rxPush hp b now, ?_, ?_⟩ <;> rw [reply_rx]
  · exact pushLevel_eq b now s.rx
  · rw [pushSession_eq_stepState hr]

/-- Settles O45: the state machine leaves the run, so each clause is a case of the run tracker. -/
theorem runTrackerFollowsTheSamples : Obligations.RunTrackerFollowsTheSamples := by
  unfold Obligations.RunTrackerFollowsTheSamples
  intro s b now hp hr
  obtain ⟨t, hexec, hlvl, ht⟩ := exec_rxPush_of_ready hp hr b now
  refine ⟨t, _, hexec, hlvl, ?_⟩
  rw [ht, stepState_runOpen, stepState_runLvl, stepState_runStart, trackedSession_eq]
  refine ⟨trackRun_runOpen .., fun ho => ?_, fun ho hk => ?_, fun ho hl hd => ?_⟩
  · rw [trackRun_opens (by simpa using ho)]
    exact ⟨rfl, rfl⟩
  · rw [trackRun_keeps (by simpa using ho) (by simpa using hk)]
    simp
  · rw [trackRun_accepts (by simpa using ho) (by simpa using hl) (by simpa using hd)]
    exact acceptTransition_run ..

/-! The rows of R237: IDLE, WAIT_FOR_LOW on a LOW and on a HIGH sample, and RECEIVING on STOP, at the timeout and before
it; `stepState_of_done` is the last. -/

theorem stepState_of_idle {r : RxSession} (h : r.phase = .idle) (lvl : Bool) (now : Time) (rd : Int) :
    (stepState lvl now rd r).1 = { r with phase :=
      if lvl = true ∧ (Config.startTrigger : Int) ≤ rd ∧ confident r = true then .waitForLow else .idle } := by
  simp only [stepState, h, stepIdle]
  split
  · rfl
  · rw [← h]

theorem stepState_of_waitForLow_low {r : RxSession} (h : r.phase = .waitForLow) (now : Time) (rd : Int) :
    (stepState false now rd r).1 =
      { r with phase := .receiving, origin := now, edges := [⟨0#32, false⟩], edgeOvf := false } := by
  simp [stepState, h, stepWaitForLow]

theorem stepState_of_waitForLow_high {r : RxSession} (h : r.phase = .waitForLow) (now : Time) (rd : Int) :
    (stepState true now rd r).1 = r := by
  simp [stepState, h, stepWaitForLow]

section
variable {lvl : Bool} {now : Time} {rd : Int} {r : RxSession}

theorem stepState_of_receiving (h : r.phase = .receiving) : stepState lvl now rd r = stepReceiving lvl now rd r := by
  simp only [stepState, h]

theorem stepState_of_receiving_stop (h : r.phase = .receiving)
    (hs : lvl = false ∧ (Config.stopTrigger : Int) ≤ rd) :
    (stepState lvl now rd r).1 =
      decodeSession (r.runStart + 200#32 - r.origin) .stop { r with phase := .done } := by
  rw [stepState_of_receiving h, stepReceiving, if_pos hs]
  rfl

theorem stepState_of_receiving_timeout (h : r.phase = .receiving)
    (hs : ¬(lvl = false ∧ (Config.stopTrigger : Int) ≤ rd)) (ht : (Config.timeout : Int) ≤ sdiff now r.origin) :
    (stepState lvl now rd r).1 = decodeSession (now - r.origin) .timeout { r with phase := .done } := by
  rw [stepState_of_receiving h, stepReceiving, if_neg hs, if_pos ht]
  rfl

theorem stepState_of_receiving_open (h : r.phase = .receiving)
    (hs : ¬(lvl = false ∧ (Config.stopTrigger : Int) ≤ rd)) (ht : sdiff now r.origin < Config.timeout) :
    (stepState lvl now rd r).1 = r := by
  rw [stepState_of_receiving h, stepReceiving, if_neg hs, if_neg (not_le.2 ht)]

end

/-- A push behind the gate makes an accepted transition (R226, R227). -/
def pushAccepts (b : Byte) (now : Time) (r : RxSession) : Bool :=
  r.runOpen && pushLevel b now r != r.runLvl && decide ((Config.minRun : Int) ≤ sdiff now r.runStart)

theorem pushAccepts_iff {b : Byte} {now : Time} {r : RxSession} :
    pushAccepts b now r = true ↔
      r.runOpen = true ∧ pushLevel b now r ≠ r.runLvl ∧ (Config.minRun : Int) ≤ sdiff now r.runStart := by
  simp [pushAccepts, and_assoc]

theorem trackedSession_of_accepted {b : Byte} {now : Time} {r : RxSession} (h : pushAccepts b now r = true) :
    trackedSession b now r = acceptTransition (pushLevel b now r) now (feedSession b now r) := by
  obtain ⟨ho, hl, hd⟩ := pushAccepts_iff.1 h
  exact trackRun_accepts (by simpa using ho) (by simpa using hl) (by simpa using hd)

/-- A sample that opens the run, keeps it, or makes a discarded transition leaves the edge list (R225, R226, R228). -/
theorem trackedSession_edges_of_not_accepted {b : Byte} {now : Time} {r : RxSession}
    (h : pushAccepts b now r = false) :
    (trackedSession b now r).edges = r.edges ∧ (trackedSession b now r).edgeOvf = r.edgeOvf := by
  rw [trackedSession_eq]
  rcases trackRun_cases (pushLevel b now r) now (feedSession b now r) with ⟨-, e⟩ | ⟨-, -, e⟩ | ⟨ho, hl, hd, -⟩
  · rw [e]; simp
  · rw [e]; simp
  · have ha : pushAccepts b now r = true :=
      pushAccepts_iff.2 ⟨by simpa using ho, by simpa using hl, by simpa using hd⟩
    exact absurd (h.symm.trans ha) (by decide)

/-- In RECEIVING an accepted transition records an edge, where there is room (R227). -/
theorem trackedSession_records {b : Byte} {now : Time} {r : RxSession} (hp : r.phase = .receiving)
    (ha : pushAccepts b now r = true) (hl : r.edges.length < Config.edgeCap) :
    (trackedSession b now r).edges = r.edges ++ [⟨now - r.origin, pushLevel b now r⟩] ∧
      (trackedSession b now r).edgeOvf = r.edgeOvf := by
  rw [trackedSession_of_accepted ha, acceptTransition, if_pos (by simpa using hp), if_pos (by simpa using hl)]
  simp [sdiffPattern]

/-- In RECEIVING an accepted transition at EDGE_CAP is dropped with EDGE_OVF (R227). -/
theorem trackedSession_overflows {b : Byte} {now : Time} {r : RxSession} (hp : r.phase = .receiving)
    (ha : pushAccepts b now r = true) (hl : Config.edgeCap ≤ r.edges.length) :
    (trackedSession b now r).edges = r.edges ∧ (trackedSession b now r).edgeOvf = true := by
  rw [trackedSession_of_accepted ha, acceptTransition, if_pos (by simpa using hp), if_neg (by simpa using hl)]
  simp

theorem trackedSession_edges_of_not_receiving {r : RxSession} (h : r.phase ≠ .receiving) (b : Byte) (now : Time) :
    (trackedSession b now r).edges = r.edges ∧ (trackedSession b now r).edgeOvf = r.edgeOvf := by
  rw [trackedSession_eq]
  simpa using trackRun_edges_of_not_receiving (r := feedSession b now r) (by simpa using h) (pushLevel b now r) now

/-- The state machine writes the edge list only where it starts the frame (R232). -/
theorem stepState_edges {lvl : Bool} {r : RxSession} (h : r.phase = .waitForLow → lvl = true) (now : Time)
    (rd : Int) :
    (stepState lvl now rd r).1.edges = r.edges ∧ (stepState lvl now rd r).1.edgeOvf = r.edgeOvf := by
  rcases stepState_cases lvl now rd r with ⟨-, -, -, e⟩ | ⟨hp, hl, -⟩ | ⟨-, stop, cause, e⟩ | ⟨-, e⟩
  · rw [e]; exact ⟨rfl, rfl⟩
  · exact absurd (hl.symm.trans (h hp)) (by decide)
  · rw [e]; exact ⟨rfl, rfl⟩
  · rw [e]; exact ⟨rfl, rfl⟩

/-- Settles O46: the run tracker writes the edge list in RECEIVING, the state machine where it starts the frame. -/
theorem edgesAreRecorded : Obligations.EdgesAreRecorded := by
  unfold Obligations.EdgesAreRecorded
  intro s b now hp hr
  obtain ⟨t, hexec, hlvl, ht⟩ := exec_rxPush_of_ready hp hr b now
  have hphase := trackedSession_phase b now s.rx
  have hkept (h : s.rx.phase = .waitForLow → pushLevel b now s.rx = true) :
      t.rx.edges = (trackedSession b now s.rx).edges ∧ t.rx.edgeOvf = (trackedSession b now s.rx).edgeOvf := by
    rw [ht]
    exact stepState_edges (by rwa [hphase]) now _
  refine ⟨t, _, pushAccepts b now s.rx, hexec, hlvl, pushAccepts_iff, fun h ha hl => ?_, fun h ha hl => ?_,
    fun h ha => ?_, fun h hlow => ?_, fun h => ?_⟩
  · obtain ⟨hes, hov⟩ := hkept (by simp [h])
    rw [hes, hov]
    exact trackedSession_records h ha hl
  · obtain ⟨hes, hov⟩ := hkept (by simp [h])
    rw [hes, hov]
    exact trackedSession_overflows h ha hl
  · obtain ⟨hes, hov⟩ := hkept (by simp [h])
    rw [hes, hov]
    exact trackedSession_edges_of_not_accepted ha
  · rw [ht, hlow, stepState_of_waitForLow_low (hphase.trans h)]
    exact ⟨rfl, rfl⟩
  · have hstay : s.rx.phase = .waitForLow → pushLevel b now s.rx = true := by
      rcases h with h | h | ⟨-, h⟩ <;> simp [h]
    obtain ⟨hes, hov⟩ := hkept hstay
    rw [hes, hov]
    exact trackedSession_edges_of_not_receiving (by rcases h with h | h | ⟨h, -⟩ <;> simp [h]) b now

/-- Settles O47: each row is a case of the state machine on the tracked session, whose STATE, ORIGIN and result are those
before the push. -/
theorem stateTable : Obligations.StateTable := by
  unfold Obligations.StateTable
  intro s b now hp hr
  obtain ⟨t, hexec, hlvl, ht⟩ := exec_rxPush_of_ready hp hr b now
  refine ⟨t, _, confident (trackedSession b now s.rx), _, hexec, hlvl, rfl, ?_⟩
  rw [ht, ← trackedSession_phase b now s.rx, ← trackedSession_origin b now s.rx, ← trackedSession_res b now s.rx,
    stepState_runStart, stepState_swing, stepState_cal]
  refine ⟨rfl, fun h => ?_, fun h hl => ?_, fun h hl => ?_, fun h hs => ?_, fun h hs hto => ?_, fun h hs hto => ?_,
    fun h => ?_⟩
  · rw [stepState_of_idle h]
    exact ⟨rfl, rfl, rfl⟩
  · rw [hl, stepState_of_waitForLow_low h]
    exact ⟨rfl, rfl, rfl⟩
  · rw [hl, stepState_of_waitForLow_high h]
    exact ⟨h, rfl, rfl⟩
  · rw [stepState_of_receiving_stop h hs]
    exact ⟨rfl, rfl, rfl, rfl, rfl⟩
  · rw [stepState_of_receiving_timeout h hs hto]
    exact ⟨rfl, rfl, rfl, rfl, rfl⟩
  · rw [stepState_of_receiving_open h hs hto]
    exact ⟨h, rfl, rfl⟩
  · rw [stepState_of_done h]
    exact ⟨h, rfl, rfl⟩

end Sys2Proof.Machine
end

section
/-! R240 to R242: the RX control commands. -/

namespace Sys2Proof.Machine

/-- Settles O49: the effect and the answer of each command, on the port that admits it. -/
theorem resetAndReadyCommands : Obligations.ResetAndReadyCommands := by
  unfold Obligations.ResetAndReadyCommands
  intro s hp
  have hadmits {i : Instr} (hi : i.op.admits .rx = true) : i.op.admits s.port = true := by rwa [hp]
  exact ⟨exec_eq (hadmits rfl), exec_eq (hadmits rfl), exec_eq (hadmits rfl)⟩

end Sys2Proof.Machine
end

section
/-! R272: the rounding of a run to bits. -/

namespace Sys2Proof.Machine

theorem roundBits_eq_one {run : Int} (h : run ≤ 299) : roundBits run = 1 := by
  simp only [roundBits, Config.bitPeriod]
  omega

theorem roundBits_eq_iff {run : Int} {m : Nat} (hm : 2 ≤ m) :
    roundBits run = m ↔ (200 * m - 100 : Int) ≤ run ∧ run ≤ 200 * m + 99 := by
  simp only [roundBits, Config.bitPeriod]
  omega

/-- A run within 99 ms of `m` bit periods rounds to `m` bits, also where `m = 1` (R387). -/
theorem roundBits_of_within {run : Int} {m : Nat} (hm : 1 ≤ m) (hlo : (200 * m - 99 : Int) ≤ run)
    (hhi : run ≤ 200 * m + 99) : roundBits run = m := by
  obtain rfl | hm2 := hm.eq_or_lt
  · exact roundBits_eq_one (by omega)
  · exact (roundBits_eq_iff hm2).2 ⟨by omega, hhi⟩

/-- Settles O51: the shortest run, and the general boundaries. -/
theorem roundingBoundaries : Obligations.RoundingBoundaries := by
  unfold Obligations.RoundingBoundaries
  exact ⟨fun _ _ h => roundBits_eq_one h, fun _ _ hm => roundBits_eq_iff hm⟩

end Sys2Proof.Machine
end

section
/-! R270 to R274: the reconstructor appends the bits of each run in order and keeps the first BIT_CAP of them. -/

namespace Sys2Proof.Machine

/-- Where the run of the edge before `es` ends: at the next edge (R271), and at `stop` after the last one (R273). -/
def runEnd (stop : Time) (es : List Edge) : Time :=
  (es[0]?.map Edge.t).getD stop

theorem expandRuns_cons (stop : Time) (e : Edge) (es : List Edge) (a : BitBuffer) :
    expandRuns stop (e :: es) a = expandRuns stop es (putRun ((runEnd stop es).toInt - e.t.toInt) e.lvl a) := by
  cases es <;> rfl

@[simp] theorem recoveredBits_nil (stop : Time) : recoveredBits stop [] = [] := rfl

theorem recoveredBits_cons (stop : Time) (e : Edge) (es : List Edge) :
    recoveredBits stop (e :: es) =
      runBits ((runEnd stop es).toInt - e.t.toInt) e.lvl ++ recoveredBits stop es := by
  cases es <;> simp [recoveredBits, runEnd]

/-- The bit buffer after the bits `bs`: the first BIT_CAP of them, and whether there were more (R274). -/
def cappedBits (bs : Bits) : BitBuffer :=
  ⟨bs.take Config.bitCap, decide (Config.bitCap < bs.length)⟩

theorem put_cappedBits (k : Nat) (v : Bool) (bs : Bits) :
    put k v (cappedBits bs) = cappedBits (bs ++ List.replicate k v) := by
  have hroom : Config.bitCap - min Config.bitCap bs.length = Config.bitCap - bs.length := by omega
  simp only [put, cappedBits, List.length_take, hroom, List.take_append, List.take_replicate, List.length_append,
    List.length_replicate, BitBuffer.mk.injEq]
  refine ⟨by rw [min_comm], ?_⟩
  rw [← Bool.decide_or, decide_eq_decide]
  omega

theorem putRun_cappedBits (run : Int) (v : Bool) (bs : Bits) :
    putRun run v (cappedBits bs) = cappedBits (bs ++ runBits run v) := by
  unfold putRun runBits
  split
  · exact put_cappedBits ..
  · rw [List.append_nil]

theorem expandRuns_cappedBits (stop : Time) (es : List Edge) (bs : Bits) :
    expandRuns stop es (cappedBits bs) = cappedBits (bs ++ recoveredBits stop es) := by
  induction es generalizing bs with
  | nil => rw [recoveredBits_nil, List.append_nil]; rfl
  | cons e es ih => rw [expandRuns_cons, putRun_cappedBits, ih, recoveredBits_cons, List.append_assoc]

/-- From the empty buffer the reconstructor leaves the recovered bits, capped (R270 to R274). -/
theorem expandRuns_eq_cappedBits (stop : Time) (es : List Edge) :
    expandRuns stop es ⟨[], false⟩ = cappedBits (recoveredBits stop es) :=
  expandRuns_cappedBits stop es []

/-- A push that takes the session from RECEIVING to DONE decodes it at some stop time (R233, R234). -/
theorem pushSession_enters_done {b : Byte} {now : Time} {r : RxSession} (hr : r.phase = .receiving)
    (hd : (pushSession b now r).1.phase = .done) :
    ∃ stop cause q, (pushSession b now r).1 = decodeSession stop cause q := by
  cases hready : r.ready
  · rw [pushSession_of_not_ready hready] at hd
    simp [hr] at hd
  · rw [pushSession_eq_stepState hready] at hd ⊢
    have htracked : (trackedSession b now r).phase = .receiving := (trackedSession_phase ..).trans hr
    rw [stepState_of_receiving htracked] at hd ⊢
    rcases stepReceiving_cases (pushLevel b now r) now (sdiff now (trackedSession b now r).runStart)
      (trackedSession b now r) with ⟨stop, cause, h⟩ | h
    · exact ⟨stop, cause, _, h⟩
    · rw [h, htracked] at hd
      cases hd

/-- Settles O50: the push decodes the session, and the decode leaves the recovered bits, capped. -/
theorem resultHoldsTheRecoveredBits : Obligations.ResultHoldsTheRecoveredBits := by
  unfold Obligations.ResultHoldsTheRecoveredBits
  intro s t b now hp hr hexec hd
  rw [exec_rxPush_eq hp] at hexec
  cases hexec
  obtain ⟨stop, cause, q, hdecode⟩ := pushSession_enters_done hr hd
  simp only [hdecode, decodeSession_bits, decodeSession_bitOvf, decodeSession_stop, decodeSession_edges,
    decodeSession_res_edgeOvf, decodeSession_edgeOvf, expandRuns_eq_cappedBits, and_true]
  exact ⟨rfl, decide_eq_true_iff⟩

end Sys2Proof.Machine
end

section
/-! R387: runs within 99 ms of whole bit periods are recovered exactly. -/

namespace Sys2Proof.Machine

/-- The edges `es` alternate from the level of parity `n`, and the run that begins at each is within 99 ms of as many
bit periods as `ms` says; the last one ends at `stop`. -/
def RunsWithinTolerance (stop : Time) (n : Nat) (es : List Edge) (ms : List Nat) : Prop :=
  ∀ (i m : Nat) (e : Edge), ms[i]? = some m → es[i]? = some e →
    1 ≤ m ∧ e.lvl = decide ((n + i) % 2 = 1) ∧
    (200 * m - 99 : Int) ≤ ((es[i + 1]?.map Edge.t).getD stop).toInt - e.t.toInt ∧
    ((es[i + 1]?.map Edge.t).getD stop).toInt - e.t.toInt ≤ 200 * m + 99

/-- `ms[j]` copies each of alternating levels, the first of parity `n`. -/
def alternatingBits (n : Nat) (ms : List Nat) : Bits :=
  (ms.zipIdx n).flatMap fun p => List.replicate p.1 (decide (p.2 % 2 = 1))

@[simp] theorem alternatingBits_nil (n : Nat) : alternatingBits n [] = [] := rfl

@[simp] theorem alternatingBits_cons (n m : Nat) (ms : List Nat) :
    alternatingBits n (m :: ms) = List.replicate m (decide (n % 2 = 1)) ++ alternatingBits (n + 1) ms := rfl

theorem alternatingBits_length (n : Nat) (ms : List Nat) : (alternatingBits n ms).length = ms.sum := by
  induction ms generalizing n with
  | nil => rfl
  | cons m ms ih => simp [ih]

section
variable {stop : Time} {n m : Nat} {e : Edge} {es : List Edge} {ms : List Nat}

theorem RunsWithinTolerance.head (h : RunsWithinTolerance stop n (e :: es) (m :: ms)) :
    1 ≤ m ∧ e.lvl = decide (n % 2 = 1) ∧ (200 * m - 99 : Int) ≤ (runEnd stop es).toInt - e.t.toInt ∧
      (runEnd stop es).toInt - e.t.toInt ≤ 200 * m + 99 :=
  h 0 m e rfl rfl

theorem RunsWithinTolerance.tail (h : RunsWithinTolerance stop n (e :: es) (m :: ms)) :
    RunsWithinTolerance stop (n + 1) es ms := by
  intro i k f hk hf
  have hi := h (i + 1) k f hk hf
  rwa [← Nat.add_assoc, Nat.add_right_comm] at hi

/-- The first run is expanded to exactly its bits: it lasts at least 101 ms, so it is not discarded (R271, R272). -/
theorem RunsWithinTolerance.runBits_head (h : RunsWithinTolerance stop n (e :: es) (m :: ms)) :
    runBits ((runEnd stop es).toInt - e.t.toInt) e.lvl = List.replicate m (decide (n % 2 = 1)) := by
  obtain ⟨hm, hlvl, hlo, hhi⟩ := h.head
  have hlong : (Config.minRun : Int) ≤ (runEnd stop es).toInt - e.t.toInt := by
    simp only [Config.minRun]
    omega
  rw [runBits, if_pos hlong, roundBits_of_within hm hlo hhi, hlvl]

theorem RunsWithinTolerance.recoveredBits_eq (h : RunsWithinTolerance stop n es ms)
    (hlen : ms.length = es.length) :
    recoveredBits stop es = alternatingBits n ms := by
  induction es generalizing n ms with
  | nil => rw [List.length_eq_zero_iff.1 hlen, recoveredBits_nil, alternatingBits_nil]
  | cons e es ih =>
    obtain ⟨m, ms, rfl⟩ := List.exists_cons_of_length_eq_add_one hlen
    rw [recoveredBits_cons, h.runBits_head, ih h.tail (Nat.succ.inj hlen), alternatingBits_cons]

end

theorem cappedBits_of_length_le {bs : Bits} (h : bs.length ≤ Config.bitCap) : cappedBits bs = ⟨bs, false⟩ := by
  rw [cappedBits, List.take_of_length_le h, decide_eq_false (not_lt.2 h)]

/-- Settles O52: the recovered bits are the alternating bits, and BIT_CAP holds them all. -/
theorem runsWithinToleranceReconstruct : Obligations.RunsWithinToleranceReconstruct := by
  unfold Obligations.RunsWithinToleranceReconstruct
  intro es stop ms _ hlen hruns hsum
  have hwithin : RunsWithinTolerance stop 0 es ms := by
    intro i m e hm he
    rw [Nat.zero_add]
    exact hruns i m e hm he
  rw [expandRuns_eq_cappedBits, hwithin.recoveredBits_eq hlen,
    cappedBits_of_length_le ((alternatingBits_length 0 ms).trans_le hsum)]
  exact ⟨rfl, rfl⟩

end Sys2Proof.Machine
end

section
/-! The reads by index of the buffer, the window and the edge list (46_readout.md R304, R305, R311). -/

namespace Sys2Proof.Machine

/-- A read of a list by index: the element's data, and BAD_INDEX at or beyond the length (R300). -/
theorem respondIndexed_getElem? {α : Type} (l : List α) (f : α → Data) (i : Nat) (s : State) :
    (∀ a, l[i]? = some a →
      respondIndexed (l[i]?.map f) s = .next (reply ⟨response .ok (f a), []⟩ s)) ∧
    (l.length ≤ i → respondIndexed (l[i]?.map f) s = .next (reply ⟨response .badIndex 0#48, []⟩ s)) := by
  refine ⟨fun a ha => ?_, fun hi => ?_⟩
  · rw [ha, Option.map_some, respondIndexed_some]
  · rw [List.getElem?_eq_none hi, Option.map_none, respondIndexed_none]

theorem exec_txReadBuf {s : State} (hp : s.port = .tx) (idx : BitVec 16) :
    exec (.txReadBuf idx) s = respondIndexed (s.tx.buf[idx.toNat]?.map bitData) s :=
  onPort_of_admits (by simp [Op.admits, hp]) _

theorem exec_rxReadWin {s : State} (hp : s.port = .rx) (idx : BitVec 16) :
    exec (.rxReadWin idx) s = respondIndexed (s.rx.win[idx.toNat]?.map fun b => b.setWidth 48) s :=
  onPort_of_admits (by simp [Op.admits, hp]) _

theorem exec_rxReadEdge {s : State} (hp : s.port = .rx) (idx : BitVec 16) :
    exec (.rxReadEdge idx) s = respondIndexed (s.rx.edges[idx.toNat]?.map edgeData) s :=
  onPort_of_admits (by simp [Op.admits, hp]) _

/-- Settles O39: the buffer is read by index. -/
theorem txBufferIsRead : Obligations.TxBufferIsRead := by
  unfold Obligations.TxBufferIsRead
  intro s idx hp
  rw [exec_txReadBuf hp]
  exact respondIndexed_getElem? s.tx.buf bitData idx.toNat s

/-- Settles O54: the window and the edge list are read by index. -/
theorem windowAndEdgesAreRead : Obligations.WindowAndEdgesAreRead := by
  unfold Obligations.WindowAndEdgesAreRead
  intro s idx hp
  rw [exec_rxReadWin hp, exec_rxReadEdge hp]
  obtain ⟨hwin, hwinEnd⟩ := respondIndexed_getElem? s.rx.win (fun b => b.setWidth 48) idx.toNat s
  obtain ⟨hedge, hedgeEnd⟩ := respondIndexed_getElem? s.rx.edges edgeData idx.toNat s
  exact ⟨hwin, hwinEnd, hedge, hedgeEnd⟩

end Sys2Proof.Machine
end

section
/-! The register views of the RX session (46_readout.md R301 to R303). -/

namespace Sys2Proof.Machine

/-! A field of a view as the integer it holds. -/

theorem bitData_eq (b : Bool) : bitData b = BitVec.ofNat 48 b.toNat := by
  rw [bitData, ← BitVec.ofNat_toNat, BitVec.toNat_ofBool]

/-- Two fields side by side: the left one counts the powers above the right one. -/
theorem append_toNat {m n : Nat} (x : BitVec m) (y : BitVec n) : (x ++ y).toNat = x.toNat * 2 ^ n + y.toNat := by
  rw [BitVec.toNat_append, ← Nat.shiftLeft_add_eq_or_of_lt y.isLt, Nat.shiftLeft_eq]

/-! The views that are more than one element. -/

/-- RUN: RUN_OPEN in bit 0 and RUN_LVL above it (R301). -/
theorem runData_eq (r : RxSession) :
    (BitVec.ofBool r.runLvl ++ BitVec.ofBool r.runOpen).setWidth 48 =
      BitVec.ofNat 48 (r.runOpen.toNat + 2 * r.runLvl.toNat) := by
  rw [← BitVec.ofNat_toNat, append_toNat, BitVec.toNat_ofBool, BitVec.toNat_ofBool]
  congr 1
  omega

theorem causeBit_eq_decide (c : Cause) : causeBit c = decide (c = .timeout) := by
  cases c <;> rfl

/-- RES_INFO of a result: its five flags with their weights (R302). -/
theorem resultInfo_of_valid {q : ResultRecord} (h : q.valid = true) :
    resultInfo q = BitVec.ofNat 48 (1 + 2 * (decide (10 ≤ q.bits.length)).toNat +
      4 * (decide (q.cause = .timeout)).toNat + 8 * q.bitOvf.toNat + 16 * q.edgeOvf.toNat) := by
  rw [resultInfo, if_pos h, ← BitVec.ofNat_toNat, causeBit_eq_decide, resultDecoded]
  simp only [Config.groupBits, append_toNat, BitVec.toNat_ofBool, Bool.toNat_true]
  congr 1
  omega

/-- RATE_MHZ saturates, so its field holds it (R303). -/
theorem rateMilliHz_lt (r : RxSession) : rateMilliHz r < 2 ^ 32 := by
  unfold rateMilliHz
  split <;> omega

/-- RES_NINVALID counts the groups that do not decode (R283). -/
theorem invalidCount_eq (q : ResultRecord) :
    invalidCount q =
      ((List.range (q.bits.length / 10)).filter fun j => (decodeTenBits (resultGroup q j)).isNone).length :=
  List.countP_eq_length_filter

theorem invalidCount_le (q : ResultRecord) : invalidCount q ≤ q.bits.length / 10 :=
  List.countP_le_length.trans_eq List.length_range

/-! The register file and the table of views. -/

/-- The session answers the table's row `p`: the view at its index reads its integer. -/
def ReadsRow (r : RxSession) (p : Nat × Nat) : Prop :=
  rxRegister r (BitVec.ofNat 16 p.1) = some (BitVec.ofNat 48 p.2)

section
variable {r : RxSession} {i v n : Nat}

theorem ReadsRow.of_field {x : BitVec n} (h : rxRegister r (BitVec.ofNat 16 i) = some (x.setWidth 48)) :
    ReadsRow r (i, x.toNat) :=
  h.trans (congrArg some (BitVec.ofNat_toNat 48 x).symm)

theorem ReadsRow.of_bit {b : Bool} (h : rxRegister r (BitVec.ofNat 16 i) = some (bitData b)) :
    ReadsRow r (i, b.toNat) :=
  h.trans (congrArg some (bitData_eq b))

theorem ReadsRow.of_count (h : rxRegister r (BitVec.ofNat 16 i) = some (countData n v)) (hv : v < 2 ^ n) :
    ReadsRow r (i, v) :=
  h.trans (congrArg some (countData_eq hv))

end

/-- Row by row: every view of the table is read (R301 to R303). -/
theorem RxInv.readsRow {r : RxSession} (h : RxInv r) : ∀ p ∈ rxRegisterTable r, ReadsRow r p := by
  have hwin : r.win.length ≤ 150 := h.win_le
  have hedges : r.edges.length ≤ 1024 := h.edges_le
  have hbits : r.res.bits.length ≤ 4096 := h.bits_le
  rw [rxRegisterTable, List.forall_mem_append]
  constructor
  · simp only [List.forall_mem_cons]
    exact ⟨.of_field rfl, .of_bit rfl, .of_field rfl, .of_field rfl, .of_field rfl, .of_field rfl, .of_bit rfl,
      .of_field rfl, .of_count rfl (by omega), congrArg some (runData_eq r), .of_field rfl, .of_field rfl,
      .of_count rfl (by omega), .of_bit rfl, .of_field rfl, .of_field rfl, .of_field rfl,
      .of_count rfl (rateMilliHz_lt r), List.forall_mem_nil _⟩
  · split <;> simp only [List.forall_mem_cons]
    case isTrue hv =>
      have hresult {a b : Data} : some (if r.res.valid = true then a else b) = some a := congrArg some (if_pos hv)
      have hinvalid := invalidCount_le r.res
      rw [← invalidCount_eq]
      exact ⟨congrArg some (resultInfo_of_valid hv), .of_count hresult (by omega), .of_count hresult (by omega),
        .of_count hresult (by omega), .of_field hresult, .of_count hresult (by omega), List.forall_mem_nil _⟩
    case isFalse hv =>
      refine ⟨?_, ?_, ?_, ?_, ?_, ?_, List.forall_mem_nil _⟩ <;> exact congrArg some (if_neg hv)

/-- The table's indices: 0x00 to 0x11, and 0x20 to 0x25 (R301). -/
theorem rxRegisterTable_indices (r : RxSession) :
    (rxRegisterTable r).map Prod.fst = List.range 0x12 ++ List.range' 0x20 6 := by
  unfold rxRegisterTable
  cases r.res.valid <;> rfl

/-- There is no view between the two blocks of indices, nor past the second (R301). -/
theorem rxRegister_none {idx : BitVec 16} (h : 0x12 ≤ idx.toNat ∧ idx.toNat < 0x20 ∨ 0x26 ≤ idx.toNat)
    (r : RxSession) : rxRegister r idx = none := by
  unfold rxRegister
  generalize idx.toNat = n at h
  rcases h with ⟨hlo, hhi⟩ | hlo
  · interval_cases n <;> rfl
  · obtain ⟨m, rfl⟩ : ∃ m, n = m + 0x26 := ⟨n - 0x26, by omega⟩
    rfl

theorem rxRegister_none_of_notMem {r : RxSession} {idx : BitVec 16}
    (h : idx.toNat ∉ (rxRegisterTable r).map Prod.fst) : rxRegister r idx = none := by
  rw [rxRegisterTable_indices, List.mem_append, List.mem_range, List.mem_range'_1] at h
  exact rxRegister_none (by omega) r

theorem exec_rxReadReg {s : State} (hp : s.port = .rx) (idx : BitVec 16) :
    exec (.rxReadReg idx) s = respondIndexed (rxRegister s.rx idx) s :=
  onPort_of_admits (by simp [Op.admits, hp]) _

/-- View 0 is the code of STATE (R20). -/
theorem exec_rxReadReg_state {s : State} (hp : s.port = .rx) {c : RxPhase} (h : s.rx.phase = c) :
    exec (.rxReadReg 0#16) s = .next (reply ⟨response .ok ((phaseCode c).setWidth 48), []⟩ s) := by
  subst h
  exact exec_rxReadReg hp 0#16

/-- Settles O53: the table row by row, the code of each STATE, and BAD_INDEX at every index without a view. -/
theorem rxRegisterViews : Obligations.RxRegisterViews := by
  unfold Obligations.RxRegisterViews
  intro s hp hinv
  refine ⟨fun p hrow => ?_, exec_rxReadReg_state hp, exec_rxReadReg_state hp, exec_rxReadReg_state hp,
    exec_rxReadReg_state hp, fun idx hidx => ?_⟩
  · have hread : rxRegister s.rx (BitVec.ofNat 16 p.1) = some (BitVec.ofNat 48 p.2) := hinv.readsRow p hrow
    rw [exec_rxReadReg hp, hread, respondIndexed_some]
  · rw [exec_rxReadReg hp, rxRegister_none_of_notMem hidx, respondIndexed_none]

end Sys2Proof.Machine
end

section
/-! R341: a command that ends with an error status is its reply alone. -/

namespace Sys2Proof.Machine

/-- A command's last reply is its answer, and an answer that is not OK is all the command leaves. -/
theorem exec_error {i : Instr} {s t : State} (h : exec i s = .next t) : ∃ a : Answer, lastReply t = some a.reply ∧
    (a.status ≠ .ok → t = reply a.reply s ∧ a.events = [] ∧ a.data = 0#48) := by
  rcases exec_cases h with ⟨-, rfl⟩ | ⟨-, rfl⟩
  · exact ⟨_, lastReply_reply .., fun _ => ⟨rfl, errAnswer_events _, errAnswer_data _⟩⟩
  · refine ⟨_, lastReply_reply .., fun herr => ?_⟩
    obtain ⟨hrx, htx, hdata, hevents⟩ := answer_error herr
    exact ⟨by rw [hrx, htx], hevents, hdata⟩

/-- Settles O12: the status field tells whether the answer is OK, and an answer that is not OK comes without effects. -/
theorem errorStatusChangesNothing : Obligations.ErrorStatusChangesNothing := by
  unfold Obligations.ErrorStatusChangesNothing
  intro i s t r hexec hlast hstatus
  obtain ⟨a, hreply, herror⟩ := exec_error hexec
  obtain rfl : a.reply = r := Option.some.inj (hreply.symm.trans hlast)
  rw [Answer.reply, response_status, ne_eq, statusCode_eq_zero_iff] at hstatus
  obtain ⟨hstate, hevents, hdata⟩ := herror hstatus
  exact ⟨hstate, hevents, (response_data ..).trans hdata⟩

end Sys2Proof.Machine
end
